-- ==== Sys2Proof/Word.lean ====
section
/-! DEFINITION. The words of DFCT: bytes and 32-bit register words (00_scope.md R8, R13). -/

namespace Sys2Proof

/-- A byte (R13). -/
abbrev Byte := BitVec 8

/-- A register word, 32 bits (R8). -/
abbrev Word := BitVec 32

end Sys2Proof
end

