-- ==== Sys2Proof/Config.lean ====
section
/-! DEFINITION. What is fixed for one DFCT and left open by the spec (00_scope.md R9), and what the outside chooses in one
CLK cycle (R10, R11). Every open value is an opaque constant without a body: no proof can see its value. -/

namespace Sys2Proof

/-- Width of a host access: 1, 2 or 4 bytes (20_memory.md R49). -/
inductive Size where
  | one
  | two
  | four
  deriving DecidableEq, Repr, Inhabited

/-- One host access of the BUS port: an 11-bit window offset, a width, and for a write 32 data bits of which the low
`size` bytes count (10_state.md R17, 20_memory.md R49, R50). -/
inductive Access where
  | read (off : BitVec 11) (size : Size)
  | write (off : BitVec 11) (size : Size) (data : Word)
  deriving DecidableEq, Repr, Inhabited

/-- A received character: 8 data bits, parity error, framing error (42_transceiver.md R122). -/
structure RxChar where
  data : Byte
  perr : Bool
  ferr : Bool
  deriving DecidableEq, Repr, Inhabited

/-- What the outside chooses in one CLK cycle: the level of RST_N, the host's access, the line environment's character, and
the latency drawn for a codec command accepted in this cycle (R10, R11, 40_commands.md R88). -/
structure CycleInput where
  rstN    : Bool
  access  : Option Access
  rx      : Option RxChar
  latDraw : Nat
  deriving DecidableEq, Repr, Inhabited

namespace Config

/-- The window's base is 2048 times this (R9: a multiple of 2048). OPEN. -/
opaque blockIndex : Nat

/-- F_CLK_HZ less 1 (R9: greater than 0). OPEN. -/
opaque fClkHzLessOne : Nat

/-- P_BAUD_DIV_RESET less 1 (R9: 1..65535). OPEN. -/
opaque baudDivResetLessOne : Fin 65535

/-- P_TICK_DIV_RESET (R9: 0..2^32-1). OPEN. -/
opaque tickDivReset : BitVec 32

/-- P_CODEC_MAX_LAT (R9: at least 0). OPEN. -/
opaque codecMaxLat : Nat

/-- The free choice of the outside in each cycle, once the choices listed in the state are used up: no rule constrains it
(R10, 42_transceiver.md R122). DESIGN CHOICE, log 1; safe. -/
opaque environment : Nat → CycleInput

/-- The byte a host script stores for a character outside ASCII: the spec gives no code (30_encoding.md R84). DESIGN CHOICE,
log 25; safe. -/
opaque nonAsciiCode : Nat → Byte

/-- BLOCK_BASE, a multiple of 2048 (R9). -/
def blockBase : Nat := 2048 * blockIndex

/-- F_CLK_HZ, greater than 0 (R9). -/
def fClkHz : Nat := fClkHzLessOne + 1

/-- P_BAUD_DIV_RESET, 1..65535 (R9). -/
def baudDivReset : BitVec 16 := BitVec.ofNat 16 (baudDivResetLessOne.val + 1)

end Config

end Sys2Proof
end

