-- ==== Sys2Proof/Syntax.lean ====
section
/-! DEFINITION. The commands of DFCT, one constructor per row of opcode_table.json (30_encoding.md R70, R71). There are no
operand fields: every operand is read from registers and buffers (R72). -/

namespace Sys2Proof

/-- A command. `illegal` keeps its word, which is none of the six legal ones (R71). -/
inductive Instr where
  | nop
  | addrEncode
  | build
  | parseRx
  | parseTx
  | exchange
  | illegal (w : Word)
  deriving DecidableEq, Repr, Inhabited

end Sys2Proof
end

