-- ==== Sys2Proof/WellFormed.lean ====
section
/-! DEFINITION. Which terms of Instr stand for a command word (30_encoding.md R70, R71). -/

namespace Sys2Proof

/-- The six command words of the opcode map (R70). Every other word is illegal (opcode_table.json). -/
def legalWords : List Word :=
  [0x00000000#32, 0x00000001#32, 0x00000002#32, 0x00000003#32, 0x00000103#32, 0x00000004#32]

/-- An `illegal` command carries a word outside the opcode map; the other commands have no fields to check. -/
def Instr.wellFormed : Instr → Bool
  | .nop        => true
  | .addrEncode => true
  | .build      => true
  | .parseRx    => true
  | .parseTx    => true
  | .exchange   => true
  | .illegal w  => !legalWords.contains w

end Sys2Proof
end

