-- ==== Sys2Proof/Decode.lean ====
section
/-! DEFINITION. The byte order of words (40_commands.md R95), the command decoder, total on any bytes, and the encoder
(30_encoding.md R69 to R71). -/

namespace Sys2Proof

/-- `le32(b0, b1, b2, b3)`: the word whose lowest byte is `b0` (40_commands.md R95). -/
def le32 (b0 b1 b2 b3 : Byte) : Word := b3 ++ b2 ++ b1 ++ b0

/-- `bytes_le(v)`: the four bytes of a word, lowest first (40_commands.md R95). -/
def bytesLe (v : Word) : List Byte :=
  [v.extractLsb' 0 8, v.extractLsb' 8 8, v.extractLsb' 16 8, v.extractLsb' 24 8]

/-- Field OP, bits [3:0] of a command word (R69). -/
def opField (w : Word) : BitVec 4 := w.extractLsb' 0 4

/-- Field SRC, bit [8] of a command word (R69). -/
def srcField (w : Word) : Bool := w.getLsbD 8

/-- Bits [7:4] and [31:9] are reserved and must be 0 (R69). -/
def reservedClear (w : Word) : Bool := w.extractLsb' 4 4 == 0#4 && w.extractLsb' 9 23 == 0#23

/-- A command word is illegal if OP is in 0x5..0xF, a reserved bit is 1, or SRC is 1 with OP other than 0x3 (R71). -/
def illegalWord (w : Word) : Bool :=
  decide (5 ≤ (opField w).toNat) || !reservedClear w || (srcField w && opField w != 3#4)

/-- The command a word stands for (R70, R71). Total: a word outside the opcode map is an `illegal` command. -/
def decodeWord (w : Word) : Instr :=
  if illegalWord w then .illegal w
  else if opField w = 0#4 then .nop
  else if opField w = 1#4 then .addrEncode
  else if opField w = 2#4 then .build
  else if opField w = 3#4 then (if srcField w then .parseTx else .parseRx)
  else .exchange

/-- Why bytes are no command: fewer than the four of a command word (R69: one format, one length). -/
inductive DecodeError where
  | truncated
  deriving DecidableEq, Repr

/-- Decodes the four byte lanes of a write to CMD, lowest first (20_memory.md R50), and returns the bytes left over. -/
def decodeBytes : List Byte → Except DecodeError (Instr × List Byte)
  | b0 :: b1 :: b2 :: b3 :: rest => .ok (decodeWord (le32 b0 b1 b2 b3), rest)
  | _ => .error .truncated

/-- The command word of a command (R70). -/
def encode : Instr → Word
  | .nop        => 0x00000000#32
  | .addrEncode => 0x00000001#32
  | .build      => 0x00000002#32
  | .parseRx    => 0x00000003#32
  | .parseTx    => 0x00000103#32
  | .exchange   => 0x00000004#32
  | .illegal w  => w

/-- The byte lanes of a command word as the host writes them to CMD, lowest first (20_memory.md R50). -/
def encodeBytes (i : Instr) : List Byte := bytesLe (encode i)

/-- The command word made of the table's `nbits` bits, every bit above them 0. -/
def tableWord (nbits w : Nat) : Word := BitVec.ofNat 32 (w % 2 ^ nbits)

/-- What the decoder reads from an opcode-table word laid out in byte lanes; a word of more than 32 bits is none (log 23). -/
def decodeTableWord (nbits w : Nat) : Option Instr :=
  if 32 < nbits then none
  else
    match decodeBytes (bytesLe (tableWord nbits w)) with
    | .ok (i, _) => some i
    | .error _   => none

end Sys2Proof
end

