-- ==== Sys2Proof/Machine/State.lean ====
section
/-! DEFINITION. The state of DFCT (10_state.md), its reset value (R47) and the reasons a step stops. -/

namespace Sys2Proof.Machine

/-- The states of the sequencer, STATUS.XSTATE (R44). -/
inductive XState where
  | idle
  | wakeTx
  | settle
  | frameTx
  | postWait
  | accum
  | retryWait
  | codec
  deriving DecidableEq, Repr

/-- The codes of STATUS.ERRCODE and STATUS.LAST_ERR; 12..15 are never produced (60_exceptions.md R127). -/
inductive ErrCode where
  | ok
  | invalidAddress
  | frameTooShort
  | invalidFrameMarkers
  | invalidSecondStart
  | lengthMismatch
  | checksumMismatch
  | noResponse
  | dataTooLong
  | badCommand
  | badFrameLength
  | badConfig
  deriving DecidableEq, Repr

/-- The registers of the window, in the order of their offsets (R18). -/
inductive Reg where
  | id | ctrl | cmd | status | addrLo | addrHi | ctrlcode | di | buildCfg | frameLen | rxLen | parseRes | rxDi
  | addrstrLen | timing0 | timing1 | retry | baudDiv | tickDiv
  deriving DecidableEq, Repr

/-- The byte buffers of the window (R38 to R42). -/
inductive Buf where
  | payload
  | txbuf
  | rxbuf
  | rxdata
  | addrstr
  deriving DecidableEq, Repr

/-- The buffer bytes that hold a value, as (window offset, byte) pairs in strictly rising offset order. An offset that is not
listed holds no value (R43). -/
abbrev Memory := List Host.Cell

/-- The canonical form of a memory: offsets strictly rise. An unlisted byte holds no value, so no entry can equal it. -/
abbrev Memory.wf (m : Memory) : Prop := m.Pairwise fun a b => a.1 < b.1

/-- The state of DFCT. Reserved bits read 0 and are not stored (R19); BUSY is XSTATE != 0 and is not stored (R44).
`rdata`, `inputs` and `cycle` are the model's own (log 1, log 11). -/
structure State where
  /-- CTRL.IE (R21). -/
  ctrlIe      : Bool
  /-- STATUS.DONE (R23). -/
  done        : Bool
  /-- STATUS.REJ (R23). -/
  rej         : Bool
  /-- STATUS.WERR (R23). -/
  werr        : Bool
  /-- STATUS.RX_OVF (R23). -/
  rxOvf       : Bool
  /-- STATUS.RX_PERR (R23). -/
  rxPerr      : Bool
  /-- STATUS.RX_FERR (R23). -/
  rxFerr      : Bool
  /-- STATUS.ERRCODE (R23, R127). -/
  errcode     : ErrCode
  /-- STATUS.LAST_ERR (R23, R127). -/
  lastErr     : ErrCode
  /-- STATUS.XSTATE (R44). -/
  xstate      : XState
  /-- STATUS.ATTEMPT (R23). -/
  attempt     : BitVec 4
  /-- ADDR_LO: A0 in bits [7:0] .. A3 in [31:24] (R24). -/
  addrLo      : BitVec 32
  /-- ADDR_HI[15:0]: A4 in bits [7:0], A5 in [15:8] (R24). -/
  addrHi      : BitVec 16
  /-- CTRLCODE.C (R25). -/
  ctrlcode    : BitVec 8
  /-- DI (R26). -/
  di          : BitVec 32
  /-- BUILD_CFG.HAS_DI (R27). -/
  hasDi       : Bool
  /-- BUILD_CFG.PLEN (R27). -/
  plen        : BitVec 8
  /-- FRAME_LEN.N (R28). -/
  frameLen    : BitVec 10
  /-- RX_LEN.N (R29). -/
  rxLen       : BitVec 10
  /-- PARSE_RES.RX_CTRL (R30). -/
  rxCtrl      : BitVec 8
  /-- PARSE_RES.RX_L (R30). -/
  rxL         : BitVec 8
  /-- PARSE_RES.RX_HAS_DI (R30). -/
  rxHasDi     : Bool
  /-- PARSE_RES.RX_PLEN (R30). -/
  rxPlen      : BitVec 8
  /-- RX_DI (R31). -/
  rxDi        : BitVec 32
  /-- ADDRSTR_LEN.N (R32). -/
  addrstrLen  : BitVec 4
  /-- TIMING0.T_SETTLE (R33). -/
  tSettle     : BitVec 16
  /-- TIMING0.T_POSTSEND (R33). -/
  tPostsend   : BitVec 16
  /-- TIMING1.T_INACT (R34). -/
  tInact      : BitVec 16
  /-- TIMING1.T_CEIL (R34). -/
  tCeil       : BitVec 16
  /-- RETRY.MAX_ATTEMPTS (R35). -/
  maxAttempts : BitVec 4
  /-- RETRY.T_RETRY (R35). -/
  tRetry      : BitVec 16
  /-- BAUD_DIV.B (R36). -/
  baudDiv     : BitVec 16
  /-- TICK_DIV.D (R37). -/
  tickDiv     : BitVec 32
  /-- PRESC, the tick prescaler (R45). -/
  presc       : BitVec 32
  /-- WCNT, the wait counter (R45). -/
  wcnt        : BitVec 16
  /-- ICNT, the inactivity counter (R45). -/
  icnt        : BitVec 16
  /-- CCNT, the ceiling counter (R45). -/
  ccnt        : BitVec 16
  /-- TXIDX, the character being sent (R45). -/
  txidx       : BitVec 10
  /-- TXBIT, the bit position being sent, 0 (start) .. 10 (stop) (R45). -/
  txbit       : BitVec 4
  /-- TXCYC, the cycles spent in the current bit (R45). -/
  txcyc       : BitVec 16
  /-- PEND_OP, the opcode of the command awaiting commit (R45). -/
  pendOp      : BitVec 4
  /-- PEND_SRC, the SRC bit of the pending PARSE (R45). -/
  pendSrc     : Bool
  /-- PEND_LAT, the cycles left before the commit (R45). -/
  pendLat     : Nat
  /-- The bytes of PAYLOAD, TXBUF, RXBUF, RXDATA and ADDRSTR that hold a value (R38 to R43). -/
  mem         : Memory
  /-- The read data the bus answered in the cycle just run; none if it held no read. The model's own (log 11). -/
  rdata       : Option (BitVec 32)
  /-- The choices of the outside in the coming cycles, the next first. The model's own (log 1). -/
  inputs      : List CycleInput
  /-- The number of cycles run, which picks the free choice once `inputs` is used up. The model's own (log 1). -/
  cycle       : Nat
  deriving DecidableEq, Repr

/-- Why a step stops. Error codes are no stops: they complete a command (R134). -/
inductive Fault where
  /-- Raised by the host access of a cycle that answers with the bus error response (R51 to R54). DFCT does not change; the
  host has no defined continuation. Safe. -/
  | busError (off : BitVec 11)
  /-- Raised by a host read or a command that reads a buffer byte never written since power-on, at this window offset (R43).
  The hardware returns some byte. Safe. -/
  | absentByte (addr : Nat)
  deriving DecidableEq, Repr

/-- Why an instruction is refused. -/
inductive Refusal where
  /-- The dispatch has no meaning for the instruction yet. No arm raises it. Safe. -/
  | notModelled (mnemonic : String)
  deriving DecidableEq, Repr

/-- The state right after reset, with no buffer byte listed (R18, R47, 70_reset_and_hazards.md R143, R145). -/
def State.reset : State where
  ctrlIe      := false
  done        := false
  rej         := false
  werr        := false
  rxOvf       := false
  rxPerr      := false
  rxFerr      := false
  errcode     := .ok
  lastErr     := .ok
  xstate      := .idle
  attempt     := 0#4
  addrLo      := 0#32
  addrHi      := 0#16
  ctrlcode    := 0x11#8
  di          := 0#32
  hasDi       := true
  plen        := 0#8
  frameLen    := 0#10
  rxLen       := 0#10
  rxCtrl      := 0#8
  rxL         := 0#8
  rxHasDi     := false
  rxPlen      := 0#8
  rxDi        := 0#32
  addrstrLen  := 0#4
  tSettle     := 100#16
  tPostsend   := 0#16
  tInact      := 200#16
  tCeil       := 2000#16
  maxAttempts := 3#4
  tRetry      := 500#16
  baudDiv     := Config.baudDivReset
  tickDiv     := Config.tickDivReset
  presc       := 0#32
  wcnt        := 0#16
  icnt        := 0#16
  ccnt        := 0#16
  txidx       := 0#10
  txbit       := 0#4
  txcyc       := 0#16
  pendOp      := 0#4
  pendSrc     := false
  pendLat     := 0
  mem         := []
  rdata       := none
  inputs      := []
  cycle       := 0

end Sys2Proof.Machine
end

