-- ==== Sys2Proof/Machine/Ops.lean ====
section
/-! DEFINITION. The shared operations: sequencing of effects, buffer bytes, the completion of a command (DFCT's one
"exception entry", 60_exceptions.md R134) and its acknowledgement (the return, R135). -/

namespace Sys2Proof.Machine

/-- What an effect answers: a next state, a fault or a refusal. -/
abbrev Result := Host.Outcome State Fault Refusal

/-- Runs `k` on the next state of `r`; a stop stays a stop. -/
def thenDo (r : Result) (k : State → Result) : Result :=
  match r with
  | .next s    => k s
  | .fault f   => .fault f
  | .refused f => .refused f

/-- Runs `k` on the value of a read; a read that faults stops the effect. -/
def readThen {α : Type} (r : Except Fault α) (k : α → Result) : Result :=
  match r with
  | .ok a    => k a
  | .error f => .fault f

/-- The window offset of a buffer's byte 0 (10_state.md R18). -/
def Buf.base : Buf → Nat
  | .payload => 0x100
  | .txbuf   => 0x200
  | .rxbuf   => 0x400
  | .rxdata  => 0x600
  | .addrstr => 0x700

/-- The number of bytes of a buffer (00_scope.md R8, 10_state.md R18). -/
def Buf.size : Buf → Nat
  | .payload => 256
  | .txbuf   => 512
  | .rxbuf   => 512
  | .rxdata  => 256
  | .addrstr => 16

/-- The byte at a window offset; none where nothing has written it (R43). -/
def Memory.get : Memory → Nat → Option Byte
  | [], _ => none
  | (a, b) :: m, k => if a = k then some b else Memory.get m k

/-- Writes one byte, keeping the offsets in rising order. -/
def Memory.set : Memory → Nat → Byte → Memory
  | [], k, v => [(k, v)]
  | (a, b) :: m, k, v =>
    if k < a then (k, v) :: (a, b) :: m
    else if a = k then (k, v) :: m
    else (a, b) :: Memory.set m k v

/-- Writes consecutive bytes from offset `k` on, the first at `k`. -/
def Memory.setBytes : Memory → Nat → List Byte → Memory
  | m, _, [] => m
  | m, k, v :: vs => Memory.setBytes (Memory.set m k v) (k + 1) vs

/-- Reads one byte of the window; a byte that holds no value faults (R43). -/
def Memory.read (m : Memory) (k : Nat) : Except Fault Byte :=
  match m.get k with
  | some b => .ok b
  | none   => .error (.absentByte k)

/-- Reads `n` bytes through `rd` from index `k` on, in rising order; the first that faults stops the read. -/
def readRange (rd : Nat → Except Fault Byte) : Nat → Nat → Except Fault (List Byte)
  | _, 0 => .ok []
  | k, n + 1 => (rd k).bind fun b => (readRange rd (k + 1) n).bind fun bs => .ok (b :: bs)

/-- `BUF[i]` of 00_scope.md R14. An index past the buffer's end has no byte (log 19). -/
def State.bufByte (s : State) (b : Buf) (i : Nat) : Except Fault Byte :=
  if i < b.size then s.mem.read (b.base + i) else .error (.absentByte (b.base + i))

/-- `BUF[i] <- v`. -/
def State.setBufByte (s : State) (b : Buf) (i : Nat) (v : Byte) : State :=
  { s with mem := s.mem.set (b.base + i) v }

/-- `BUF[0..len(vs)) <- vs`. -/
def State.setBuf (s : State) (b : Buf) (vs : List Byte) : State :=
  { s with mem := s.mem.setBytes b.base vs }

/-- STATUS.BUSY = (XSTATE != 0) (10_state.md R44). -/
def State.busy (s : State) : Bool := s.xstate != .idle

/-- The bus answer of a cycle: the read data, or none if it held no read (log 11). -/
def State.answer (s : State) (d : Option Word) : State := { s with rdata := d }

/-- `complete(E)`: the only way a command ends (40_commands.md R90, 60_exceptions.md R134). -/
def State.complete (s : State) (e : ErrCode) : State :=
  { s with errcode := e, done := true, xstate := .idle, pendOp := 0#4, pendLat := 0 }

/-- The host's acknowledgement of a completion, a 1 written to STATUS.DONE (60_exceptions.md R135). -/
def State.acknowledge (s : State) : State := { s with done := false }

/-- What acceptance of any command clears: the previous completion's DONE and ERRCODE (40_commands.md R85, R135). -/
def State.acceptClear (s : State) : State := { s with done := false, errcode := .ok }

/-- A cycle in which RST_N is 0: every register field and hidden state takes its reset value; the buffers keep their bytes
(70_reset_and_hazards.md R143). The choices of the outside go on. -/
def State.resetCycle (s : State) : State :=
  { State.reset with mem := s.mem, inputs := s.inputs, cycle := s.cycle }

end Sys2Proof.Machine
end

