-- ==== Sys2Proof/Machine/Functions.lean ====
section
/-! DEFINITION. The pure functions of the codec and the transceiver, the only arithmetic of DFCT (40_commands.md R92 to R96),
the frame (30_encoding.md R73 to R76) and the parse function (41_codec.md R99). -/

namespace Sys2Proof.Machine

/-- `mask(b) = (b + 0x33) mod 256` (R92). -/
def mask (b : Byte) : Byte := b + 0x33#8

/-- `unmask(b) = (b - 0x33) mod 256` (R92). -/
def unmask (b : Byte) : Byte := b - 0x33#8

/-- `checksum(s)`: the sum of the bytes in unbounded integers, reduced once modulo 256 (R93). -/
def checksum (bs : List Byte) : Byte := BitVec.ofNat 8 (bs.map BitVec.toNat).sum

/-- `is_hex(c)`: '0'..'9', 'A'..'F' or 'a'..'f' (R94). -/
def isHex (c : Byte) : Bool :=
  (decide (0x30 ≤ c.toNat) && decide (c.toNat ≤ 0x39)) || (decide (0x41 ≤ c.toNat) && decide (c.toNat ≤ 0x46))
    || (decide (0x61 ≤ c.toNat) && decide (c.toNat ≤ 0x66))

/-- `hexval(c)`, applied only where `isHex c` (R94). -/
def hexVal (c : Byte) : Nat :=
  if c.toNat ≤ 0x39 then c.toNat - 0x30 else if c.toNat ≤ 0x46 then c.toNat - 0x37 else c.toNat - 0x57

/-- The increment of the 16-bit counters, saturating at 0xFFFF (R96). -/
def sat16 (n : BitVec 16) : BitVec 16 := if n = 0xFFFF#16 then n else n + 1#16

/-- The two-character pairs of a digit string in their order, each a byte 16 * hexval + hexval (30_encoding.md R76). -/
def digitPairs : List Byte → List Byte
  | hi :: lo :: cs => BitVec.ofNat 8 (16 * hexVal hi + hexVal lo) :: digitPairs cs
  | _ => []

/-- The wire address of a 12-character string: its pairs reversed (30_encoding.md R76). -/
def wireAddress (cs : List Byte) : List Byte := (digitPairs cs).reverse

/-- The frame `68 A0..A5 68 C L DATA CS 16` of an unmasked data field, masked on the wire; the checksum covers the bytes
before it, with the data masked (30_encoding.md R73 to R75, 41_codec.md R98 steps 1 to 10). -/
def frameOf (addr : List Byte) (c : Byte) (data : List Byte) : List Byte :=
  let body := [0x68#8] ++ addr ++ [0x68#8] ++ [c] ++ [BitVec.ofNat 8 data.length] ++ data.map mask
  body ++ [checksum body] ++ [0x16#8]

/-- The outcome of a parse (41_codec.md R99). -/
inductive ParseOutcome where
  | ok (c l : Byte) (hasDi : Bool) (di : Word) (payload : List Byte)
  | fail (e : ErrCode)
  deriving DecidableEq, Repr

/-- The data field split: an identifier from its first four bytes if it has them, the rest payload (R99). -/
def parsedData (c l : Byte) : List Byte → ParseOutcome
  | d0 :: d1 :: d2 :: d3 :: p => .ok c l true (le32 d0 d1 d2 d3) p
  | p => .ok c l false 0#32 p

/-- `parse(buf, n)`: the checks in their order, the first failure returned; only the bytes the checks reach are read, in the
order written (R99). Byte n - 1 is read only if byte 0 is the start marker (log 7). -/
def parse (rd : Nat → Except Fault Byte) (n : Nat) : Except Fault ParseOutcome :=
  if n < 12 then .ok (.fail .frameTooShort)
  else
    (rd 0).bind fun b0 =>
    if b0 ≠ 0x68#8 then .ok (.fail .invalidFrameMarkers)
    else
      (rd (n - 1)).bind fun bEnd =>
      if bEnd ≠ 0x16#8 then .ok (.fail .invalidFrameMarkers)
      else
        (rd 7).bind fun b7 =>
        if b7 ≠ 0x68#8 then .ok (.fail .invalidSecondStart)
        else
          (rd 9).bind fun l =>
          if l.toNat ≠ n - 12 then .ok (.fail .lengthMismatch)
          else
            (readRange rd 0 (10 + l.toNat)).bind fun body =>
            (rd (10 + l.toNat)).bind fun cs =>
            if checksum body ≠ cs then .ok (.fail .checksumMismatch)
            else (rd 8).bind fun c => .ok (parsedData c l ((body.drop 10).map unmask))

end Sys2Proof.Machine
end

