-- ==== Sys2Proof/Machine/Flags.lean ====
section
/-! DEFINITION. The encodings of STATUS and its fields, and the host's write of STATUS (10_state.md R23, R44,
60_exceptions.md R127). DFCT computes no other flags (40_commands.md R96). -/

namespace Sys2Proof.Machine

/-- The 3-bit code of a sequencer state (R44). -/
def XState.code : XState → BitVec 3
  | .idle      => 0#3
  | .wakeTx    => 1#3
  | .settle    => 2#3
  | .frameTx   => 3#3
  | .postWait  => 4#3
  | .accum     => 5#3
  | .retryWait => 6#3
  | .codec     => 7#3

/-- The 4-bit code of an error (R127). -/
def ErrCode.code : ErrCode → BitVec 4
  | .ok                  => 0#4
  | .invalidAddress      => 1#4
  | .frameTooShort       => 2#4
  | .invalidFrameMarkers => 3#4
  | .invalidSecondStart  => 4#4
  | .lengthMismatch      => 5#4
  | .checksumMismatch    => 6#4
  | .noResponse          => 7#4
  | .dataTooLong         => 8#4
  | .badCommand          => 9#4
  | .badFrameLength      => 10#4
  | .badConfig           => 11#4

/-- STATUS as the host reads it, from bit 31 down to bit 0 (R23). -/
def State.statusWord (s : State) : Word :=
  0#8 ++ s.attempt ++ 0#1 ++ s.xstate.code ++ s.lastErr.code ++ s.errcode.code ++ 0#1 ++ BitVec.ofBool s.rxFerr
    ++ BitVec.ofBool s.rxPerr ++ BitVec.ofBool s.rxOvf ++ BitVec.ofBool s.werr ++ BitVec.ofBool s.rej
    ++ BitVec.ofBool s.done ++ BitVec.ofBool s.busy

/-- A write of STATUS: a 1 clears its W1C bit, a 0 leaves it; the other fields are read-only (R23). The 1 written to DONE is
the acknowledgement (R135). -/
def State.writeStatus (s : State) (w : Word) : State :=
  { (if w.getLsbD 1 then s.acknowledge else s) with
    rej    := s.rej && !w.getLsbD 2
    werr   := s.werr && !w.getLsbD 3
    rxOvf  := s.rxOvf && !w.getLsbD 4
    rxPerr := s.rxPerr && !w.getLsbD 5
    rxFerr := s.rxFerr && !w.getLsbD 6 }

end Sys2Proof.Machine
end

