-- ==== Sys2Proof/Machine/Operands.lean ====
section
/-! DEFINITION. The operand forms: the registers as words (10_state.md R18 to R37), the fields a write reaches, and the
operands the commands read from registers and buffers (30_encoding.md R72). -/

namespace Sys2Proof.Machine

/-- The register at a multiple of 4 below 0x04C (R18). -/
def Reg.ofIndex : Nat → Option Reg
  | 0  => some .id
  | 1  => some .ctrl
  | 2  => some .cmd
  | 3  => some .status
  | 4  => some .addrLo
  | 5  => some .addrHi
  | 6  => some .ctrlcode
  | 7  => some .di
  | 8  => some .buildCfg
  | 9  => some .frameLen
  | 10 => some .rxLen
  | 11 => some .parseRes
  | 12 => some .rxDi
  | 13 => some .addrstrLen
  | 14 => some .timing0
  | 15 => some .timing1
  | 16 => some .retry
  | 17 => some .baudDiv
  | 18 => some .tickDiv
  | _  => none

/-- The registers a host write never changes and never counts as lost: ID, PARSE_RES, RX_DI (R18, R19, R48). -/
def Reg.readOnly : Reg → Bool
  | .id       => true
  | .parseRes => true
  | .rxDi     => true
  | _         => false

/-- A register as the host reads it; reserved bits read 0 (R19 to R37). -/
def State.readReg (s : State) : Reg → Word
  | .id         => 0x06452007#32
  | .ctrl       => (BitVec.ofBool s.ctrlIe).setWidth 32
  | .cmd        => 0#32
  | .status     => s.statusWord
  | .addrLo     => s.addrLo
  | .addrHi     => s.addrHi.setWidth 32
  | .ctrlcode   => s.ctrlcode.setWidth 32
  | .di         => s.di
  | .buildCfg   => 0#16 ++ s.plen ++ 0#7 ++ BitVec.ofBool s.hasDi
  | .frameLen   => s.frameLen.setWidth 32
  | .rxLen      => s.rxLen.setWidth 32
  | .parseRes   => s.rxPlen ++ 0#7 ++ BitVec.ofBool s.rxHasDi ++ s.rxL ++ s.rxCtrl
  | .rxDi       => s.rxDi
  | .addrstrLen => s.addrstrLen.setWidth 32
  | .timing0    => s.tPostsend ++ s.tSettle
  | .timing1    => s.tCeil ++ s.tInact
  | .retry      => s.tRetry ++ 0#12 ++ s.maxAttempts
  | .baudDiv    => s.baudDiv.setWidth 32
  | .tickDiv    => s.tickDiv

/-- A host write that is not ignored, to a register other than CMD: each writable field takes its bits, a write of TICK_DIV
also clears PRESC, and read-only registers ignore it (R19 to R37, 20_memory.md R56). CMD holds no state (R22). -/
def State.writeReg (s : State) (w : Word) : Reg → State
  | .id         => s
  | .ctrl       => { s with ctrlIe := w.getLsbD 0 }
  | .cmd        => s
  | .status     => s.writeStatus w
  | .addrLo     => { s with addrLo := w }
  | .addrHi     => { s with addrHi := w.extractLsb' 0 16 }
  | .ctrlcode   => { s with ctrlcode := w.extractLsb' 0 8 }
  | .di         => { s with di := w }
  | .buildCfg   => { s with hasDi := w.getLsbD 0, plen := w.extractLsb' 8 8 }
  | .frameLen   => { s with frameLen := w.extractLsb' 0 10 }
  | .rxLen      => { s with rxLen := w.extractLsb' 0 10 }
  | .parseRes   => s
  | .rxDi       => s
  | .addrstrLen => { s with addrstrLen := w.extractLsb' 0 4 }
  | .timing0    => { s with tSettle := w.extractLsb' 0 16, tPostsend := w.extractLsb' 16 16 }
  | .timing1    => { s with tInact := w.extractLsb' 0 16, tCeil := w.extractLsb' 16 16 }
  | .retry      => { s with maxAttempts := w.extractLsb' 0 4, tRetry := w.extractLsb' 16 16 }
  | .baudDiv    => { s with baudDiv := w.extractLsb' 0 16 }
  | .tickDiv    => { s with tickDiv := w, presc := 0#32 }

/-- Bytes 0 to n - 1 of a buffer, read in rising order; a byte that holds no value faults (R43). -/
def State.bufPrefix (s : State) (b : Buf) (n : Nat) : Except Fault (List Byte) := readRange (s.bufByte b) 0 n

/-- The address bytes A0..A5 in the order they are sent (R24). -/
def State.addrBytes (s : State) : List Byte :=
  bytesLe s.addrLo ++ [s.addrHi.extractLsb' 0 8, s.addrHi.extractLsb' 8 8]

/-- L, the length of the data field BUILD makes: 4 * HAS_DI + PLEN (41_codec.md R98). -/
def State.buildLen (s : State) : Nat := (if s.hasDi then 4 else 0) + s.plen.toNat

/-- The identifier bytes of the data field BUILD makes: bytes_le(DI) if HAS_DI is 1 (41_codec.md R98). -/
def State.diBytes (s : State) : List Byte := if s.hasDi then bytesLe s.di else []

end Sys2Proof.Machine
end

