-- ==== Sys2Proof/Machine/Codec.lean ====
section
/-! DEFINITION. The meanings of NOP, ADDR_ENCODE, BUILD, PARSE RX, PARSE TX and of an illegal command word. A codec command's
meaning is its command rule at the commit (40_commands.md R89); an illegal word's is its completion at acceptance (R87). -/

namespace Sys2Proof.Machine

/-- NOP: at commit, complete(OK) (40_commands.md R91). -/
def execNop (s : State) : Result := .next (s.complete .ok)

/-- An accepted illegal command word completes with BadCommand and has no other effect (40_commands.md R87). -/
def execIllegal (_w : Word) (s : State) : Result := .next (s.complete .badCommand)

/-- ADDR_ENCODE once its characters are read: the string is left-padded with '0' to 12, every character must be a hex digit,
and the reversed pairs go to ADDR_LO and ADDR_HI (41_codec.md R97). -/
def State.encodeAddress (s : State) (cs : List Byte) : State :=
  let padded := List.replicate (12 - cs.length) 0x30#8 ++ cs
  if padded.all isHex then
    let a := wireAddress padded
    { s with
      addrLo := le32 (a.getD 0 0) (a.getD 1 0) (a.getD 2 0) (a.getD 3 0)
      addrHi := a.getD 5 0 ++ a.getD 4 0 }.complete .ok
  else s.complete .invalidAddress

/-- ADDR_ENCODE (41_codec.md R97). -/
def execAddrEncode (s : State) : Result :=
  if 12 < s.addrstrLen.toNat then .next (s.complete .invalidAddress)
  else readThen (s.bufPrefix .addrstr s.addrstrLen.toNat) fun cs => .next (s.encodeAddress cs)

/-- BUILD (41_codec.md R98). -/
def execBuild (s : State) : Result :=
  if 255 < s.buildLen then .next (s.complete .dataTooLong)
  else
    readThen (s.bufPrefix .payload s.plen.toNat) fun p =>
      let frame := frameOf s.addrBytes s.ctrlcode (s.diBytes ++ p)
      .next (({ s.setBuf .txbuf frame with frameLen := BitVec.ofNat 10 (12 + s.buildLen) } : State).complete .ok)

/-- Clears the parse results (41_codec.md R100, 42_transceiver.md R116); RXDATA keeps its bytes. -/
def State.clearParse (s : State) : State :=
  { s with rxCtrl := 0#8, rxL := 0#8, rxHasDi := false, rxPlen := 0#8, rxDi := 0#32 }

/-- Applies a parse outcome to PARSE_RES, RX_DI and RXDATA (41_codec.md R100). -/
def State.applyParse (s : State) : ParseOutcome → State
  | .ok c l hasDi di p =>
    { s.setBuf .rxdata p with
      rxCtrl := c, rxL := l, rxHasDi := hasDi, rxPlen := BitVec.ofNat 8 p.length, rxDi := di }
  | .fail _ => s.clearParse

/-- The code a parse outcome completes with (41_codec.md R101). -/
def ParseOutcome.errCode : ParseOutcome → ErrCode
  | .ok .. => .ok
  | .fail e => e

/-- PARSE of the first `n` bytes of a buffer (41_codec.md R101). -/
def State.parseBuf (s : State) (b : Buf) (n : Nat) : Result :=
  if 512 < n then .next (s.complete .badFrameLength)
  else readThen (parse (s.bufByte b) n) fun r => .next ((s.applyParse r).complete r.errCode)

/-- PARSE with SRC = 0: RXBUF[0..RX_LEN) (41_codec.md R101). -/
def execParseRx (s : State) : Result := s.parseBuf .rxbuf s.rxLen.toNat

/-- PARSE with SRC = 1: TXBUF[0..FRAME_LEN) (41_codec.md R101). -/
def execParseTx (s : State) : Result := s.parseBuf .txbuf s.frameLen.toNat

end Sys2Proof.Machine
end

