-- ==== Sys2Proof/Machine/Ports.lean ====
section
/-! DEFINITION. The output ports, functions of the state at the start of a cycle: IRQ (60_exceptions.md R133), UART_DE and
UART_TXD (42_transceiver.md R120, R121), and the character on the line (30_encoding.md R81). -/

namespace Sys2Proof.Machine

/-- The even-parity bit of a byte: the xor of its bits (R81). -/
def parityBit (b : Byte) : Bool :=
  b.getLsbD 0 ^^ b.getLsbD 1 ^^ b.getLsbD 2 ^^ b.getLsbD 3 ^^ b.getLsbD 4 ^^ b.getLsbD 5 ^^ b.getLsbD 6 ^^ b.getLsbD 7

/-- The bit at a position of a character: 0 start, 1..8 data from the least significant, 9 parity, 10 stop (R81). -/
def charBit (b : Byte) (pos : Nat) : Bool :=
  if pos = 0 then false
  else if pos ≤ 8 then b.getLsbD (pos - 1)
  else if pos = 9 then parityBit b
  else true

/-- The baud rate F_CLK_HZ / B in bits per second (10_state.md R36); B = 0 gives none and is rejected by EXCHANGE. No rule of the
step depends on it. -/
def State.baudRate (s : State) : Option ℚ :=
  if s.baudDiv = 0#16 then none else some ((Config.fClkHz : ℚ) / (s.baudDiv.toNat : ℚ))

/-- IRQ = CTRL.IE and STATUS.DONE (R133). -/
def State.irq (s : State) : Bool := s.ctrlIe && s.done

/-- The transmitter runs in WAKE_TX and FRAME_TX only (R120, R121). -/
def XState.transmitting : XState → Bool
  | .wakeTx  => true
  | .frameTx => true
  | _        => false

/-- The receiver is enabled in SETTLE, POST_WAIT and ACCUM only (42_transceiver.md R123). -/
def XState.receiving : XState → Bool
  | .settle   => true
  | .postWait => true
  | .accum    => true
  | _         => false

/-- UART_DE (R121). -/
def State.uartDe (s : State) : Bool := s.xstate.transmitting

/-- byte(TXIDX) of R120: the preamble's 0xFE in WAKE_TX, TXBUF[TXIDX] otherwise (R110, R112). -/
def State.txByte (s : State) : Except Fault Byte :=
  if s.xstate = .wakeTx then .ok 0xFE#8 else s.bufByte .txbuf s.txidx.toNat

/-- UART_TXD: bit TXBIT of the character being sent, 1 in every other state (R120). A TXBUF byte that holds no value gives no
level (R43, log 8). -/
def State.uartTxd (s : State) : Except Fault Bool :=
  if s.xstate.transmitting then s.txByte.map fun b => charBit b s.txbit.toNat else .ok true

end Sys2Proof.Machine
end

