-- ==== Sys2Proof/Machine/Transceiver.lean ====
section
/-! DEFINITION. The transceiver: EXCHANGE at acceptance, the time base, the receiver, the transmitter and the attempt state
machine (42_transceiver.md R106 to R124). -/

namespace Sys2Proof.Machine

/-- `start_attempt()` (R109). -/
def State.startAttempt (s : State) : State :=
  { s with
    attempt := s.attempt + 1#4, rxLen := 0#10, txidx := 0#10, txbit := 0#4, txcyc := 0#16, xstate := .wakeTx }

/-- What EXCHANGE clears before its first attempt (R108). -/
def State.clearExchange (s : State) : State :=
  { s with rxOvf := false, rxPerr := false, rxFerr := false, lastErr := .ok, attempt := 0#4 }

/-- EXCHANGE at acceptance, `exchange_start` (R108). The state machine then runs in `fsmPhase`. -/
def execExchange (s : State) : Result :=
  if s.frameLen = 0#10 ∨ 512 < s.frameLen.toNat then .next (s.complete .badFrameLength)
  else if s.baudDiv = 0#16 ∨ s.maxAttempts = 0#4 then .next (s.complete .badConfig)
  else .next s.clearExchange.startAttempt

/-- The tick strobe of a cycle: PRESC has reached TICK_DIV (R106). -/
def State.tick (s : State) : Bool := s.presc == s.tickDiv

/-- Step (5): the prescaler counts every cycle, whatever the state (R106). -/
def State.tickPhase (s : State) : State := { s with presc := if s.tick then 0#32 else s.presc + 1#32 }

/-- Whether the receiver takes a character in this cycle; `x0` is XSTATE at the start of the cycle (R123, R124). -/
def arrived (x0 : XState) (rx : Option RxChar) : Bool := x0.receiving && rx.isSome

/-- A taken character: stored if RXBUF has room, else RX_OVF; its parity and framing errors are recorded (R124). -/
def State.takeChar (s : State) (c : RxChar) : State :=
  let t :=
    if s.rxLen.toNat < 512 then { s.setBufByte .rxbuf s.rxLen.toNat c.data with rxLen := s.rxLen + 1#10 }
    else { s with rxOvf := true }
  { t with rxPerr := t.rxPerr || c.perr, rxFerr := t.rxFerr || c.ferr }

/-- Step (4): the received character is taken in a receiving state and discarded with no effect otherwise (R123). -/
def State.rxPhase (s : State) (x0 : XState) : Option RxChar → State
  | some c => if x0.receiving then s.takeChar c else s
  | none   => s

/-- The wait count after this cycle's tick (R111, R113, R117). -/
def waitCount (tick : Bool) (n : BitVec 16) : BitVec 16 := if tick then sat16 n else n

/-- One cycle of the transmitter with last index `last`; `atEnd` is the state's end transition (R120). -/
def State.txAdvance (s : State) (last : Nat) (atEnd : State → State) : State :=
  if s.txcyc.toNat + 1 < s.baudDiv.toNat then { s with txcyc := s.txcyc + 1#16 }
  else if s.txbit.toNat < 10 then { s with txcyc := 0#16, txbit := s.txbit + 1#4 }
  else if s.txidx.toNat < last then { s with txcyc := 0#16, txbit := 0#4, txidx := s.txidx + 1#10 }
  else atEnd { s with txcyc := 0#16, txbit := 0#4, txidx := 0#10 }

/-- `attempt_failed(E)` (R116). -/
def State.attemptFailed (s : State) (e : ErrCode) : State :=
  let t := { s with lastErr := e }
  if t.attempt.toNat < t.maxAttempts.toNat then { t with wcnt := 0#16, xstate := .retryWait }
  else t.clearParse.complete .noResponse

/-- `check_response()` once the parse is done: success ends the EXCHANGE, a failure ends the attempt (R115). -/
def State.respond (s : State) : ParseOutcome → State
  | .ok c l hasDi di p => (s.applyParse (.ok c l hasDi di p)).complete .ok
  | .fail e => s.attemptFailed e

/-- SETTLE (R111). -/
def State.settleStep (s : State) (tick : Bool) : State :=
  let n := waitCount tick s.wcnt
  if s.tSettle.toNat ≤ n.toNat then
    { s with wcnt := n, txidx := 0#10, txbit := 0#4, txcyc := 0#16, xstate := .frameTx }
  else { s with wcnt := n }

/-- POST_WAIT (R113). -/
def State.postWaitStep (s : State) (tick : Bool) : State :=
  let n := waitCount tick s.wcnt
  if s.tPostsend.toNat ≤ n.toNat then { s with wcnt := n, icnt := 0#16, ccnt := 0#16, xstate := .accum }
  else { s with wcnt := n }

/-- RETRY_WAIT (R117). -/
def State.retryWaitStep (s : State) (tick : Bool) : State :=
  let n := waitCount tick s.wcnt
  if s.tRetry.toNat ≤ n.toNat then { s with wcnt := n }.startAttempt else { s with wcnt := n }

/-- The two counters of ACCUM after this cycle: an arrival clears ICNT, a tick counts (R114). -/
def State.accumCount (s : State) (arr tick : Bool) : State :=
  { s with
    icnt := if arr then 0#16 else waitCount tick s.icnt
    ccnt := waitCount tick s.ccnt }

/-- ACCUM (R114). -/
def State.accumStep (s : State) (arr tick : Bool) : Result :=
  let t := s.accumCount arr tick
  if t.rxLen ≠ 0#10 ∧ t.tInact.toNat ≤ t.icnt.toNat then
    readThen (parse (t.bufByte .rxbuf) t.rxLen.toNat) fun r => .next (t.respond r)
  else if t.rxLen = 0#10 ∧ t.tCeil.toNat ≤ t.ccnt.toNat then .next (t.attemptFailed .noResponse)
  else .next t

/-- Step (6): the transceiver acts on XSTATE as it was at the start of the cycle, `x0` (R107, R118). `arr` and `tick` are this
cycle's arrival and tick. -/
def State.fsmPhase (s : State) (x0 : XState) (arr tick : Bool) : Result :=
  match x0 with
  | .idle      => .next s
  | .codec     => .next s
  | .wakeTx    => .next (s.txAdvance 3 fun t => { t with wcnt := 0#16, xstate := .settle })
  | .settle    => .next (s.settleStep tick)
  | .frameTx   =>
    readThen (s.bufByte .txbuf s.txidx.toNat) fun _ =>
      .next (s.txAdvance (s.frameLen.toNat - 1) fun t => { t with wcnt := 0#16, xstate := .postWait })
  | .postWait  => .next (s.postWaitStep tick)
  | .accum     => s.accumStep arr tick
  | .retryWait => .next (s.retryWaitStep tick)

end Sys2Proof.Machine
end

