-- ==== Sys2Proof/Machine/Dispatch.lean ====
section
/-! DEFINITION. One meaning per command. -/

namespace Sys2Proof.Machine

def exec (i : Instr) (s : State) : Host.Outcome State Fault Refusal :=
  match i with
  | .nop => Sys2Proof.Machine.execNop s
  | .addrEncode => Sys2Proof.Machine.execAddrEncode s
  | .build => Sys2Proof.Machine.execBuild s
  | .parseRx => Sys2Proof.Machine.execParseRx s
  | .parseTx => Sys2Proof.Machine.execParseTx s
  | .exchange => Sys2Proof.Machine.execExchange s
  | .illegal w => Sys2Proof.Machine.execIllegal w s

end Sys2Proof.Machine
end

