-- ==== Sys2Proof/Machine/Bus.lean ====
section
/-! DEFINITION. The host's access of a cycle: what it addresses, reads, writes, and the dispatch of a command written to CMD
(20_memory.md R49 to R57, 10_state.md R48, 40_commands.md R85 to R88). -/

namespace Sys2Proof.Machine

/-- What an access addresses: a register, or a byte of a buffer at its window offset. -/
inductive Target where
  | reg (r : Reg)
  | buf (b : Buf) (addr : Nat)
  deriving DecidableEq, Repr

/-- The number of bytes of an access (R49). -/
def sizeBytes : Size → Nat
  | .one  => 1
  | .two  => 2
  | .four => 4

/-- The host bus address of a window offset: the window stands at BLOCK_BASE (00_scope.md R9, 10_state.md R18). -/
def hostAddress (off : BitVec 11) : Nat := Config.blockBase + off.toNat

/-- The buffer a window offset lies in; none for the register region and the reserved offsets (10_state.md R18). -/
def bufAt (off : Nat) : Option Buf :=
  if off < 0x100 then none
  else if off < 0x200 then some .payload
  else if off < 0x400 then some .txbuf
  else if off < 0x600 then some .rxbuf
  else if off < 0x700 then some .rxdata
  else if off < 0x710 then some .addrstr
  else none

/-- What an access of `size` bytes at `off` addresses; none is a bus error: in the register region any form but 4 bytes at a
multiple of 4 (R51), in a buffer a misaligned access (R52), and any access to a reserved offset (R53). -/
def target (off : BitVec 11) (size : Size) : Option Target :=
  if off.toNat < 0x4C then
    if size = .four ∧ off.toNat % 4 = 0 then (Reg.ofIndex (off.toNat / 4)).map .reg else none
  else
    match bufAt off.toNat with
    | none   => none
    | some b => if off.toNat % sizeBytes size = 0 then some (.buf b off.toNat) else none

/-- The word of the byte lanes of an access, the lowest first; lanes above them are 0 (R50). -/
def laneWord (bs : List Byte) : Word := le32 (bs.getD 0 0) (bs.getD 1 0) (bs.getD 2 0) (bs.getD 3 0)

/-- A host read: a register, or buffer bytes assembled little-endian; no state changes but the bus answer (R50, R55). -/
def State.hostRead (s : State) (off : BitVec 11) (size : Size) : Result :=
  match target off size with
  | none => .fault (.busError off)
  | some (.reg r) => .next (s.answer (some (s.readReg r)))
  | some (.buf _ a) =>
    readThen (readRange s.mem.read a (sizeBytes size)) fun bs => .next (s.answer (some (laneWord bs)))

/-- The commands of the codec engine, which commit after a drawn latency (40_commands.md R85, R88). -/
def isCodec : Instr → Bool
  | .nop        => true
  | .addrEncode => true
  | .build      => true
  | .parseRx    => true
  | .parseTx    => true
  | .exchange   => false
  | .illegal _  => false

/-- The drawn latency, one of 0..P_CODEC_MAX_LAT: a larger draw is taken as the bound (40_commands.md R88, log 5). -/
def drawnLatency : Nat → Nat → Nat
  | 0, _ => 0
  | n + 1, bound => min (n + 1) bound

/-- `codec_start(w)` (40_commands.md R88). -/
def State.codecStart (s : State) (w : Word) (lat : Nat) : State :=
  { s with pendOp := opField w, pendSrc := srcField w, pendLat := lat, xstate := .codec }

/-- Acceptance of a command word: DONE and ERRCODE are cleared; a codec command starts its latency, EXCHANGE and illegal words
act at once (40_commands.md R85). -/
def State.accept (s : State) (w : Word) (latDraw : Nat) : Result :=
  if isCodec (decodeWord w) then .next (s.acceptClear.codecStart w (drawnLatency latDraw Config.codecMaxLat))
  else exec (decodeWord w) s.acceptClear

/-- A write of a command word to CMD: accepted if BUSY is 0 at the start of the cycle, else only REJ is set (R85, R86). -/
def State.writeCmd (s : State) (w : Word) (latDraw : Nat) : Result :=
  if s.busy then .next { s with rej := true } else s.accept w latDraw

/-- A host write to a register other than CMD: while BUSY only CTRL and STATUS take it, the read-only registers ignore it, and
for any other it sets WERR (10_state.md R48). -/
def State.hostWriteReg (s : State) (w : Word) (r : Reg) : State :=
  if s.busy && r != .ctrl && r != .status then
    if r.readOnly then s else { s with werr := true }
  else s.writeReg w r

/-- A host write to a buffer: while BUSY it is ignored and sets WERR (10_state.md R48, log 9), RXDATA ignores it
(20_memory.md R56), else the low lanes are stored from the offset on (R50). -/
def State.hostWriteBuf (s : State) (b : Buf) (addr : Nat) (size : Size) (w : Word) : State :=
  if s.busy then { s with werr := true }
  else if b = .rxdata then s
  else { s with mem := s.mem.setBytes addr ((bytesLe w).take (sizeBytes size)) }

/-- A host write (20_memory.md R56). -/
def State.hostWrite (s : State) (off : BitVec 11) (size : Size) (w : Word) (latDraw : Nat) : Result :=
  match target off size with
  | none => .fault (.busError off)
  | some (.reg .cmd) => s.writeCmd w latDraw
  | some (.reg r) => .next (s.hostWriteReg w r)
  | some (.buf b a) => .next (s.hostWriteBuf b a size w)

/-- Step (2): the host access of the cycle; a cycle without a read answers no read data (log 11). -/
def State.hostPhase (s : State) (access : Option Access) (latDraw : Nat) : Result :=
  match access with
  | none => .next (s.answer none)
  | some (.read off size) => s.hostRead off size
  | some (.write off size w) => (s.answer none).hostWrite off size w latDraw

end Sys2Proof.Machine
end

