-- ==== Sys2Proof/Machine/Cycle.lean ====
section
/-! DEFINITION. One CLK cycle: the phases in the order of 00_scope.md R11. -/

namespace Sys2Proof.Machine

/-- The command word of the pending codec command, from PEND_OP and PEND_SRC (30_encoding.md R69, 40_commands.md R88). -/
def State.pendWord (s : State) : Word := 0#23 ++ BitVec.ofBool s.pendSrc ++ 0#4 ++ s.pendOp

/-- Step (3): the pending codec command commits when its latency has run out (40_commands.md R89). -/
def State.commitPhase (s : State) : Result :=
  if s.xstate = .codec then
    if s.pendLat = 0 then exec (decodeWord s.pendWord) s else .next { s with pendLat := s.pendLat - 1 }
  else .next s

/-- Steps (4) to (6), after the host access and the commit; `x0` is XSTATE at the start of the cycle. -/
def State.linePhases (s : State) (x0 : XState) (rx : Option RxChar) : Result :=
  let t := s.rxPhase x0 rx
  t.tickPhase.fsmPhase x0 (arrived x0 rx) t.tick

/-- A reset cycle: the reset values, and a read answers 0 without a bus error (70_reset_and_hazards.md R143, R144). -/
def State.resetPhase (s : State) (access : Option Access) : State :=
  match access with
  | some (.read _ _) => s.resetCycle.answer (some 0#32)
  | _ => s.resetCycle

/-- One CLK cycle with the outside's choices `c` (00_scope.md R11). -/
def State.runCycle (s : State) (c : CycleInput) : Result :=
  if c.rstN then
    thenDo (s.hostPhase c.access c.latDraw) fun t =>
    thenDo t.commitPhase fun u =>
    u.linePhases s.xstate c.rx
  else .next (s.resetPhase c.access)

/-- The choice of the coming cycle: the next listed one, or the free one once the list is used up (log 1). -/
def State.choice (s : State) : CycleInput := s.inputs.headD (Config.environment s.cycle)

/-- The state with the coming cycle's choice used up. -/
def State.advance (s : State) : State := { s with inputs := s.inputs.tail, cycle := s.cycle + 1 }

/-- The choice that runs command word `w` in the coming cycle: the host writes it to CMD with RST_N high, no character, latency
draw 0 (log 2). -/
def fetchChoice (w : Word) : CycleInput where
  rstN    := true
  access  := some (.write 0x008#11 .four w)
  rx      := none
  latDraw := 0

/-- The state in which the coming cycle accepts command word `w`: the choice comes first, and a command in progress is gone, so
that the write is accepted (log 2). -/
def State.withCommand (s : State) (w : Word) : State :=
  { s with inputs := fetchChoice w :: s.inputs, xstate := .idle, pendOp := 0#4, pendLat := 0 }

end Sys2Proof.Machine
end

