-- ==== Sys2Proof/Machine/Step.lean ====
section
/-! DEFINITION. The step: one rising edge of CLK (00_scope.md R11). -/

namespace Sys2Proof.Machine

/-- One CLK cycle with the outside's next choice. -/
def step (s : State) : Host.Outcome State Fault Refusal := s.advance.runCycle s.choice

/-- `s` with the command word of `nbits` bits placed where the next step takes it from: the host's write to CMD in the coming
cycle (log 2). -/
def State.withFetchWord (s : State) (nbits w : Nat) : State := s.withCommand (tableWord nbits w)

end Sys2Proof.Machine
end

