-- ==== Sys2Proof/Safety.lean ====
section
/-! DEFINITION. What claims are stated in: the choices of the coming cycles, runs, the invariant of DFCT, and the conditions
under which a cycle does not stop. -/

namespace Sys2Proof.Machine

/-- The outside's choice in the cycle `k` cycles ahead, when every cycle before it answers a next state. -/
def State.choiceAt (s : State) (k : Nat) : CycleInput := s.inputs.getD k (Config.environment (s.cycle + k))

/-- The state after `k` cycles, stopping at the first stop. -/
def runFor : Nat → State → Result
  | 0, s => .next s
  | k + 1, s => thenDo (step s) (runFor k)

/-- The host makes no access and RST_N is high. -/
def hostQuiet (c : CycleInput) : Prop := c.rstN = true ∧ c.access = none

/-- As `hostQuiet`, and no character arrives. -/
def silent (c : CycleInput) : Prop := hostQuiet c ∧ c.rx = none

/-- In the coming cycle the host writes command word `w` to CMD, with RST_N high. -/
def State.writesCmd (s : State) (w : Word) : Prop :=
  s.choice.rstN = true ∧ s.choice.access = some (.write 0x008#11 .four w)

/-- `s` with the coming cycle's host access put in place of the one chosen; the rest of the choice stays. -/
def State.withChosenAccess (s : State) (a : Option Access) : State :=
  { s with inputs := { s.choice with access := a } :: s.inputs.tail }

/-- `s` with the coming cycle's received character put in place of the one chosen; the rest of the choice stays. -/
def State.withChosenChar (s : State) (rx : Option RxChar) : State :=
  { s with inputs := { s.choice with rx := rx } :: s.inputs.tail }

/-- An EXCHANGE is in progress. -/
def XState.inExchange : XState → Bool
  | .idle  => false
  | .codec => false
  | _      => true

/-- Buffer byte `i` holds a value. -/
def State.present (s : State) (b : Buf) (i : Nat) : Prop := (s.mem.get (b.base + i)).isSome = true

/-- The bytes `bs` stand in a buffer from index 0 on. -/
def State.holds (s : State) (b : Buf) (bs : List Byte) : Prop :=
  ∀ i (h : i < bs.length), s.mem.get (b.base + i) = some bs[i]

/-- The transmitter stands inside a character (10_state.md R45). -/
def State.txInBit (s : State) : Prop := s.txbit.toNat ≤ 10 ∧ s.txcyc.toNat < s.baudDiv.toNat

/-- The invariant of DFCT: what holds at reset and every cycle keeps. -/
structure State.Inv (s : State) : Prop where
  /-- Memory keeps its canonical form. -/
  memWf : s.mem.wf
  /-- Only bytes of the five buffers hold values (10_state.md R18). -/
  memInBuffers : ∀ c ∈ s.mem, (bufAt c.1).isSome = true
  /-- PRESC is 0..TICK_DIV (R45). -/
  prescLe : s.presc.toNat ≤ s.tickDiv.toNat
  /-- DONE and ERRCODE are 0 between acceptance and completion (60_exceptions.md R135, 40_commands.md R85). -/
  busyNotDone : s.xstate ≠ .idle → s.done = false ∧ s.errcode = .ok
  /-- The pending command is a codec command with a latency within the bound (40_commands.md R88). -/
  pending : s.xstate = .codec →
    s.pendOp.toNat ≤ 3 ∧ (s.pendSrc = true → s.pendOp = 3#4) ∧ s.pendLat ≤ Config.codecMaxLat
  /-- No command is pending otherwise (40_commands.md R90). -/
  nonePending : s.xstate ≠ .codec → s.pendOp = 0#4 ∧ s.pendLat = 0
  /-- An EXCHANGE runs only with the configuration its acceptance checked, within its attempt count (42_transceiver.md R108). -/
  exchange : s.xstate.inExchange = true →
    1 ≤ s.frameLen.toNat ∧ s.frameLen.toNat ≤ 512 ∧ s.baudDiv ≠ 0#16 ∧
      1 ≤ s.attempt.toNat ∧ s.attempt.toNat ≤ s.maxAttempts.toNat
  /-- A retry wait is entered only while attempts remain (42_transceiver.md R116). -/
  retrying : s.xstate = .retryWait → s.attempt.toNat < s.maxAttempts.toNat
  /-- The characters an attempt counts are in RXBUF (R29, 42_transceiver.md R124). -/
  received : s.xstate.inExchange = true → s.rxLen.toNat ≤ 512 ∧ ∀ i < s.rxLen.toNat, s.present .rxbuf i
  /-- The transmitter's position in the preamble (R45). -/
  inPreamble : s.xstate = .wakeTx → s.txidx.toNat ≤ 3 ∧ s.txInBit
  /-- The transmitter's position in the frame (R45). -/
  inFrame : s.xstate = .frameTx → s.txidx.toNat < s.frameLen.toNat ∧ s.txInBit

/-- Every buffer byte that some command would read holds a value: the operands of all commands of 30_encoding.md R72, not only of
the command in progress. -/
structure State.operandsPresent (s : State) : Prop where
  payload : ∀ i < s.plen.toNat, s.present .payload i
  txbuf   : ∀ i < s.frameLen.toNat, i < 512 → s.present .txbuf i
  rxbuf   : ∀ i < s.rxLen.toNat, i < 512 → s.present .rxbuf i
  addrstr : ∀ i < s.addrstrLen.toNat, i < 16 → s.present .addrstr i

/-- The host's access is answered without a bus error, and a read finds its bytes. -/
def State.accessOk (s : State) : Option Access → Prop
  | none => True
  | some (.write off size _) => (target off size).isSome = true
  | some (.read off size) =>
    match target off size with
    | none => False
    | some (.reg _) => True
    | some (.buf _ a) => ∀ i < sizeBytes size, (s.mem.get (a + i)).isSome = true

end Sys2Proof.Machine
end

