-- ==== Sys2Proof/Certificates/Slice0/Obligations.lean ====
section
/-! DEFINITION. The statements about DFCT for the provers. -/

open Sys2Proof Sys2Proof.Machine

/-! ### Encodings -/

/-- Words of the opcode map written out from 30_encoding.md R69 and R70 decode to their commands. -/
def Obligations.OpcodeMapWordsDecode : Prop :=
  decodeBytes [0x00, 0x00, 0x00, 0x00] = .ok (.nop, []) ∧
  decodeBytes [0x01, 0x00, 0x00, 0x00] = .ok (.addrEncode, []) ∧
  decodeBytes [0x02, 0x00, 0x00, 0x00] = .ok (.build, []) ∧
  decodeBytes [0x03, 0x00, 0x00, 0x00] = .ok (.parseRx, []) ∧
  decodeBytes [0x03, 0x01, 0x00, 0x00] = .ok (.parseTx, []) ∧
  decodeBytes [0x04, 0x00, 0x00, 0x00] = .ok (.exchange, []) ∧
  decodeBytes [0x05, 0x00, 0x00, 0x00] = .ok (.illegal 0x00000005#32, [])

/-- R71's condition, on the word as a number: OP in 5..15, a reserved bit set, or SRC with another opcode than 3. -/
def Obligations.IllegalWordIffOpcodeReservedOrSource : Prop :=
  ∀ w : Word, decodeWord w = .illegal w ↔
    5 ≤ w.toNat % 16 ∨ w.toNat / 16 % 16 ≠ 0 ∨ w.toNat / 512 ≠ 0 ∨ (w.toNat / 256 % 2 = 1 ∧ w.toNat % 16 ≠ 3)

/-- Decoding the byte lanes of an encoded well-formed command gives it back and leaves the bytes after it. -/
def Obligations.DecodeOfEncodedBytes : Prop :=
  ∀ (i : Instr) (rest : List Byte), i.wellFormed = true → decodeBytes (encodeBytes i ++ rest) = .ok (i, rest)

/-- Every word is the encoding of the well-formed command it decodes to; fewer than four bytes are no command. -/
def Obligations.EncodeOfDecodedWord : Prop :=
  (∀ w : Word, (decodeWord w).wellFormed = true ∧ encode (decodeWord w) = w) ∧
  ∀ bs : List Byte, bs.length < 4 → decodeBytes bs = .error .truncated

/-! ### Shared functions -/

/-- R92: masking adds 0x33 modulo 256, unmasking undoes it, byte by byte on a sequence; the corner values. -/
def Obligations.MaskingAddsAndUndoes33 : Prop :=
  (∀ b : Byte, (mask b).toNat = (b.toNat + 0x33) % 256 ∧ (unmask b).toNat = (b.toNat + 0xCD) % 256 ∧
    unmask (mask b) = b ∧ mask (unmask b) = b) ∧
  (∀ bs : List Byte, (bs.map mask).map unmask = bs ∧ (bs.map unmask).map mask = bs) ∧
  mask 0xCD = 0x00 ∧ mask 0xCC = 0xFF ∧ mask 0xFF = 0x32 ∧ mask 0x00 = 0x33 ∧ unmask 0x00 = 0xCD ∧ unmask 0x32 = 0xFF

/-- R93: the checksum is the sum modulo 256, reducing after each addition gives the same, and any change of one byte
changes it. -/
def Obligations.ChecksumDetectsOneChangedByte : Prop :=
  checksum [] = 0#8 ∧
  (∀ bs : List Byte, (checksum bs).toNat = (bs.map BitVec.toNat).sum % 256) ∧
  (∀ (bs : List Byte) (b : Byte), checksum (bs ++ [b]) = checksum bs + b) ∧
  ∀ (xs ys : List Byte) (b b' : Byte), checksum (xs ++ b :: ys) = checksum (xs ++ b' :: ys) ↔ b = b'

/-- R94: which character codes are hex digits, and their values. -/
def Obligations.HexDigitsAndValues : Prop :=
  ∀ c : Byte,
    (0x30 ≤ c.toNat ∧ c.toNat ≤ 0x39 → isHex c = true ∧ hexVal c = c.toNat - 0x30) ∧
    (0x41 ≤ c.toNat ∧ c.toNat ≤ 0x46 → isHex c = true ∧ hexVal c = c.toNat - 0x37) ∧
    (0x61 ≤ c.toNat ∧ c.toNat ≤ 0x66 → isHex c = true ∧ hexVal c = c.toNat - 0x57) ∧
    (c.toNat < 0x30 ∨ (0x39 < c.toNat ∧ c.toNat < 0x41) ∨ (0x46 < c.toNat ∧ c.toNat < 0x61) ∨ 0x66 < c.toNat →
      isHex c = false)

/-- R95: le32 is the or of the shifted bytes, bytes_le its four slices, and they are inverse to each other. -/
def Obligations.Le32AndBytesLeAreInverse : Prop :=
  (∀ b0 b1 b2 b3 : Byte,
    le32 b0 b1 b2 b3 =
      b0.setWidth 32 ||| (b1.setWidth 32 <<< 8) ||| (b2.setWidth 32 <<< 16) ||| (b3.setWidth 32 <<< 24)) ∧
  (∀ b0 b1 b2 b3 : Byte, bytesLe (le32 b0 b1 b2 b3) = [b0, b1, b2, b3]) ∧
  ∀ v : Word, ∃ b0 b1 b2 b3 : Byte, bytesLe v = [b0, b1, b2, b3] ∧ le32 b0 b1 b2 b3 = v ∧
    b0.toNat = v.toNat % 256 ∧ b3.toNat = v.toNat / 16777216

/-- R81, R82: a character's bits. Start 0, data least significant first, a parity bit that makes the number of 1s even, stop 1;
the preamble's 0xFE, the markers 0x68 and 0x16. -/
def Obligations.CharacterBitsAndEvenParity : Prop :=
  (∀ b : Byte, charBit b 0 = false ∧ charBit b 10 = true ∧ (∀ k < 8, charBit b (k + 1) = b.getLsbD k) ∧
    ((List.range 9).countP fun k => charBit b (k + 1)) % 2 = 0) ∧
  (List.range 11).map (charBit 0xFE) = [false, false, true, true, true, true, true, true, true, true, true] ∧
  (List.range 11).map (charBit 0x68) = [false, false, false, false, true, false, true, true, false, true, true] ∧
  (List.range 11).map (charBit 0x16) = [false, false, true, true, false, true, false, false, false, true, true] ∧
  charBit 0x33 9 = false

/-! ### Commands -/

/-- R91, R90: NOP completes with OK and changes nothing else; the completion raises IRQ if CTRL.IE is 1. -/
def Obligations.NopOnlyCompletes : Prop :=
  ∀ s : State, ∃ t, exec .nop s = .next t ∧
    t = { s with done := true, errcode := .ok, xstate := .idle, pendOp := 0#4, pendLat := 0 } ∧ t.irq = s.ctrlIe

/-- An illegal command's meaning, in every state: complete(BadCommand) and nothing else (R87, R90). -/
def Obligations.IllegalCommandOnlyCompletes : Prop :=
  ∀ (w : Word) (s : State),
    exec (.illegal w) s =
      .next { s with done := true, errcode := .badCommand, xstate := .idle, pendOp := 0#4, pendLat := 0 }

/-- R97: ADDR_ENCODE, its word and its rule. More than 12 characters, or a character that is no hex digit, gives InvalidAddress and changes nothing
else; otherwise ADDR_LO and ADDR_HI take the pairs of the padded string, the last pair in the lowest byte. -/
def Obligations.AddrEncodeReversesDigitPairs : Prop :=
  decodeWord 0x00000001#32 = .addrEncode ∧ ∀ s : State,
    (12 < s.addrstrLen.toNat →
      exec .addrEncode s =
        .next { s with done := true, errcode := .invalidAddress, xstate := .idle, pendOp := 0#4, pendLat := 0 }) ∧
    ∀ cs : List Byte, cs.length = s.addrstrLen.toNat → cs.length ≤ 12 → s.holds .addrstr cs →
      let p := List.replicate (12 - cs.length) 0x30#8 ++ cs
      let pair := fun k => 16 * hexVal (p.getD (2 * k) 0) + hexVal (p.getD (2 * k + 1) 0)
      ((∃ c ∈ p, isHex c = false) →
        exec .addrEncode s =
          .next { s with done := true, errcode := .invalidAddress, xstate := .idle, pendOp := 0#4, pendLat := 0 }) ∧
      ((∀ c ∈ p, isHex c = true) →
        exec .addrEncode s =
          .next { s with
            addrLo := BitVec.ofNat 32 (pair 5 + 256 * pair 4 + 65536 * pair 3 + 16777216 * pair 2)
            addrHi := BitVec.ofNat 16 (pair 1 + 256 * pair 0)
            done := true, errcode := .ok, xstate := .idle, pendOp := 0#4, pendLat := 0 })

/-- R98, R73 to R75: BUILD, its word and its rule. Too long a data field gives DataTooLong and changes nothing else; otherwise TXBUF takes the frame,
FRAME_LEN its length, and nothing else changes. -/
def Obligations.BuildMakesTheFrame : Prop :=
  decodeWord 0x00000002#32 = .build ∧ ∀ s : State,
    let len := (if s.hasDi then 4 else 0) + s.plen.toNat
    (255 < len →
      exec .build s =
        .next { s with done := true, errcode := .dataTooLong, xstate := .idle, pendOp := 0#4, pendLat := 0 }) ∧
    ∀ p : List Byte, len ≤ 255 → p.length = s.plen.toNat → s.holds .payload p →
      let d := (if s.hasDi then [s.di.extractLsb' 0 8, s.di.extractLsb' 8 8, s.di.extractLsb' 16 8, s.di.extractLsb' 24 8]
        else []) ++ p
      let body := [0x68#8, s.addrLo.extractLsb' 0 8, s.addrLo.extractLsb' 8 8, s.addrLo.extractLsb' 16 8,
        s.addrLo.extractLsb' 24 8, s.addrHi.extractLsb' 0 8, s.addrHi.extractLsb' 8 8, 0x68#8, s.ctrlcode,
        BitVec.ofNat 8 len] ++ d.map (· + 0x33#8)
      ∃ t, exec .build s = .next t ∧
        t = { s with
          mem := t.mem, frameLen := BitVec.ofNat 10 (12 + len)
          done := true, errcode := .ok, xstate := .idle, pendOp := 0#4, pendLat := 0 } ∧
        t.holds .txbuf (body ++ [BitVec.ofNat 8 (body.map BitVec.toNat).sum, 0x16#8]) ∧
        ∀ a, a < 0x200 ∨ 0x200 + 12 + len ≤ a → t.mem.get a = s.mem.get a

/-- R99 to R101: PARSE of a sequence that passes every check, from RXBUF or TXBUF: the fields, the identifier, the payload in
RXDATA, and nothing else. -/
def Obligations.ParseAcceptsAGoodFrame : Prop :=
  ∀ (s : State) (i : Instr) (b : Buf) (n : Nat) (f : List Byte),
    (i = .parseRx ∧ b = .rxbuf ∧ n = s.rxLen.toNat) ∨ (i = .parseTx ∧ b = .txbuf ∧ n = s.frameLen.toNat) →
    f.length = n → 12 ≤ n → n ≤ 512 → s.holds b f →
    f.getD 0 0 = 0x68#8 → f.getD (n - 1) 0 = 0x16#8 → f.getD 7 0 = 0x68#8 → (f.getD 9 0).toNat = n - 12 →
    ((f.take (n - 2)).map BitVec.toNat).sum % 256 = (f.getD (n - 2) 0).toNat →
    let d := ((f.drop 10).take (n - 12)).map (· - 0x33#8)
    let p := if 4 ≤ d.length then d.drop 4 else d
    ∃ t, exec i s = .next t ∧
      t = { s with
        mem := t.mem, rxCtrl := f.getD 8 0, rxL := f.getD 9 0, rxHasDi := decide (4 ≤ d.length)
        rxPlen := BitVec.ofNat 8 p.length
        rxDi := if 4 ≤ d.length then le32 (d.getD 0 0) (d.getD 1 0) (d.getD 2 0) (d.getD 3 0) else 0#32
        done := true, errcode := .ok, xstate := .idle, pendOp := 0#4, pendLat := 0 } ∧
      t.holds .rxdata p ∧ ∀ a, a < 0x600 ∨ 0x600 + p.length ≤ a → t.mem.get a = s.mem.get a

/-- R99 to R101, R131: PARSE reports the first check that fails, clears PARSE_RES and RX_DI and changes nothing else; fewer than
12 bytes fail whatever the bytes; a length above 512 leaves the results too. -/
def Obligations.ParseReportsTheFirstFailure : Prop :=
  ∀ (s : State) (i : Instr) (b : Buf) (n : Nat),
    (i = .parseRx ∧ b = .rxbuf ∧ n = s.rxLen.toNat) ∨ (i = .parseTx ∧ b = .txbuf ∧ n = s.frameLen.toNat) →
    let failed := fun e : ErrCode =>
      ({ s with
        rxCtrl := 0#8, rxL := 0#8, rxHasDi := false, rxPlen := 0#8, rxDi := 0#32
        done := true, errcode := e, xstate := .idle, pendOp := 0#4, pendLat := 0 } : State)
    (512 < n →
      exec i s = .next { s with done := true, errcode := .badFrameLength, xstate := .idle, pendOp := 0#4, pendLat := 0 }) ∧
    (n < 12 → exec i s = .next (failed .frameTooShort)) ∧
    ∀ f : List Byte, f.length = n → 12 ≤ n → n ≤ 512 → s.holds b f →
      (f.getD 0 0 ≠ 0x68#8 ∨ f.getD (n - 1) 0 ≠ 0x16#8 → exec i s = .next (failed .invalidFrameMarkers)) ∧
      (f.getD 0 0 = 0x68#8 → f.getD (n - 1) 0 = 0x16#8 →
        (f.getD 7 0 ≠ 0x68#8 → exec i s = .next (failed .invalidSecondStart)) ∧
        (f.getD 7 0 = 0x68#8 →
          ((f.getD 9 0).toNat ≠ n - 12 → exec i s = .next (failed .lengthMismatch)) ∧
          ((f.getD 9 0).toNat = n - 12 →
            ((f.take (n - 2)).map BitVec.toNat).sum % 256 ≠ (f.getD (n - 2) 0).toNat →
            exec i s = .next (failed .checksumMismatch))))

/-- R99: the parse reads only the bytes its checks reach: a check that fails decides whatever the bytes after it hold. That byte
n - 1 is not read when byte 0 is wrong is the model's reading (log 7). -/
def Obligations.ParseReadsOnlyWhatItsChecksReach : Prop :=
  ∀ (s : State) (i : Instr) (b : Buf) (n : Nat) (b0 bEnd b7 l : Byte),
    (i = .parseRx ∧ b = .rxbuf ∧ n = s.rxLen.toNat) ∨ (i = .parseTx ∧ b = .txbuf ∧ n = s.frameLen.toNat) →
    12 ≤ n → n ≤ 512 → s.mem.get b.base = some b0 →
    (b0 ≠ 0x68#8 → ∃ t, exec i s = .next t ∧ t.errcode = .invalidFrameMarkers) ∧
    (b0 = 0x68#8 → s.mem.get (b.base + (n - 1)) = some bEnd →
      (bEnd ≠ 0x16#8 → ∃ t, exec i s = .next t ∧ t.errcode = .invalidFrameMarkers) ∧
      (bEnd = 0x16#8 → s.mem.get (b.base + 7) = some b7 →
        (b7 ≠ 0x68#8 → ∃ t, exec i s = .next t ∧ t.errcode = .invalidSecondStart) ∧
        (b7 = 0x68#8 → s.mem.get (b.base + 9) = some l → l.toNat ≠ n - 12 →
          ∃ t, exec i s = .next t ∧ t.errcode = .lengthMismatch)))

/-- R43: a read of a buffer byte that nothing has written faults, and the fault names the first such byte in the order of the
reads: by ADDR_ENCODE, BUILD, PARSE (byte 0, byte n - 1, byte 7, byte 9, then the body and the checksum byte), the transmitter and
the host. That PARSE reads in this order is the model's reading of R99 (log 7), that the transmitter reads in each cycle of a
byte its reading of R112 (log 8). -/
def Obligations.AbsentBytesFault : Prop :=
  ∀ s : State,
    (∀ i : Nat, s.addrstrLen.toNat ≤ 12 → i < s.addrstrLen.toNat → (∀ j < i, s.present .addrstr j) →
      ¬ s.present .addrstr i → exec .addrEncode s = .fault (.absentByte (0x700 + i))) ∧
    (∀ i : Nat, (if s.hasDi then 4 else 0) + s.plen.toNat ≤ 255 → i < s.plen.toNat → (∀ j < i, s.present .payload j) →
      ¬ s.present .payload i → exec .build s = .fault (.absentByte (0x100 + i))) ∧
    (∀ (c : Instr) (b : Buf) (n : Nat),
      (c = .parseRx ∧ b = .rxbuf ∧ n = s.rxLen.toNat) ∨ (c = .parseTx ∧ b = .txbuf ∧ n = s.frameLen.toNat) →
      12 ≤ n → n ≤ 512 →
      (¬ s.present b 0 → exec c s = .fault (.absentByte b.base)) ∧
      (s.mem.get b.base = some 0x68#8 →
        (¬ s.present b (n - 1) → exec c s = .fault (.absentByte (b.base + (n - 1)))) ∧
        (s.mem.get (b.base + (n - 1)) = some 0x16#8 →
          (¬ s.present b 7 → exec c s = .fault (.absentByte (b.base + 7))) ∧
          (s.mem.get (b.base + 7) = some 0x68#8 →
            (¬ s.present b 9 → exec c s = .fault (.absentByte (b.base + 9))) ∧
            ∀ (l : Byte) (i : Nat), s.mem.get (b.base + 9) = some l → l.toNat = n - 12 → i < n - 1 →
              (∀ j < i, s.present b j) → ¬ s.present b i → exec c s = .fault (.absentByte (b.base + i)))))) ∧
    (s.xstate = .frameTx → hostQuiet s.choice → s.txidx.toNat < 512 → ¬ s.present .txbuf s.txidx.toNat →
      step s = .fault (.absentByte (0x200 + s.txidx.toNat))) ∧
    ∀ (off : BitVec 11) (size : Size) (b : Buf) (i : Nat), s.choice.rstN = true →
      s.choice.access = some (.read off size) → target off size = some (.buf b off.toNat) → i < sizeBytes size →
      (∀ j < i, (s.mem.get (off.toNat + j)).isSome = true) → s.mem.get (off.toNat + i) = none →
      step s = .fault (.absentByte (off.toNat + i))

/-- R108, R109: EXCHANGE at acceptance: the two rejections in their order, with no other change, and the start of the first
attempt. -/
def Obligations.ExchangeStartsItsFirstAttempt : Prop :=
  ∀ s : State,
    (s.frameLen.toNat = 0 ∨ 512 < s.frameLen.toNat →
      exec .exchange s =
        .next { s with done := true, errcode := .badFrameLength, xstate := .idle, pendOp := 0#4, pendLat := 0 }) ∧
    (1 ≤ s.frameLen.toNat → s.frameLen.toNat ≤ 512 → s.baudDiv.toNat = 0 ∨ s.maxAttempts.toNat = 0 →
      exec .exchange s =
        .next { s with done := true, errcode := .badConfig, xstate := .idle, pendOp := 0#4, pendLat := 0 }) ∧
    (1 ≤ s.frameLen.toNat → s.frameLen.toNat ≤ 512 → 1 ≤ s.baudDiv.toNat → 1 ≤ s.maxAttempts.toNat →
      exec .exchange s =
        .next { s with
          rxOvf := false, rxPerr := false, rxFerr := false, lastErr := .ok, attempt := 1#4, rxLen := 0#10
          txidx := 0#10, txbit := 0#4, txcyc := 0#16, xstate := .wakeTx })

/-- R129: a command that ends with an error leaves everything but DONE, ERRCODE (and the sequencing fields of the completion); a
PARSE that fails after its length check, which is one with another code than BadFrameLength, also clears PARSE_RES and RX_DI. -/
def Obligations.FailedCommandsChangeNothingElse : Prop :=
  ∀ (i : Instr) (s t : State), exec i s = .next t → t.errcode ≠ .ok → t.xstate = .idle →
    ((i = .parseRx ∨ i = .parseTx) ∧ t.errcode ≠ .badFrameLength →
      t = { s with
        rxCtrl := 0#8, rxL := 0#8, rxHasDi := false, rxPlen := 0#8, rxDi := 0#32
        done := true, errcode := t.errcode, xstate := .idle, pendOp := 0#4, pendLat := 0 }) ∧
    (¬ ((i = .parseRx ∨ i = .parseTx) ∧ t.errcode ≠ .badFrameLength) →
      t = { s with done := true, errcode := t.errcode, xstate := .idle, pendOp := 0#4, pendLat := 0 })

/-- No command is refused, and a command stops only on an absent buffer byte. -/
def Obligations.CommandsStopOnlyOnAbsentBytes : Prop :=
  ∀ (i : Instr) (s : State), (∃ t, exec i s = .next t) ∨ ∃ a, exec i s = .fault (.absentByte a) ∧ s.mem.get a = none

/-! ### Laws of the codec -/

/-- R102: BUILD followed by PARSE TX on the same TXBUF and FRAME_LEN recovers C, L, and in its three cases the identifier and
the payload. -/
def Obligations.BuildThenParseRecoversTheFields : Prop :=
  ∀ s t t' : State, exec .build s = .next t → t.errcode = .ok → t'.mem = t.mem → t'.frameLen = t.frameLen →
    ∃ u, exec .parseTx t' = .next u ∧ u.errcode = .ok ∧ u.rxCtrl = s.ctrlcode ∧
      u.rxL.toNat = (if s.hasDi then 4 else 0) + s.plen.toNat ∧
      (s.hasDi = true →
        u.rxHasDi = true ∧ u.rxDi = s.di ∧ u.rxPlen = s.plen ∧
          ∀ i < s.plen.toNat, u.mem.get (0x600 + i) = s.mem.get (0x100 + i)) ∧
      (s.hasDi = false → s.plen.toNat ≤ 3 →
        u.rxHasDi = false ∧ u.rxDi = 0#32 ∧ u.rxPlen = s.plen ∧
          ∀ i < s.plen.toNat, u.mem.get (0x600 + i) = s.mem.get (0x100 + i)) ∧
      (s.hasDi = false → 4 ≤ s.plen.toNat →
        u.rxHasDi = true ∧ (∀ k < 4, s.mem.get (0x100 + k) = some (u.rxDi.extractLsb' (8 * k) 8)) ∧
          u.rxPlen.toNat = s.plen.toNat - 4 ∧
          ∀ i < s.plen.toNat - 4, u.mem.get (0x600 + i) = s.mem.get (0x104 + i))

/-- R103: a frame BUILD made with one bit of byte `i` flipped fails PARSE TX with the code of that byte's check. -/
def Obligations.OneFlippedBitIsRejected : Prop :=
  ∀ (s t t' : State) (i k : Nat) (v : Byte), exec .build s = .next t → t.errcode = .ok →
    let len := (if s.hasDi then 4 else 0) + s.plen.toNat
    i < 12 + len → k < 8 → t.mem.get (0x200 + i) = some v →
    t'.frameLen = t.frameLen → t'.mem = t.mem.set (0x200 + i) (v ^^^ (1#8 <<< k)) →
    ∃ u, exec .parseTx t' = .next u ∧
      u.errcode =
        if i = 0 ∨ i = 11 + len then .invalidFrameMarkers
        else if i = 7 then .invalidSecondStart
        else if i = 9 then .lengthMismatch
        else .checksumMismatch

/-! ### Dispatch -/

/-- A CMD write accepted while BUSY is 0 runs the decoded command: an illegal word and EXCHANGE in the same cycle, a codec
command after its drawn latency, in the same cycle if that is 0. Around the command the cycle only clears DONE and ERRCODE
before it (R85) and counts the prescaler after it (R106). -/
def Obligations.StepRunsTheDecodedCommand : Prop :=
  ∀ (s : State) (w : Word), s.xstate = .idle → s.writesCmd w →
    let i := decodeWord w
    let a := ({ s.advance with rdata := none, done := false, errcode := .ok } : State)
    let lat := drawnLatency s.choice.latDraw Config.codecMaxLat
    decodeBytes (bytesLe w) = .ok (i, []) ∧
    ((∃ v, i = .illegal v) ∨ i = .exchange → step s = thenDo (exec i a) fun t => .next t.tickPhase) ∧
    (i = .nop ∨ i = .addrEncode ∨ i = .build ∨ i = .parseRx ∨ i = .parseTx →
      (lat = 0 → step s = thenDo (exec i (a.codecStart w 0)) fun t => .next t.tickPhase) ∧
      (0 < lat → step s = .next (a.codecStart w (lat - 1)).tickPhase) ∧
      decodeWord (a.codecStart w lat).pendWord = i)

/-- What `withFetchWord` prepares: the coming cycle writes the command's word to CMD while BUSY is 0. -/
def Obligations.FetchWordIsTheNextCommandWrite : Prop :=
  ∀ (s : State) (nbits w : Nat) (i : Instr), decodeTableWord nbits w = some i →
    (s.withFetchWord nbits w).xstate = .idle ∧ (s.withFetchWord nbits w).writesCmd (encode i) ∧
    decodeWord (encode i) = i

/-- R88, R89: a pending codec command waits out its latency with BUSY 1 and XSTATE 7, nothing but the prescaler changing, and
then commits: its command rule runs on the state as it is then. -/
def Obligations.PendingCommandCommitsAfterItsLatency : Prop :=
  ∀ (s : State) (n : Nat), s.xstate = .codec → s.pendLat = n → (∀ j ≤ n, hostQuiet (s.choiceAt j)) →
    (∀ j ≤ n, ∃ t, runFor j s = .next t ∧
      t = { s with
        pendLat := n - j, presc := t.presc, rdata := if j = 0 then s.rdata else none
        inputs := s.inputs.drop j, cycle := s.cycle + j }) ∧
    ∃ t, runFor n s = .next t ∧
      runFor (n + 1) s = thenDo (exec (decodeWord s.pendWord) (t.advance.answer none)) fun u => .next u.tickPhase

/-- R71, R87: an illegal command word written while BUSY is 0 completes with BadCommand in that cycle; nothing else changes but
the running prescaler and the bus answer. -/
def Obligations.IllegalWordCompletesInItsCycle : Prop :=
  ∀ (s : State) (w : Word), s.Inv → s.xstate = .idle → s.writesCmd w →
    5 ≤ w.toNat % 16 ∨ w.toNat / 16 % 16 ≠ 0 ∨ w.toNat / 512 ≠ 0 ∨ (w.toNat / 256 % 2 = 1 ∧ w.toNat % 16 ≠ 3) →
    ∃ t, step s = .next t ∧
      t = { s with
        done := true, errcode := .badCommand, rdata := none, inputs := s.inputs.tail, cycle := s.cycle + 1
        presc := if s.presc = s.tickDiv then 0#32 else s.presc + 1#32 } ∧
      t.uartDe = s.uartDe ∧ t.uartTxd = s.uartTxd

/-- R86: a CMD write in a cycle that starts with BUSY 1 changes REJ and nothing else: the cycle goes as without it. That it sets
REJ and not WERR, R86 being the exception to R48, is the model's reading (log 10). -/
def Obligations.CommandWhileBusyOnlySetsRej : Prop :=
  ∀ (s : State) (w : Word), s.xstate ≠ .idle → s.writesCmd w →
    step s = step (({ s with rej := true } : State).withChosenAccess none)

/-! ### The host window -/

/-- R51 to R53: which accesses are bus errors. -/
def Obligations.BusErrorsExactlyOnIllFormedAccesses : Prop :=
  ∀ (s : State) (off : BitVec 11) (size : Size), s.choice.rstN = true →
    (s.choice.access = some (.read off size) ∨ ∃ w, s.choice.access = some (.write off size w)) →
    let o := off.toNat
    let n := sizeBytes size
    let bad := (o < 0x4C ∧ (n ≠ 4 ∨ o % 4 ≠ 0)) ∨ (0x4C ≤ o ∧ o < 0x100) ∨ (0x100 ≤ o ∧ o < 0x710 ∧ o % n ≠ 0) ∨ 0x710 ≤ o
    (bad → step s = .fault (.busError off)) ∧ (¬ bad → ∀ off', step s ≠ .fault (.busError off'))

/-- R55: a read changes nothing but the bus answer: the cycle goes as without it. A register read answers the register at the
start of the cycle (00_scope.md R11), a read of CMD 0. -/
def Obligations.ReadsHaveNoSideEffect : Prop :=
  ∀ (s t : State) (off : BitVec 11) (size : Size), s.choice.rstN = true → s.choice.access = some (.read off size) →
    step s = .next t →
    step (s.withChosenAccess none) = .next { t with rdata := none } ∧
    (∀ r, target off size = some (.reg r) → t.rdata = some (s.readReg r)) ∧
    (target off size = some (.reg .cmd) → t.rdata = some 0#32)

/-- R50: a read of a buffer assembles its bytes little-endian, with zeros above them. -/
def Obligations.BufferReadsAreLittleEndian : Prop :=
  ∀ (s : State) (off : BitVec 11) (size : Size) (b : Buf) (bs : List Byte), target off size = some (.buf b off.toNat) →
    bs.length = sizeBytes size → (∀ i (h : i < bs.length), s.mem.get (off.toNat + i) = some bs[i]) →
    ∃ v : Word, s.hostRead off size = .next { s with rdata := some v } ∧
      v.toNat = (bs.getD 0 0).toNat + 256 * (bs.getD 1 0).toNat + 65536 * (bs.getD 2 0).toNat
        + 16777216 * (bs.getD 3 0).toNat

/-- R50, R56: a write to a buffer other than RXDATA while BUSY is 0 stores the low lanes of its data, lowest first, and changes no
other byte and no other field. -/
def Obligations.BufferWritesStoreTheirLanes : Prop :=
  ∀ (s : State) (off : BitVec 11) (size : Size) (w : Word) (b : Buf), s.xstate = .idle → s.choice.rstN = true →
    s.choice.access = some (.write off size w) → target off size = some (.buf b off.toNat) → b ≠ .rxdata →
    ∃ t, step s = .next t ∧
      t = { s with
        mem := t.mem, rdata := none, inputs := s.inputs.tail, cycle := s.cycle + 1
        presc := if s.presc = s.tickDiv then 0#32 else s.presc + 1#32 } ∧
      (∀ i < sizeBytes size, t.mem.get (off.toNat + i) = some (w.extractLsb' (8 * i) 8)) ∧
      ∀ a, a < off.toNat ∨ off.toNat + sizeBytes size ≤ a → t.mem.get a = s.mem.get a

/-- R19, R21 to R37, R56: while BUSY is 0 a writable register reads back the bits of its fields, its reserved bits 0, and the write
changes no other register, no buffer byte and no hidden state: the prescaler counts as in every cycle, from 0 after a write of
TICK_DIV. -/
def Obligations.RegistersReadBackTheirFields : Prop :=
  ∀ (s : State) (w : Word) (off : BitVec 11) (m : Word),
    (off, m) ∈ [(0x004#11, 0x00000001#32), (0x010#11, 0xFFFFFFFF#32), (0x014#11, 0x0000FFFF#32), (0x018#11, 0x000000FF#32),
      (0x01C#11, 0xFFFFFFFF#32), (0x020#11, 0x0000FF01#32), (0x024#11, 0x000003FF#32), (0x028#11, 0x000003FF#32),
      (0x034#11, 0x0000000F#32), (0x038#11, 0xFFFFFFFF#32), (0x03C#11, 0xFFFFFFFF#32), (0x040#11, 0xFFFF000F#32),
      (0x044#11, 0x0000FFFF#32), (0x048#11, 0xFFFFFFFF#32)] →
    s.xstate = .idle → s.choice.rstN = true → s.choice.access = some (.write off .four w) →
    ∃ t, step s = .next t ∧ t.hostRead off .four = .next { t with rdata := some (w &&& m) } ∧
      (∀ r, target off .four ≠ some (.reg r) → t.readReg r = s.readReg r) ∧
      t = { s with
        ctrlIe := t.ctrlIe, addrLo := t.addrLo, addrHi := t.addrHi, ctrlcode := t.ctrlcode, di := t.di, hasDi := t.hasDi
        plen := t.plen, frameLen := t.frameLen, rxLen := t.rxLen, addrstrLen := t.addrstrLen, tSettle := t.tSettle
        tPostsend := t.tPostsend, tInact := t.tInact, tCeil := t.tCeil, maxAttempts := t.maxAttempts
        tRetry := t.tRetry, baudDiv := t.baudDiv, tickDiv := t.tickDiv
        presc := if off = 0x048#11 then (if w = 0#32 then 0#32 else 1#32)
          else if s.presc = s.tickDiv then 0#32 else s.presc + 1#32
        rdata := none, inputs := s.inputs.tail, cycle := s.cycle + 1 }

/-- R19, R56: a write to ID, PARSE_RES, RX_DI or RXDATA while BUSY is 0 is ignored without error: the cycle goes as without it. -/
def Obligations.ReadOnlyWritesAreIgnored : Prop :=
  ∀ (s : State) (off : BitVec 11) (size : Size) (w : Word), s.xstate = .idle → s.choice.rstN = true →
    s.choice.access = some (.write off size w) →
    (target off size = some (.reg .id) ∨ target off size = some (.reg .parseRes) ∨ target off size = some (.reg .rxDi) ∨
      target off size = some (.buf .rxdata off.toNat)) →
    step s = step (s.withChosenAccess none)

/-- R48: while BUSY is 1 a write takes effect only on CTRL and STATUS; on a read-only register it does nothing, on any other
register than CMD and on a buffer it sets WERR, and the cycle goes as without it. That RXDATA counts as a buffer here is the
model's reading (log 9). -/
def Obligations.WritesWhileBusyAreLost : Prop :=
  ∀ (s : State) (off : BitVec 11) (size : Size) (w : Word), s.xstate ≠ .idle → s.choice.rstN = true →
    s.choice.access = some (.write off size w) →
    (target off size = some (.reg .ctrl) →
      step s = step (({ s with ctrlIe := w.getLsbD 0 } : State).withChosenAccess none)) ∧
    (target off size = some (.reg .status) → step s = step ((s.writeStatus w).withChosenAccess none)) ∧
    (target off size = some (.reg .id) ∨ target off size = some (.reg .parseRes) ∨ target off size = some (.reg .rxDi) →
      step s = step (s.withChosenAccess none)) ∧
    (∀ r, target off size = some (.reg r) →
      r ∉ [Reg.ctrl, Reg.status, Reg.cmd, Reg.id, Reg.parseRes, Reg.rxDi] →
      step s = step (({ s with werr := true } : State).withChosenAccess none)) ∧
    (∀ b a, target off size = some (.buf b a) →
      step s = step (({ s with werr := true } : State).withChosenAccess none))

/-- R23: the fields of STATUS at their bits, the reserved bits 0, BUSY 1 exactly when XSTATE is not 0 (R44); the codes of the eight
sequencer states (R44) and of the twelve errors (R127). -/
def Obligations.StatusReadsItsFields : Prop :=
  (∀ s : State,
    s.statusWord.toNat =
      (if s.xstate = .idle then 0 else 1) + 2 * s.done.toNat + 4 * s.rej.toNat + 8 * s.werr.toNat + 16 * s.rxOvf.toNat
        + 32 * s.rxPerr.toNat + 64 * s.rxFerr.toNat + 256 * s.errcode.code.toNat + 4096 * s.lastErr.code.toNat
        + 65536 * s.xstate.code.toNat + 1048576 * s.attempt.toNat) ∧
  [XState.idle, .wakeTx, .settle, .frameTx, .postWait, .accum, .retryWait, .codec].map (fun x => x.code.toNat) =
    [0, 1, 2, 3, 4, 5, 6, 7] ∧
  [ErrCode.ok, .invalidAddress, .frameTooShort, .invalidFrameMarkers, .invalidSecondStart, .lengthMismatch,
    .checksumMismatch, .noResponse, .dataTooLong, .badCommand, .badFrameLength, .badConfig].map (fun e => e.code.toNat) =
    [0, 1, 2, 3, 4, 5, 6, 7, 8, 9, 10, 11]

/-- R23: a write of STATUS clears each W1C bit written 1 and leaves every other bit and field, BUSY or not. -/
def Obligations.StatusWriteClearsItsOnes : Prop :=
  ∀ (s : State) (w : Word) (lat : Nat),
    s.hostWrite 0x00C#11 .four w lat =
      .next { s with
        done := s.done && !w.getLsbD 1, rej := s.rej && !w.getLsbD 2, werr := s.werr && !w.getLsbD 3
        rxOvf := s.rxOvf && !w.getLsbD 4, rxPerr := s.rxPerr && !w.getLsbD 5, rxFerr := s.rxFerr && !w.getLsbD 6 }

/-- R23, R132: a sticky bit the engine sets in the cycle in which the host writes 1 to it is 1 after the cycle. -/
def Obligations.EngineSetWinsOverHostClear : Prop :=
  ∀ (s t : State) (w : Word) (c : RxChar), s.choice.rstN = true → s.choice.access = some (.write 0x00C#11 .four w) →
    step s = .next t →
    (s.xstate.receiving = true → s.choice.rx = some c →
      (c.perr = true → t.rxPerr = true) ∧ (c.ferr = true → t.rxFerr = true) ∧
      (512 ≤ s.rxLen.toNat → t.rxOvf = true)) ∧
    (s.xstate = .codec → s.pendLat = 0 → decodeWord s.pendWord ≠ .exchange → t.done = true)

/-! ### Time base, receiver, ports -/

/-- R106, R37: every cycle counts the prescaler, whatever the state; a write of TICK_DIV while BUSY is 0 restarts it first. -/
def Obligations.PrescalerCountsEveryCycle : Prop :=
  ∀ s t : State, s.choice.rstN = true → step s = .next t →
    ((∀ w, s.choice.access ≠ some (.write 0x048#11 .four w)) ∨ s.xstate ≠ .idle →
      t.tickDiv = s.tickDiv ∧ t.presc = if s.presc = s.tickDiv then 0#32 else s.presc + 1#32) ∧
    (∀ w, s.choice.access = some (.write 0x048#11 .four w) → s.xstate = .idle →
      t.tickDiv = w ∧ t.presc = if w = 0#32 then 0#32 else 1#32)

/-- R106: a tick occurs once every TICK_DIV + 1 cycles. -/
def Obligations.TicksComeEveryPeriod : Prop :=
  ∀ s : State, s.presc = 0#32 → (∀ j ≤ s.tickDiv.toNat, hostQuiet (s.choiceAt j)) →
    (∀ j ≤ s.tickDiv.toNat, ∀ t, runFor j s = .next t →
      t.presc.toNat = j ∧ t.tickDiv = s.tickDiv ∧ (t.tick = true ↔ j = s.tickDiv.toNat)) ∧
    ∀ t, runFor (s.tickDiv.toNat + 1) s = .next t → t.presc = 0#32 ∧ t.tickDiv = s.tickDiv

/-- R123: outside SETTLE, POST_WAIT and ACCUM a received character has no effect at all. -/
def Obligations.CharactersOutsideReceptionAreDiscarded : Prop :=
  ∀ (s : State) (rx : Option RxChar), s.xstate ≠ .settle → s.xstate ≠ .postWait → s.xstate ≠ .accum →
    step (s.withChosenChar rx) = step (s.withChosenChar none)

/-- R124: a character taken in SETTLE, POST_WAIT or ACCUM: stored at RXBUF[RX_LEN] while there is room, else RX_OVF; its errors
set the sticky bits. -/
def Obligations.TakenCharactersAreStored : Prop :=
  ∀ (s t : State) (c : RxChar), s.xstate = .settle ∨ s.xstate = .postWait ∨ s.xstate = .accum → hostQuiet s.choice →
    s.choice.rx = some c → step s = .next t →
    (s.rxLen.toNat < 512 →
      t.mem.get (0x400 + s.rxLen.toNat) = some c.data ∧ t.rxLen.toNat = s.rxLen.toNat + 1 ∧ t.rxOvf = s.rxOvf ∧
      ∀ i < 512, i ≠ s.rxLen.toNat → t.mem.get (0x400 + i) = s.mem.get (0x400 + i)) ∧
    (512 ≤ s.rxLen.toNat →
      t.rxOvf = true ∧ t.rxLen = s.rxLen ∧ ∀ i < 512, t.mem.get (0x400 + i) = s.mem.get (0x400 + i)) ∧
    t.rxPerr = (s.rxPerr || c.perr) ∧ t.rxFerr = (s.rxFerr || c.ferr)

/-- R120, R121: outside WAKE_TX and FRAME_TX the line idles at 1 and the driver is off; IRQ is CTRL.IE and DONE (R133). -/
def Obligations.PortsIdleOutsideTransmission : Prop :=
  ∀ s : State, (s.xstate ≠ .wakeTx → s.xstate ≠ .frameTx → s.uartTxd = .ok true ∧ s.uartDe = false) ∧
    (s.xstate = .wakeTx ∨ s.xstate = .frameTx → s.uartDe = true) ∧
    (s.irq = true ↔ s.ctrlIe = true ∧ s.done = true)

/-! ### The attempt state machine -/

/-- R110, R120, R121: from its first bit the preamble takes exactly 44 * B cycles, in each of which the line carries the bit of
0xFE due in it and the driver is on; then SETTLE begins with WCNT 0. -/
def Obligations.PreambleTakes44BitTimes : Prop :=
  ∀ (s : State) (B : Nat), s.xstate = .wakeTx → s.txidx = 0#10 → s.txbit = 0#4 → s.txcyc = 0#16 → B = s.baudDiv.toNat →
    1 ≤ B → (∀ j < 44 * B, hostQuiet (s.choiceAt j)) →
    (∀ j < 44 * B, ∃ t, runFor j s = .next t ∧ t.xstate = .wakeTx ∧ t.uartDe = true ∧
      t.uartTxd = .ok (charBit 0xFE#8 (j / B % 11))) ∧
    ∃ t, runFor (44 * B) s = .next t ∧ t.xstate = .settle ∧ t.wcnt = 0#16

/-- R112, R120, R121, R65: from its first bit the frame takes exactly 11 * N * B cycles, in each of which the line carries the bit
of TXBUF due in it, in index order, and the driver is on; then POST_WAIT begins with WCNT 0. -/
def Obligations.FrameTakes11BitTimesAByte : Prop :=
  ∀ (s : State) (B : Nat) (f : List Byte), s.xstate = .frameTx → s.txidx = 0#10 → s.txbit = 0#4 → s.txcyc = 0#16 →
    B = s.baudDiv.toNat → 1 ≤ B → f.length = s.frameLen.toNat → 1 ≤ f.length → f.length ≤ 512 → s.holds .txbuf f →
    (∀ j < 11 * f.length * B, hostQuiet (s.choiceAt j)) →
    (∀ j < 11 * f.length * B, ∃ t, runFor j s = .next t ∧ t.xstate = .frameTx ∧ t.uartDe = true ∧
      t.uartTxd = .ok (charBit (f.getD (j / (11 * B)) 0) (j / B % 11))) ∧
    ∃ t, runFor (11 * f.length * B) s = .next t ∧ t.xstate = .postWait ∧ t.wcnt = 0#16

/-- R111, R113, R117, R109: the three waits, one cycle: the count takes the tick, and the wait ends in the cycle in which it
reaches its field; what the state after it starts with. -/
def Obligations.WaitsEndAtTheirCount : Prop :=
  ∀ s : State, hostQuiet s.choice →
    let n := if s.presc = s.tickDiv ∧ s.wcnt ≠ 0xFFFF#16 then s.wcnt + 1#16 else s.wcnt
    (s.xstate = .settle → ∃ t, step s = .next t ∧
      (s.tSettle.toNat ≤ n.toNat → t.xstate = .frameTx ∧ t.txidx = 0#10 ∧ t.txbit = 0#4 ∧ t.txcyc = 0#16) ∧
      (n.toNat < s.tSettle.toNat → t.xstate = .settle ∧ t.wcnt = n)) ∧
    (s.xstate = .postWait → ∃ t, step s = .next t ∧
      (s.tPostsend.toNat ≤ n.toNat → t.xstate = .accum ∧ t.icnt = 0#16 ∧ t.ccnt = 0#16) ∧
      (n.toNat < s.tPostsend.toNat → t.xstate = .postWait ∧ t.wcnt = n)) ∧
    (s.xstate = .retryWait → ∃ t, step s = .next t ∧
      (s.tRetry.toNat ≤ n.toNat → t.xstate = .wakeTx ∧ t.attempt = s.attempt + 1#4 ∧ t.rxLen = 0#10 ∧ t.txidx = 0#10 ∧
        t.txbit = 0#4 ∧ t.txcyc = 0#16 ∧ t.mem = s.mem) ∧
      (n.toNat < s.tRetry.toNat → t.xstate = .retryWait ∧ t.wcnt = n))

/-- R125 with R106, exactly, for the settle wait, the post-send wait and the retry wait alike: a wait of T ticks, entered with
WCNT 0, lasts 1 cycle for T = 0 and otherwise (T - 1) * (D + 1) cycles after its first tick, which comes after D - PRESC more
cycles. -/
def Obligations.WaitsLastTheirTicks : Prop :=
  ∀ (s : State) (x y : XState) (T : BitVec 16) (len : Nat),
    (x, y, T) ∈ [(XState.settle, XState.frameTx, s.tSettle), (.postWait, .accum, s.tPostsend), (.retryWait, .wakeTx, s.tRetry)] →
    s.xstate = x → s.wcnt = 0#16 → s.presc.toNat ≤ s.tickDiv.toNat →
    len = (if T.toNat = 0 then 1
      else (T.toNat - 1) * (s.tickDiv.toNat + 1) + (s.tickDiv.toNat + 1 - s.presc.toNat)) →
    (∀ j < len, hostQuiet (s.choiceAt j)) →
    (∀ j < len, ∃ t, runFor j s = .next t ∧ t.xstate = x) ∧ ∃ t, runFor len s = .next t ∧ t.xstate = y

/-- R114 to R116: one cycle of ACCUM. `u` is the state after this cycle's character, `ic` and `cc` the counts after its tick. The
response is complete when the inactivity count is reached with a byte held; it is parsed as PARSE RX parses it, success ends the
EXCHANGE with OK, failure ends the attempt with its code; the ceiling ends it with NoResponse while no byte is held; else
accumulation goes on. -/
def Obligations.AccumulationEndsBySilenceOrCeiling : Prop :=
  ∀ s : State, s.Inv → s.xstate = .accum → hostQuiet s.choice →
    let u := s.rxPhase .accum s.choice.rx
    let tk := decide (s.presc = s.tickDiv)
    let ic := if s.choice.rx.isSome then 0#16 else if tk ∧ s.icnt ≠ 0xFFFF#16 then s.icnt + 1#16 else s.icnt
    let cc := if tk ∧ s.ccnt ≠ 0xFFFF#16 then s.ccnt + 1#16 else s.ccnt
    let failed := fun (t : State) (e : ErrCode) =>
      t.lastErr = e ∧ t.rxLen = u.rxLen ∧ t.mem = u.mem ∧
      (s.attempt.toNat < s.maxAttempts.toNat →
        t.xstate = .retryWait ∧ t.wcnt = 0#16 ∧ t.done = false ∧ t.rxCtrl = s.rxCtrl ∧ t.rxL = s.rxL ∧
        t.rxHasDi = s.rxHasDi ∧ t.rxPlen = s.rxPlen ∧ t.rxDi = s.rxDi) ∧
      (s.maxAttempts.toNat ≤ s.attempt.toNat →
        t.xstate = .idle ∧ t.done = true ∧ t.errcode = .noResponse ∧ t.rxCtrl = 0#8 ∧ t.rxL = 0#8 ∧
        t.rxHasDi = false ∧ t.rxPlen = 0#8 ∧ t.rxDi = 0#32)
    ∃ t, step s = .next t ∧ t.attempt = s.attempt ∧
      (u.rxLen ≠ 0#10 → s.tInact.toNat ≤ ic.toNat →
        ∃ v, exec .parseRx u = .next v ∧
          (v.errcode = .ok →
            t.xstate = .idle ∧ t.done = true ∧ t.errcode = .ok ∧ t.lastErr = s.lastErr ∧ t.rxLen = u.rxLen ∧
            t.rxCtrl = v.rxCtrl ∧ t.rxL = v.rxL ∧ t.rxHasDi = v.rxHasDi ∧ t.rxPlen = v.rxPlen ∧ t.rxDi = v.rxDi ∧
            t.mem = v.mem) ∧
          (v.errcode ≠ .ok → failed t v.errcode)) ∧
      (u.rxLen = 0#10 → s.tCeil.toNat ≤ cc.toNat → failed t .noResponse) ∧
      ((u.rxLen ≠ 0#10 ∧ ic.toNat < s.tInact.toNat) ∨ (u.rxLen = 0#10 ∧ cc.toNat < s.tCeil.toNat) →
        t.xstate = .accum ∧ t.icnt = ic ∧ t.ccnt = cc ∧ t.rxLen = u.rxLen ∧ t.mem = u.mem ∧ t.lastErr = s.lastErr)

/-- R125 with R106 and R114, exactly: an attempt that receives nothing ends after T_CEIL ticks of ACCUM. -/
def Obligations.CeilingEndsASilentAttempt : Prop :=
  ∀ (s : State) (len : Nat), s.xstate = .accum → s.rxLen = 0#10 → s.ccnt = 0#16 → s.presc.toNat ≤ s.tickDiv.toNat →
    len = (if s.tCeil.toNat = 0 then 1
      else (s.tCeil.toNat - 1) * (s.tickDiv.toNat + 1) + (s.tickDiv.toNat + 1 - s.presc.toNat)) →
    (∀ j < len, silent (s.choiceAt j)) →
    (∀ j < len, ∃ t, runFor j s = .next t ∧ t.xstate = .accum) ∧
    ∃ t, runFor len s = .next t ∧ t.lastErr = .noResponse ∧
      t.xstate = if s.attempt.toNat < s.maxAttempts.toNat then .retryWait else .idle

/-- R119: with RX_LEN > 0 and a character in every cycle the attempt never ends, for as many cycles as the line babbles. -/
def Obligations.ABabblingLineNeverEnds : Prop :=
  ∀ (s : State) (n : Nat), s.xstate = .accum → s.rxLen ≠ 0#10 → s.tInact ≠ 0#16 →
    (∀ j < n, hostQuiet (s.choiceAt j) ∧ (s.choiceAt j).rx.isSome = true) →
    ∃ t, runFor n s = .next t ∧ t.xstate = .accum ∧ t.busy = true ∧ t.rxLen ≠ 0#10 ∧
      (512 < s.rxLen.toNat + n → s.rxLen.toNat ≤ 512 → t.rxOvf = true)

/-- R118: every change of XSTATE outside reset is one of the table's, or the acceptance and commit of a codec command. -/
def Obligations.OnlyTheTransitionsOfTheTable : Prop :=
  ∀ s t : State, s.Inv → s.choice.rstN = true → step s = .next t →
    (s.xstate, t.xstate) ∈ [(XState.idle, XState.idle), (.idle, .wakeTx), (.idle, .codec), (.codec, .codec), (.codec, .idle),
      (.wakeTx, .wakeTx), (.wakeTx, .settle), (.settle, .settle), (.settle, .frameTx), (.frameTx, .frameTx),
      (.frameTx, .postWait), (.postWait, .postWait), (.postWait, .accum), (.accum, .accum), (.accum, .retryWait),
      (.accum, .idle), (.retryWait, .retryWait), (.retryWait, .wakeTx)]

/-- R108, R116, R126: an EXCHANGE ends with OK or NoResponse; per-attempt causes stand in LAST_ERR only, and NoResponse comes with
ATTEMPT at MAX_ATTEMPTS. -/
def Obligations.ExchangeEndsWithOkOrNoResponse : Prop :=
  ∀ s t : State, s.Inv → s.xstate.inExchange = true → s.choice.rstN = true → step s = .next t → t.xstate = .idle →
    t.done = true ∧ t.attempt = s.attempt ∧
    (t.errcode = .ok ∨
      (t.errcode = .noResponse ∧ t.attempt = t.maxAttempts ∧ t.lastErr ∈ [ErrCode.frameTooShort, .invalidFrameMarkers,
        .invalidSecondStart, .lengthMismatch, .checksumMismatch, .noResponse]))

/-- R108 to R118 together: an EXCHANGE on a silent line, from the first bit of its first preamble, ends within the given number
of cycles with NoResponse after MAX_ATTEMPTS attempts and nothing received. -/
def Obligations.SilentExchangeEndsWithNoResponse : Prop :=
  ∀ (s : State) (f : List Byte) (bound : Nat), s.Inv → s.xstate = .wakeTx → s.txidx = 0#10 → s.txbit = 0#4 →
    s.txcyc = 0#16 → s.attempt = 1#4 → s.rxLen = 0#10 → f.length = s.frameLen.toNat → s.holds .txbuf f →
    bound = s.maxAttempts.toNat * (44 * s.baudDiv.toNat + 11 * s.frameLen.toNat * s.baudDiv.toNat +
      (s.tSettle.toNat + s.tPostsend.toNat + s.tCeil.toNat + s.tRetry.toNat + 4) * (s.tickDiv.toNat + 1)) →
    (∀ j < bound, silent (s.choiceAt j)) →
    ∃ k ≤ bound, ∃ t, runFor k s = .next t ∧ t.xstate = .idle ∧ t.done = true ∧ t.errcode = .noResponse ∧
      t.lastErr = .noResponse ∧ t.attempt = s.maxAttempts ∧ t.rxLen = 0#10 ∧ t.rxDi = 0#32 ∧ t.mem = s.mem

/-! ### Reset and the whole machine -/

/-- R18, R47: the register map at reset, read by the host. -/
def Obligations.RegistersAtReset : Prop :=
  (∀ p ∈ [(0x000#11, 0x06452007#32), (0x004#11, 0x00000000#32), (0x008#11, 0x00000000#32), (0x00C#11, 0x00000000#32),
      (0x010#11, 0x00000000#32), (0x014#11, 0x00000000#32), (0x018#11, 0x00000011#32), (0x01C#11, 0x00000000#32),
      (0x020#11, 0x00000001#32), (0x024#11, 0x00000000#32), (0x028#11, 0x00000000#32), (0x02C#11, 0x00000000#32),
      (0x030#11, 0x00000000#32), (0x034#11, 0x00000000#32), (0x038#11, 0x00000064#32), (0x03C#11, 0x07D000C8#32),
      (0x040#11, 0x01F40003#32), (0x044#11, Config.baudDivReset.setWidth 32), (0x048#11, Config.tickDivReset)],
    State.reset.hostRead p.1 .four = .next { State.reset with rdata := some p.2 }) ∧
  1 ≤ Config.baudDivReset.toNat ∧
  State.reset.presc = 0#32 ∧ State.reset.wcnt = 0#16 ∧ State.reset.icnt = 0#16 ∧ State.reset.ccnt = 0#16 ∧
  State.reset.txidx = 0#10 ∧ State.reset.txbit = 0#4 ∧ State.reset.txcyc = 0#16 ∧ State.reset.pendOp = 0#4 ∧
  State.reset.pendSrc = false ∧ State.reset.pendLat = 0 ∧ State.reset.uartTxd = .ok true ∧ State.reset.uartDe = false ∧
  State.reset.irq = false

/-- R143, R144: a cycle with RST_N low puts every register and hidden state at its reset value and keeps the buffers; a read
answers 0, without a bus error; a command in progress is abandoned. -/
def Obligations.ResetCycleRestoresResetValues : Prop :=
  ∀ s : State, s.choice.rstN = false →
    ∃ t, step s = .next t ∧
      t = { State.reset with mem := s.mem, rdata := t.rdata, inputs := s.inputs.tail, cycle := s.cycle + 1 } ∧
      (∀ off size, s.choice.access = some (.read off size) → t.rdata = some 0#32) ∧
      t.uartTxd = .ok true ∧ t.uartDe = false ∧ t.irq = false

/-- The reset state meets the invariant. -/
def Obligations.ResetMeetsTheInvariant : Prop := State.reset.Inv

/-- Every cycle, whatever the outside chooses, keeps the invariant. -/
def Obligations.StepKeepsTheInvariant : Prop :=
  ∀ s t : State, s.Inv → step s = .next t → t.Inv

/-- A cycle stops only for a bus error or an absent byte: from a state of the invariant in which the operand bytes of every command
hold values (not only those of the command in progress), a cycle whose access is well formed answers a next state. -/
def Obligations.WellUsedMachineNeverStops : Prop :=
  ∀ s : State, s.Inv → s.operandsPresent → (s.choice.rstN = true → s.accessOk s.choice.access) → ∃ t, step s = .next t

/-- No step is refused, and every fault is a bus error of the host's access or a byte no one has written: from a state of the
invariant the byte it names lies in a buffer and holds no value. -/
def Obligations.StepsStopOnlyForTheHostOrAbsentBytes : Prop :=
  ∀ s : State, (∀ r, step s ≠ .refused r) ∧
    (∀ off, step s = .fault (.busError off) →
      ∃ size, target off size = none ∧
        (s.choice.access = some (.read off size) ∨ ∃ w, s.choice.access = some (.write off size w))) ∧
    ∀ a, s.Inv → step s = .fault (.absentByte a) → s.mem.get a = none ∧ (bufAt a).isSome = true

/-- R48, R61: a command's inputs stay fixed while it is in progress, whatever the host does: the configuration registers, PAYLOAD
and ADDRSTR in every busy cycle, in an EXCHANGE also the address, FRAME_LEN and TXBUF, and before the commit of a codec command
also the address, FRAME_LEN, RX_LEN and every buffer byte, the command staying pending. -/
def Obligations.InputsAreFixedWhileBusy : Prop :=
  ∀ s t : State, s.xstate ≠ .idle → s.choice.rstN = true → step s = .next t →
    (t.ctrlcode = s.ctrlcode ∧ t.di = s.di ∧ t.hasDi = s.hasDi ∧ t.plen = s.plen ∧ t.addrstrLen = s.addrstrLen ∧
      t.tSettle = s.tSettle ∧ t.tPostsend = s.tPostsend ∧ t.tInact = s.tInact ∧ t.tCeil = s.tCeil ∧
      t.maxAttempts = s.maxAttempts ∧ t.tRetry = s.tRetry ∧ t.baudDiv = s.baudDiv ∧ t.tickDiv = s.tickDiv ∧
      (∀ i < 256, t.mem.get (0x100 + i) = s.mem.get (0x100 + i)) ∧
      ∀ i < 16, t.mem.get (0x700 + i) = s.mem.get (0x700 + i)) ∧
    (s.xstate.inExchange = true →
      t.addrLo = s.addrLo ∧ t.addrHi = s.addrHi ∧ t.frameLen = s.frameLen ∧
      ∀ i < 512, t.mem.get (0x200 + i) = s.mem.get (0x200 + i)) ∧
    (s.xstate = .codec → 0 < s.pendLat →
      t.addrLo = s.addrLo ∧ t.addrHi = s.addrHi ∧ t.frameLen = s.frameLen ∧ t.rxLen = s.rxLen ∧ t.mem = s.mem ∧
      t.xstate = .codec ∧ t.pendOp = s.pendOp ∧ t.pendSrc = s.pendSrc)

/-- R133 to R135: a completion raises IRQ if CTRL.IE is 1; the host's 1 to DONE lowers it, and so does the acceptance of the next
command that does not complete in its own cycle: an EXCHANGE that starts, a codec command with a latency above 0. -/
def Obligations.CompletionRaisesAndAcknowledgeLowersIrq : Prop :=
  (∀ (s : State) (e : ErrCode), (s.complete e).irq = s.ctrlIe ∧ (s.complete e).errcode = e ∧ (s.complete e).busy = false) ∧
  (∀ s t : State, s.xstate = .idle → s.choice.rstN = true → s.choice.access = some (.write 0x00C#11 .four 0x00000002#32) →
    step s = .next t → t.irq = false ∧ t.errcode = s.errcode) ∧
  (∀ s t : State, s.xstate = .idle → s.writesCmd (encode .exchange) → 1 ≤ s.frameLen.toNat → s.frameLen.toNat ≤ 512 →
    1 ≤ s.baudDiv.toNat → 1 ≤ s.maxAttempts.toNat → step s = .next t → t.irq = false ∧ t.busy = true) ∧
  ∀ (s t : State) (i : Instr), i ∈ [Instr.nop, .addrEncode, .build, .parseRx, .parseTx] → s.xstate = .idle →
    s.writesCmd (encode i) → 0 < drawnLatency s.choice.latDraw Config.codecMaxLat → step s = .next t →
    t.irq = false ∧ t.busy = true
end

