-- ==== Sys2Proof/Laws/State.lean ====
section
/-! SUPPORT. What each named update of the state leaves in each field. -/

namespace Sys2Proof.Machine

variable (s : State)

@[simp] theorem State.complete_ctrlIe (e : ErrCode) : (s.complete e).ctrlIe = s.ctrlIe := rfl
@[simp] theorem State.complete_done (e : ErrCode) : (s.complete e).done = true := rfl
@[simp] theorem State.complete_rej (e : ErrCode) : (s.complete e).rej = s.rej := rfl
@[simp] theorem State.complete_werr (e : ErrCode) : (s.complete e).werr = s.werr := rfl
@[simp] theorem State.complete_rxOvf (e : ErrCode) : (s.complete e).rxOvf = s.rxOvf := rfl
@[simp] theorem State.complete_rxPerr (e : ErrCode) : (s.complete e).rxPerr = s.rxPerr := rfl
@[simp] theorem State.complete_rxFerr (e : ErrCode) : (s.complete e).rxFerr = s.rxFerr := rfl
@[simp] theorem State.complete_errcode (e : ErrCode) : (s.complete e).errcode = e := rfl
@[simp] theorem State.complete_lastErr (e : ErrCode) : (s.complete e).lastErr = s.lastErr := rfl
@[simp] theorem State.complete_xstate (e : ErrCode) : (s.complete e).xstate = .idle := rfl
@[simp] theorem State.complete_attempt (e : ErrCode) : (s.complete e).attempt = s.attempt := rfl
@[simp] theorem State.complete_addrLo (e : ErrCode) : (s.complete e).addrLo = s.addrLo := rfl
@[simp] theorem State.complete_addrHi (e : ErrCode) : (s.complete e).addrHi = s.addrHi := rfl
@[simp] theorem State.complete_ctrlcode (e : ErrCode) : (s.complete e).ctrlcode = s.ctrlcode := rfl
@[simp] theorem State.complete_di (e : ErrCode) : (s.complete e).di = s.di := rfl
@[simp] theorem State.complete_hasDi (e : ErrCode) : (s.complete e).hasDi = s.hasDi := rfl
@[simp] theorem State.complete_plen (e : ErrCode) : (s.complete e).plen = s.plen := rfl
@[simp] theorem State.complete_frameLen (e : ErrCode) : (s.complete e).frameLen = s.frameLen := rfl
@[simp] theorem State.complete_rxLen (e : ErrCode) : (s.complete e).rxLen = s.rxLen := rfl
@[simp] theorem State.complete_rxCtrl (e : ErrCode) : (s.complete e).rxCtrl = s.rxCtrl := rfl
@[simp] theorem State.complete_rxL (e : ErrCode) : (s.complete e).rxL = s.rxL := rfl
@[simp] theorem State.complete_rxHasDi (e : ErrCode) : (s.complete e).rxHasDi = s.rxHasDi := rfl
@[simp] theorem State.complete_rxPlen (e : ErrCode) : (s.complete e).rxPlen = s.rxPlen := rfl
@[simp] theorem State.complete_rxDi (e : ErrCode) : (s.complete e).rxDi = s.rxDi := rfl
@[simp] theorem State.complete_addrstrLen (e : ErrCode) : (s.complete e).addrstrLen = s.addrstrLen := rfl
@[simp] theorem State.complete_tSettle (e : ErrCode) : (s.complete e).tSettle = s.tSettle := rfl
@[simp] theorem State.complete_tPostsend (e : ErrCode) : (s.complete e).tPostsend = s.tPostsend := rfl
@[simp] theorem State.complete_tInact (e : ErrCode) : (s.complete e).tInact = s.tInact := rfl
@[simp] theorem State.complete_tCeil (e : ErrCode) : (s.complete e).tCeil = s.tCeil := rfl
@[simp] theorem State.complete_maxAttempts (e : ErrCode) : (s.complete e).maxAttempts = s.maxAttempts := rfl
@[simp] theorem State.complete_tRetry (e : ErrCode) : (s.complete e).tRetry = s.tRetry := rfl
@[simp] theorem State.complete_baudDiv (e : ErrCode) : (s.complete e).baudDiv = s.baudDiv := rfl
@[simp] theorem State.complete_tickDiv (e : ErrCode) : (s.complete e).tickDiv = s.tickDiv := rfl
@[simp] theorem State.complete_presc (e : ErrCode) : (s.complete e).presc = s.presc := rfl
@[simp] theorem State.complete_wcnt (e : ErrCode) : (s.complete e).wcnt = s.wcnt := rfl
@[simp] theorem State.complete_icnt (e : ErrCode) : (s.complete e).icnt = s.icnt := rfl
@[simp] theorem State.complete_ccnt (e : ErrCode) : (s.complete e).ccnt = s.ccnt := rfl
@[simp] theorem State.complete_txidx (e : ErrCode) : (s.complete e).txidx = s.txidx := rfl
@[simp] theorem State.complete_txbit (e : ErrCode) : (s.complete e).txbit = s.txbit := rfl
@[simp] theorem State.complete_txcyc (e : ErrCode) : (s.complete e).txcyc = s.txcyc := rfl
@[simp] theorem State.complete_pendOp (e : ErrCode) : (s.complete e).pendOp = 0#4 := rfl
@[simp] theorem State.complete_pendSrc (e : ErrCode) : (s.complete e).pendSrc = s.pendSrc := rfl
@[simp] theorem State.complete_pendLat (e : ErrCode) : (s.complete e).pendLat = 0 := rfl
@[simp] theorem State.complete_mem (e : ErrCode) : (s.complete e).mem = s.mem := rfl
@[simp] theorem State.complete_rdata (e : ErrCode) : (s.complete e).rdata = s.rdata := rfl
@[simp] theorem State.complete_inputs (e : ErrCode) : (s.complete e).inputs = s.inputs := rfl
@[simp] theorem State.complete_cycle (e : ErrCode) : (s.complete e).cycle = s.cycle := rfl

@[simp] theorem State.answer_ctrlIe (d : Option Word) : (s.answer d).ctrlIe = s.ctrlIe := rfl
@[simp] theorem State.answer_done (d : Option Word) : (s.answer d).done = s.done := rfl
@[simp] theorem State.answer_rej (d : Option Word) : (s.answer d).rej = s.rej := rfl
@[simp] theorem State.answer_werr (d : Option Word) : (s.answer d).werr = s.werr := rfl
@[simp] theorem State.answer_rxOvf (d : Option Word) : (s.answer d).rxOvf = s.rxOvf := rfl
@[simp] theorem State.answer_rxPerr (d : Option Word) : (s.answer d).rxPerr = s.rxPerr := rfl
@[simp] theorem State.answer_rxFerr (d : Option Word) : (s.answer d).rxFerr = s.rxFerr := rfl
@[simp] theorem State.answer_errcode (d : Option Word) : (s.answer d).errcode = s.errcode := rfl
@[simp] theorem State.answer_lastErr (d : Option Word) : (s.answer d).lastErr = s.lastErr := rfl
@[simp] theorem State.answer_xstate (d : Option Word) : (s.answer d).xstate = s.xstate := rfl
@[simp] theorem State.answer_attempt (d : Option Word) : (s.answer d).attempt = s.attempt := rfl
@[simp] theorem State.answer_addrLo (d : Option Word) : (s.answer d).addrLo = s.addrLo := rfl
@[simp] theorem State.answer_addrHi (d : Option Word) : (s.answer d).addrHi = s.addrHi := rfl
@[simp] theorem State.answer_ctrlcode (d : Option Word) : (s.answer d).ctrlcode = s.ctrlcode := rfl
@[simp] theorem State.answer_di (d : Option Word) : (s.answer d).di = s.di := rfl
@[simp] theorem State.answer_hasDi (d : Option Word) : (s.answer d).hasDi = s.hasDi := rfl
@[simp] theorem State.answer_plen (d : Option Word) : (s.answer d).plen = s.plen := rfl
@[simp] theorem State.answer_frameLen (d : Option Word) : (s.answer d).frameLen = s.frameLen := rfl
@[simp] theorem State.answer_rxLen (d : Option Word) : (s.answer d).rxLen = s.rxLen := rfl
@[simp] theorem State.answer_rxCtrl (d : Option Word) : (s.answer d).rxCtrl = s.rxCtrl := rfl
@[simp] theorem State.answer_rxL (d : Option Word) : (s.answer d).rxL = s.rxL := rfl
@[simp] theorem State.answer_rxHasDi (d : Option Word) : (s.answer d).rxHasDi = s.rxHasDi := rfl
@[simp] theorem State.answer_rxPlen (d : Option Word) : (s.answer d).rxPlen = s.rxPlen := rfl
@[simp] theorem State.answer_rxDi (d : Option Word) : (s.answer d).rxDi = s.rxDi := rfl
@[simp] theorem State.answer_addrstrLen (d : Option Word) : (s.answer d).addrstrLen = s.addrstrLen := rfl
@[simp] theorem State.answer_tSettle (d : Option Word) : (s.answer d).tSettle = s.tSettle := rfl
@[simp] theorem State.answer_tPostsend (d : Option Word) : (s.answer d).tPostsend = s.tPostsend := rfl
@[simp] theorem State.answer_tInact (d : Option Word) : (s.answer d).tInact = s.tInact := rfl
@[simp] theorem State.answer_tCeil (d : Option Word) : (s.answer d).tCeil = s.tCeil := rfl
@[simp] theorem State.answer_maxAttempts (d : Option Word) : (s.answer d).maxAttempts = s.maxAttempts := rfl
@[simp] theorem State.answer_tRetry (d : Option Word) : (s.answer d).tRetry = s.tRetry := rfl
@[simp] theorem State.answer_baudDiv (d : Option Word) : (s.answer d).baudDiv = s.baudDiv := rfl
@[simp] theorem State.answer_tickDiv (d : Option Word) : (s.answer d).tickDiv = s.tickDiv := rfl
@[simp] theorem State.answer_presc (d : Option Word) : (s.answer d).presc = s.presc := rfl
@[simp] theorem State.answer_wcnt (d : Option Word) : (s.answer d).wcnt = s.wcnt := rfl
@[simp] theorem State.answer_icnt (d : Option Word) : (s.answer d).icnt = s.icnt := rfl
@[simp] theorem State.answer_ccnt (d : Option Word) : (s.answer d).ccnt = s.ccnt := rfl
@[simp] theorem State.answer_txidx (d : Option Word) : (s.answer d).txidx = s.txidx := rfl
@[simp] theorem State.answer_txbit (d : Option Word) : (s.answer d).txbit = s.txbit := rfl
@[simp] theorem State.answer_txcyc (d : Option Word) : (s.answer d).txcyc = s.txcyc := rfl
@[simp] theorem State.answer_pendOp (d : Option Word) : (s.answer d).pendOp = s.pendOp := rfl
@[simp] theorem State.answer_pendSrc (d : Option Word) : (s.answer d).pendSrc = s.pendSrc := rfl
@[simp] theorem State.answer_pendLat (d : Option Word) : (s.answer d).pendLat = s.pendLat := rfl
@[simp] theorem State.answer_mem (d : Option Word) : (s.answer d).mem = s.mem := rfl
@[simp] theorem State.answer_rdata (d : Option Word) : (s.answer d).rdata = d := rfl
@[simp] theorem State.answer_inputs (d : Option Word) : (s.answer d).inputs = s.inputs := rfl
@[simp] theorem State.answer_cycle (d : Option Word) : (s.answer d).cycle = s.cycle := rfl

@[simp] theorem State.acknowledge_ctrlIe : s.acknowledge.ctrlIe = s.ctrlIe := rfl
@[simp] theorem State.acknowledge_done : s.acknowledge.done = false := rfl
@[simp] theorem State.acknowledge_rej : s.acknowledge.rej = s.rej := rfl
@[simp] theorem State.acknowledge_werr : s.acknowledge.werr = s.werr := rfl
@[simp] theorem State.acknowledge_rxOvf : s.acknowledge.rxOvf = s.rxOvf := rfl
@[simp] theorem State.acknowledge_rxPerr : s.acknowledge.rxPerr = s.rxPerr := rfl
@[simp] theorem State.acknowledge_rxFerr : s.acknowledge.rxFerr = s.rxFerr := rfl
@[simp] theorem State.acknowledge_errcode : s.acknowledge.errcode = s.errcode := rfl
@[simp] theorem State.acknowledge_lastErr : s.acknowledge.lastErr = s.lastErr := rfl
@[simp] theorem State.acknowledge_xstate : s.acknowledge.xstate = s.xstate := rfl
@[simp] theorem State.acknowledge_attempt : s.acknowledge.attempt = s.attempt := rfl
@[simp] theorem State.acknowledge_addrLo : s.acknowledge.addrLo = s.addrLo := rfl
@[simp] theorem State.acknowledge_addrHi : s.acknowledge.addrHi = s.addrHi := rfl
@[simp] theorem State.acknowledge_ctrlcode : s.acknowledge.ctrlcode = s.ctrlcode := rfl
@[simp] theorem State.acknowledge_di : s.acknowledge.di = s.di := rfl
@[simp] theorem State.acknowledge_hasDi : s.acknowledge.hasDi = s.hasDi := rfl
@[simp] theorem State.acknowledge_plen : s.acknowledge.plen = s.plen := rfl
@[simp] theorem State.acknowledge_frameLen : s.acknowledge.frameLen = s.frameLen := rfl
@[simp] theorem State.acknowledge_rxLen : s.acknowledge.rxLen = s.rxLen := rfl
@[simp] theorem State.acknowledge_rxCtrl : s.acknowledge.rxCtrl = s.rxCtrl := rfl
@[simp] theorem State.acknowledge_rxL : s.acknowledge.rxL = s.rxL := rfl
@[simp] theorem State.acknowledge_rxHasDi : s.acknowledge.rxHasDi = s.rxHasDi := rfl
@[simp] theorem State.acknowledge_rxPlen : s.acknowledge.rxPlen = s.rxPlen := rfl
@[simp] theorem State.acknowledge_rxDi : s.acknowledge.rxDi = s.rxDi := rfl
@[simp] theorem State.acknowledge_addrstrLen : s.acknowledge.addrstrLen = s.addrstrLen := rfl
@[simp] theorem State.acknowledge_tSettle : s.acknowledge.tSettle = s.tSettle := rfl
@[simp] theorem State.acknowledge_tPostsend : s.acknowledge.tPostsend = s.tPostsend := rfl
@[simp] theorem State.acknowledge_tInact : s.acknowledge.tInact = s.tInact := rfl
@[simp] theorem State.acknowledge_tCeil : s.acknowledge.tCeil = s.tCeil := rfl
@[simp] theorem State.acknowledge_maxAttempts : s.acknowledge.maxAttempts = s.maxAttempts := rfl
@[simp] theorem State.acknowledge_tRetry : s.acknowledge.tRetry = s.tRetry := rfl
@[simp] theorem State.acknowledge_baudDiv : s.acknowledge.baudDiv = s.baudDiv := rfl
@[simp] theorem State.acknowledge_tickDiv : s.acknowledge.tickDiv = s.tickDiv := rfl
@[simp] theorem State.acknowledge_presc : s.acknowledge.presc = s.presc := rfl
@[simp] theorem State.acknowledge_wcnt : s.acknowledge.wcnt = s.wcnt := rfl
@[simp] theorem State.acknowledge_icnt : s.acknowledge.icnt = s.icnt := rfl
@[simp] theorem State.acknowledge_ccnt : s.acknowledge.ccnt = s.ccnt := rfl
@[simp] theorem State.acknowledge_txidx : s.acknowledge.txidx = s.txidx := rfl
@[simp] theorem State.acknowledge_txbit : s.acknowledge.txbit = s.txbit := rfl
@[simp] theorem State.acknowledge_txcyc : s.acknowledge.txcyc = s.txcyc := rfl
@[simp] theorem State.acknowledge_pendOp : s.acknowledge.pendOp = s.pendOp := rfl
@[simp] theorem State.acknowledge_pendSrc : s.acknowledge.pendSrc = s.pendSrc := rfl
@[simp] theorem State.acknowledge_pendLat : s.acknowledge.pendLat = s.pendLat := rfl
@[simp] theorem State.acknowledge_mem : s.acknowledge.mem = s.mem := rfl
@[simp] theorem State.acknowledge_rdata : s.acknowledge.rdata = s.rdata := rfl
@[simp] theorem State.acknowledge_inputs : s.acknowledge.inputs = s.inputs := rfl
@[simp] theorem State.acknowledge_cycle : s.acknowledge.cycle = s.cycle := rfl

@[simp] theorem State.acceptClear_ctrlIe : s.acceptClear.ctrlIe = s.ctrlIe := rfl
@[simp] theorem State.acceptClear_done : s.acceptClear.done = false := rfl
@[simp] theorem State.acceptClear_rej : s.acceptClear.rej = s.rej := rfl
@[simp] theorem State.acceptClear_werr : s.acceptClear.werr = s.werr := rfl
@[simp] theorem State.acceptClear_rxOvf : s.acceptClear.rxOvf = s.rxOvf := rfl
@[simp] theorem State.acceptClear_rxPerr : s.acceptClear.rxPerr = s.rxPerr := rfl
@[simp] theorem State.acceptClear_rxFerr : s.acceptClear.rxFerr = s.rxFerr := rfl
@[simp] theorem State.acceptClear_errcode : s.acceptClear.errcode = .ok := rfl
@[simp] theorem State.acceptClear_lastErr : s.acceptClear.lastErr = s.lastErr := rfl
@[simp] theorem State.acceptClear_xstate : s.acceptClear.xstate = s.xstate := rfl
@[simp] theorem State.acceptClear_attempt : s.acceptClear.attempt = s.attempt := rfl
@[simp] theorem State.acceptClear_addrLo : s.acceptClear.addrLo = s.addrLo := rfl
@[simp] theorem State.acceptClear_addrHi : s.acceptClear.addrHi = s.addrHi := rfl
@[simp] theorem State.acceptClear_ctrlcode : s.acceptClear.ctrlcode = s.ctrlcode := rfl
@[simp] theorem State.acceptClear_di : s.acceptClear.di = s.di := rfl
@[simp] theorem State.acceptClear_hasDi : s.acceptClear.hasDi = s.hasDi := rfl
@[simp] theorem State.acceptClear_plen : s.acceptClear.plen = s.plen := rfl
@[simp] theorem State.acceptClear_frameLen : s.acceptClear.frameLen = s.frameLen := rfl
@[simp] theorem State.acceptClear_rxLen : s.acceptClear.rxLen = s.rxLen := rfl
@[simp] theorem State.acceptClear_rxCtrl : s.acceptClear.rxCtrl = s.rxCtrl := rfl
@[simp] theorem State.acceptClear_rxL : s.acceptClear.rxL = s.rxL := rfl
@[simp] theorem State.acceptClear_rxHasDi : s.acceptClear.rxHasDi = s.rxHasDi := rfl
@[simp] theorem State.acceptClear_rxPlen : s.acceptClear.rxPlen = s.rxPlen := rfl
@[simp] theorem State.acceptClear_rxDi : s.acceptClear.rxDi = s.rxDi := rfl
@[simp] theorem State.acceptClear_addrstrLen : s.acceptClear.addrstrLen = s.addrstrLen := rfl
@[simp] theorem State.acceptClear_tSettle : s.acceptClear.tSettle = s.tSettle := rfl
@[simp] theorem State.acceptClear_tPostsend : s.acceptClear.tPostsend = s.tPostsend := rfl
@[simp] theorem State.acceptClear_tInact : s.acceptClear.tInact = s.tInact := rfl
@[simp] theorem State.acceptClear_tCeil : s.acceptClear.tCeil = s.tCeil := rfl
@[simp] theorem State.acceptClear_maxAttempts : s.acceptClear.maxAttempts = s.maxAttempts := rfl
@[simp] theorem State.acceptClear_tRetry : s.acceptClear.tRetry = s.tRetry := rfl
@[simp] theorem State.acceptClear_baudDiv : s.acceptClear.baudDiv = s.baudDiv := rfl
@[simp] theorem State.acceptClear_tickDiv : s.acceptClear.tickDiv = s.tickDiv := rfl
@[simp] theorem State.acceptClear_presc : s.acceptClear.presc = s.presc := rfl
@[simp] theorem State.acceptClear_wcnt : s.acceptClear.wcnt = s.wcnt := rfl
@[simp] theorem State.acceptClear_icnt : s.acceptClear.icnt = s.icnt := rfl
@[simp] theorem State.acceptClear_ccnt : s.acceptClear.ccnt = s.ccnt := rfl
@[simp] theorem State.acceptClear_txidx : s.acceptClear.txidx = s.txidx := rfl
@[simp] theorem State.acceptClear_txbit : s.acceptClear.txbit = s.txbit := rfl
@[simp] theorem State.acceptClear_txcyc : s.acceptClear.txcyc = s.txcyc := rfl
@[simp] theorem State.acceptClear_pendOp : s.acceptClear.pendOp = s.pendOp := rfl
@[simp] theorem State.acceptClear_pendSrc : s.acceptClear.pendSrc = s.pendSrc := rfl
@[simp] theorem State.acceptClear_pendLat : s.acceptClear.pendLat = s.pendLat := rfl
@[simp] theorem State.acceptClear_mem : s.acceptClear.mem = s.mem := rfl
@[simp] theorem State.acceptClear_rdata : s.acceptClear.rdata = s.rdata := rfl
@[simp] theorem State.acceptClear_inputs : s.acceptClear.inputs = s.inputs := rfl
@[simp] theorem State.acceptClear_cycle : s.acceptClear.cycle = s.cycle := rfl

@[simp] theorem State.codecStart_ctrlIe (w : Word) (n : Nat) : (s.codecStart w n).ctrlIe = s.ctrlIe := rfl
@[simp] theorem State.codecStart_done (w : Word) (n : Nat) : (s.codecStart w n).done = s.done := rfl
@[simp] theorem State.codecStart_rej (w : Word) (n : Nat) : (s.codecStart w n).rej = s.rej := rfl
@[simp] theorem State.codecStart_werr (w : Word) (n : Nat) : (s.codecStart w n).werr = s.werr := rfl
@[simp] theorem State.codecStart_rxOvf (w : Word) (n : Nat) : (s.codecStart w n).rxOvf = s.rxOvf := rfl
@[simp] theorem State.codecStart_rxPerr (w : Word) (n : Nat) : (s.codecStart w n).rxPerr = s.rxPerr := rfl
@[simp] theorem State.codecStart_rxFerr (w : Word) (n : Nat) : (s.codecStart w n).rxFerr = s.rxFerr := rfl
@[simp] theorem State.codecStart_errcode (w : Word) (n : Nat) : (s.codecStart w n).errcode = s.errcode := rfl
@[simp] theorem State.codecStart_lastErr (w : Word) (n : Nat) : (s.codecStart w n).lastErr = s.lastErr := rfl
@[simp] theorem State.codecStart_xstate (w : Word) (n : Nat) : (s.codecStart w n).xstate = .codec := rfl
@[simp] theorem State.codecStart_attempt (w : Word) (n : Nat) : (s.codecStart w n).attempt = s.attempt := rfl
@[simp] theorem State.codecStart_addrLo (w : Word) (n : Nat) : (s.codecStart w n).addrLo = s.addrLo := rfl
@[simp] theorem State.codecStart_addrHi (w : Word) (n : Nat) : (s.codecStart w n).addrHi = s.addrHi := rfl
@[simp] theorem State.codecStart_ctrlcode (w : Word) (n : Nat) : (s.codecStart w n).ctrlcode = s.ctrlcode := rfl
@[simp] theorem State.codecStart_di (w : Word) (n : Nat) : (s.codecStart w n).di = s.di := rfl
@[simp] theorem State.codecStart_hasDi (w : Word) (n : Nat) : (s.codecStart w n).hasDi = s.hasDi := rfl
@[simp] theorem State.codecStart_plen (w : Word) (n : Nat) : (s.codecStart w n).plen = s.plen := rfl
@[simp] theorem State.codecStart_frameLen (w : Word) (n : Nat) : (s.codecStart w n).frameLen = s.frameLen := rfl
@[simp] theorem State.codecStart_rxLen (w : Word) (n : Nat) : (s.codecStart w n).rxLen = s.rxLen := rfl
@[simp] theorem State.codecStart_rxCtrl (w : Word) (n : Nat) : (s.codecStart w n).rxCtrl = s.rxCtrl := rfl
@[simp] theorem State.codecStart_rxL (w : Word) (n : Nat) : (s.codecStart w n).rxL = s.rxL := rfl
@[simp] theorem State.codecStart_rxHasDi (w : Word) (n : Nat) : (s.codecStart w n).rxHasDi = s.rxHasDi := rfl
@[simp] theorem State.codecStart_rxPlen (w : Word) (n : Nat) : (s.codecStart w n).rxPlen = s.rxPlen := rfl
@[simp] theorem State.codecStart_rxDi (w : Word) (n : Nat) : (s.codecStart w n).rxDi = s.rxDi := rfl
@[simp] theorem State.codecStart_addrstrLen (w : Word) (n : Nat) : (s.codecStart w n).addrstrLen = s.addrstrLen := rfl
@[simp] theorem State.codecStart_tSettle (w : Word) (n : Nat) : (s.codecStart w n).tSettle = s.tSettle := rfl
@[simp] theorem State.codecStart_tPostsend (w : Word) (n : Nat) : (s.codecStart w n).tPostsend = s.tPostsend := rfl
@[simp] theorem State.codecStart_tInact (w : Word) (n : Nat) : (s.codecStart w n).tInact = s.tInact := rfl
@[simp] theorem State.codecStart_tCeil (w : Word) (n : Nat) : (s.codecStart w n).tCeil = s.tCeil := rfl
@[simp] theorem State.codecStart_maxAttempts (w : Word) (n : Nat) : (s.codecStart w n).maxAttempts = s.maxAttempts := rfl
@[simp] theorem State.codecStart_tRetry (w : Word) (n : Nat) : (s.codecStart w n).tRetry = s.tRetry := rfl
@[simp] theorem State.codecStart_baudDiv (w : Word) (n : Nat) : (s.codecStart w n).baudDiv = s.baudDiv := rfl
@[simp] theorem State.codecStart_tickDiv (w : Word) (n : Nat) : (s.codecStart w n).tickDiv = s.tickDiv := rfl
@[simp] theorem State.codecStart_presc (w : Word) (n : Nat) : (s.codecStart w n).presc = s.presc := rfl
@[simp] theorem State.codecStart_wcnt (w : Word) (n : Nat) : (s.codecStart w n).wcnt = s.wcnt := rfl
@[simp] theorem State.codecStart_icnt (w : Word) (n : Nat) : (s.codecStart w n).icnt = s.icnt := rfl
@[simp] theorem State.codecStart_ccnt (w : Word) (n : Nat) : (s.codecStart w n).ccnt = s.ccnt := rfl
@[simp] theorem State.codecStart_txidx (w : Word) (n : Nat) : (s.codecStart w n).txidx = s.txidx := rfl
@[simp] theorem State.codecStart_txbit (w : Word) (n : Nat) : (s.codecStart w n).txbit = s.txbit := rfl
@[simp] theorem State.codecStart_txcyc (w : Word) (n : Nat) : (s.codecStart w n).txcyc = s.txcyc := rfl
@[simp] theorem State.codecStart_pendOp (w : Word) (n : Nat) : (s.codecStart w n).pendOp = opField w := rfl
@[simp] theorem State.codecStart_pendSrc (w : Word) (n : Nat) : (s.codecStart w n).pendSrc = srcField w := rfl
@[simp] theorem State.codecStart_pendLat (w : Word) (n : Nat) : (s.codecStart w n).pendLat = n := rfl
@[simp] theorem State.codecStart_mem (w : Word) (n : Nat) : (s.codecStart w n).mem = s.mem := rfl
@[simp] theorem State.codecStart_rdata (w : Word) (n : Nat) : (s.codecStart w n).rdata = s.rdata := rfl
@[simp] theorem State.codecStart_inputs (w : Word) (n : Nat) : (s.codecStart w n).inputs = s.inputs := rfl
@[simp] theorem State.codecStart_cycle (w : Word) (n : Nat) : (s.codecStart w n).cycle = s.cycle := rfl

@[simp] theorem State.startAttempt_ctrlIe : s.startAttempt.ctrlIe = s.ctrlIe := rfl
@[simp] theorem State.startAttempt_done : s.startAttempt.done = s.done := rfl
@[simp] theorem State.startAttempt_rej : s.startAttempt.rej = s.rej := rfl
@[simp] theorem State.startAttempt_werr : s.startAttempt.werr = s.werr := rfl
@[simp] theorem State.startAttempt_rxOvf : s.startAttempt.rxOvf = s.rxOvf := rfl
@[simp] theorem State.startAttempt_rxPerr : s.startAttempt.rxPerr = s.rxPerr := rfl
@[simp] theorem State.startAttempt_rxFerr : s.startAttempt.rxFerr = s.rxFerr := rfl
@[simp] theorem State.startAttempt_errcode : s.startAttempt.errcode = s.errcode := rfl
@[simp] theorem State.startAttempt_lastErr : s.startAttempt.lastErr = s.lastErr := rfl
@[simp] theorem State.startAttempt_xstate : s.startAttempt.xstate = .wakeTx := rfl
@[simp] theorem State.startAttempt_attempt : s.startAttempt.attempt = s.attempt + 1#4 := rfl
@[simp] theorem State.startAttempt_addrLo : s.startAttempt.addrLo = s.addrLo := rfl
@[simp] theorem State.startAttempt_addrHi : s.startAttempt.addrHi = s.addrHi := rfl
@[simp] theorem State.startAttempt_ctrlcode : s.startAttempt.ctrlcode = s.ctrlcode := rfl
@[simp] theorem State.startAttempt_di : s.startAttempt.di = s.di := rfl
@[simp] theorem State.startAttempt_hasDi : s.startAttempt.hasDi = s.hasDi := rfl
@[simp] theorem State.startAttempt_plen : s.startAttempt.plen = s.plen := rfl
@[simp] theorem State.startAttempt_frameLen : s.startAttempt.frameLen = s.frameLen := rfl
@[simp] theorem State.startAttempt_rxLen : s.startAttempt.rxLen = 0#10 := rfl
@[simp] theorem State.startAttempt_rxCtrl : s.startAttempt.rxCtrl = s.rxCtrl := rfl
@[simp] theorem State.startAttempt_rxL : s.startAttempt.rxL = s.rxL := rfl
@[simp] theorem State.startAttempt_rxHasDi : s.startAttempt.rxHasDi = s.rxHasDi := rfl
@[simp] theorem State.startAttempt_rxPlen : s.startAttempt.rxPlen = s.rxPlen := rfl
@[simp] theorem State.startAttempt_rxDi : s.startAttempt.rxDi = s.rxDi := rfl
@[simp] theorem State.startAttempt_addrstrLen : s.startAttempt.addrstrLen = s.addrstrLen := rfl
@[simp] theorem State.startAttempt_tSettle : s.startAttempt.tSettle = s.tSettle := rfl
@[simp] theorem State.startAttempt_tPostsend : s.startAttempt.tPostsend = s.tPostsend := rfl
@[simp] theorem State.startAttempt_tInact : s.startAttempt.tInact = s.tInact := rfl
@[simp] theorem State.startAttempt_tCeil : s.startAttempt.tCeil = s.tCeil := rfl
@[simp] theorem State.startAttempt_maxAttempts : s.startAttempt.maxAttempts = s.maxAttempts := rfl
@[simp] theorem State.startAttempt_tRetry : s.startAttempt.tRetry = s.tRetry := rfl
@[simp] theorem State.startAttempt_baudDiv : s.startAttempt.baudDiv = s.baudDiv := rfl
@[simp] theorem State.startAttempt_tickDiv : s.startAttempt.tickDiv = s.tickDiv := rfl
@[simp] theorem State.startAttempt_presc : s.startAttempt.presc = s.presc := rfl
@[simp] theorem State.startAttempt_wcnt : s.startAttempt.wcnt = s.wcnt := rfl
@[simp] theorem State.startAttempt_icnt : s.startAttempt.icnt = s.icnt := rfl
@[simp] theorem State.startAttempt_ccnt : s.startAttempt.ccnt = s.ccnt := rfl
@[simp] theorem State.startAttempt_txidx : s.startAttempt.txidx = 0#10 := rfl
@[simp] theorem State.startAttempt_txbit : s.startAttempt.txbit = 0#4 := rfl
@[simp] theorem State.startAttempt_txcyc : s.startAttempt.txcyc = 0#16 := rfl
@[simp] theorem State.startAttempt_pendOp : s.startAttempt.pendOp = s.pendOp := rfl
@[simp] theorem State.startAttempt_pendSrc : s.startAttempt.pendSrc = s.pendSrc := rfl
@[simp] theorem State.startAttempt_pendLat : s.startAttempt.pendLat = s.pendLat := rfl
@[simp] theorem State.startAttempt_mem : s.startAttempt.mem = s.mem := rfl
@[simp] theorem State.startAttempt_rdata : s.startAttempt.rdata = s.rdata := rfl
@[simp] theorem State.startAttempt_inputs : s.startAttempt.inputs = s.inputs := rfl
@[simp] theorem State.startAttempt_cycle : s.startAttempt.cycle = s.cycle := rfl

@[simp] theorem State.clearExchange_ctrlIe : s.clearExchange.ctrlIe = s.ctrlIe := rfl
@[simp] theorem State.clearExchange_done : s.clearExchange.done = s.done := rfl
@[simp] theorem State.clearExchange_rej : s.clearExchange.rej = s.rej := rfl
@[simp] theorem State.clearExchange_werr : s.clearExchange.werr = s.werr := rfl
@[simp] theorem State.clearExchange_rxOvf : s.clearExchange.rxOvf = false := rfl
@[simp] theorem State.clearExchange_rxPerr : s.clearExchange.rxPerr = false := rfl
@[simp] theorem State.clearExchange_rxFerr : s.clearExchange.rxFerr = false := rfl
@[simp] theorem State.clearExchange_errcode : s.clearExchange.errcode = s.errcode := rfl
@[simp] theorem State.clearExchange_lastErr : s.clearExchange.lastErr = .ok := rfl
@[simp] theorem State.clearExchange_xstate : s.clearExchange.xstate = s.xstate := rfl
@[simp] theorem State.clearExchange_attempt : s.clearExchange.attempt = 0#4 := rfl
@[simp] theorem State.clearExchange_addrLo : s.clearExchange.addrLo = s.addrLo := rfl
@[simp] theorem State.clearExchange_addrHi : s.clearExchange.addrHi = s.addrHi := rfl
@[simp] theorem State.clearExchange_ctrlcode : s.clearExchange.ctrlcode = s.ctrlcode := rfl
@[simp] theorem State.clearExchange_di : s.clearExchange.di = s.di := rfl
@[simp] theorem State.clearExchange_hasDi : s.clearExchange.hasDi = s.hasDi := rfl
@[simp] theorem State.clearExchange_plen : s.clearExchange.plen = s.plen := rfl
@[simp] theorem State.clearExchange_frameLen : s.clearExchange.frameLen = s.frameLen := rfl
@[simp] theorem State.clearExchange_rxLen : s.clearExchange.rxLen = s.rxLen := rfl
@[simp] theorem State.clearExchange_rxCtrl : s.clearExchange.rxCtrl = s.rxCtrl := rfl
@[simp] theorem State.clearExchange_rxL : s.clearExchange.rxL = s.rxL := rfl
@[simp] theorem State.clearExchange_rxHasDi : s.clearExchange.rxHasDi = s.rxHasDi := rfl
@[simp] theorem State.clearExchange_rxPlen : s.clearExchange.rxPlen = s.rxPlen := rfl
@[simp] theorem State.clearExchange_rxDi : s.clearExchange.rxDi = s.rxDi := rfl
@[simp] theorem State.clearExchange_addrstrLen : s.clearExchange.addrstrLen = s.addrstrLen := rfl
@[simp] theorem State.clearExchange_tSettle : s.clearExchange.tSettle = s.tSettle := rfl
@[simp] theorem State.clearExchange_tPostsend : s.clearExchange.tPostsend = s.tPostsend := rfl
@[simp] theorem State.clearExchange_tInact : s.clearExchange.tInact = s.tInact := rfl
@[simp] theorem State.clearExchange_tCeil : s.clearExchange.tCeil = s.tCeil := rfl
@[simp] theorem State.clearExchange_maxAttempts : s.clearExchange.maxAttempts = s.maxAttempts := rfl
@[simp] theorem State.clearExchange_tRetry : s.clearExchange.tRetry = s.tRetry := rfl
@[simp] theorem State.clearExchange_baudDiv : s.clearExchange.baudDiv = s.baudDiv := rfl
@[simp] theorem State.clearExchange_tickDiv : s.clearExchange.tickDiv = s.tickDiv := rfl
@[simp] theorem State.clearExchange_presc : s.clearExchange.presc = s.presc := rfl
@[simp] theorem State.clearExchange_wcnt : s.clearExchange.wcnt = s.wcnt := rfl
@[simp] theorem State.clearExchange_icnt : s.clearExchange.icnt = s.icnt := rfl
@[simp] theorem State.clearExchange_ccnt : s.clearExchange.ccnt = s.ccnt := rfl
@[simp] theorem State.clearExchange_txidx : s.clearExchange.txidx = s.txidx := rfl
@[simp] theorem State.clearExchange_txbit : s.clearExchange.txbit = s.txbit := rfl
@[simp] theorem State.clearExchange_txcyc : s.clearExchange.txcyc = s.txcyc := rfl
@[simp] theorem State.clearExchange_pendOp : s.clearExchange.pendOp = s.pendOp := rfl
@[simp] theorem State.clearExchange_pendSrc : s.clearExchange.pendSrc = s.pendSrc := rfl
@[simp] theorem State.clearExchange_pendLat : s.clearExchange.pendLat = s.pendLat := rfl
@[simp] theorem State.clearExchange_mem : s.clearExchange.mem = s.mem := rfl
@[simp] theorem State.clearExchange_rdata : s.clearExchange.rdata = s.rdata := rfl
@[simp] theorem State.clearExchange_inputs : s.clearExchange.inputs = s.inputs := rfl
@[simp] theorem State.clearExchange_cycle : s.clearExchange.cycle = s.cycle := rfl

@[simp] theorem State.clearParse_ctrlIe : s.clearParse.ctrlIe = s.ctrlIe := rfl
@[simp] theorem State.clearParse_done : s.clearParse.done = s.done := rfl
@[simp] theorem State.clearParse_rej : s.clearParse.rej = s.rej := rfl
@[simp] theorem State.clearParse_werr : s.clearParse.werr = s.werr := rfl
@[simp] theorem State.clearParse_rxOvf : s.clearParse.rxOvf = s.rxOvf := rfl
@[simp] theorem State.clearParse_rxPerr : s.clearParse.rxPerr = s.rxPerr := rfl
@[simp] theorem State.clearParse_rxFerr : s.clearParse.rxFerr = s.rxFerr := rfl
@[simp] theorem State.clearParse_errcode : s.clearParse.errcode = s.errcode := rfl
@[simp] theorem State.clearParse_lastErr : s.clearParse.lastErr = s.lastErr := rfl
@[simp] theorem State.clearParse_xstate : s.clearParse.xstate = s.xstate := rfl
@[simp] theorem State.clearParse_attempt : s.clearParse.attempt = s.attempt := rfl
@[simp] theorem State.clearParse_addrLo : s.clearParse.addrLo = s.addrLo := rfl
@[simp] theorem State.clearParse_addrHi : s.clearParse.addrHi = s.addrHi := rfl
@[simp] theorem State.clearParse_ctrlcode : s.clearParse.ctrlcode = s.ctrlcode := rfl
@[simp] theorem State.clearParse_di : s.clearParse.di = s.di := rfl
@[simp] theorem State.clearParse_hasDi : s.clearParse.hasDi = s.hasDi := rfl
@[simp] theorem State.clearParse_plen : s.clearParse.plen = s.plen := rfl
@[simp] theorem State.clearParse_frameLen : s.clearParse.frameLen = s.frameLen := rfl
@[simp] theorem State.clearParse_rxLen : s.clearParse.rxLen = s.rxLen := rfl
@[simp] theorem State.clearParse_rxCtrl : s.clearParse.rxCtrl = 0#8 := rfl
@[simp] theorem State.clearParse_rxL : s.clearParse.rxL = 0#8 := rfl
@[simp] theorem State.clearParse_rxHasDi : s.clearParse.rxHasDi = false := rfl
@[simp] theorem State.clearParse_rxPlen : s.clearParse.rxPlen = 0#8 := rfl
@[simp] theorem State.clearParse_rxDi : s.clearParse.rxDi = 0#32 := rfl
@[simp] theorem State.clearParse_addrstrLen : s.clearParse.addrstrLen = s.addrstrLen := rfl
@[simp] theorem State.clearParse_tSettle : s.clearParse.tSettle = s.tSettle := rfl
@[simp] theorem State.clearParse_tPostsend : s.clearParse.tPostsend = s.tPostsend := rfl
@[simp] theorem State.clearParse_tInact : s.clearParse.tInact = s.tInact := rfl
@[simp] theorem State.clearParse_tCeil : s.clearParse.tCeil = s.tCeil := rfl
@[simp] theorem State.clearParse_maxAttempts : s.clearParse.maxAttempts = s.maxAttempts := rfl
@[simp] theorem State.clearParse_tRetry : s.clearParse.tRetry = s.tRetry := rfl
@[simp] theorem State.clearParse_baudDiv : s.clearParse.baudDiv = s.baudDiv := rfl
@[simp] theorem State.clearParse_tickDiv : s.clearParse.tickDiv = s.tickDiv := rfl
@[simp] theorem State.clearParse_presc : s.clearParse.presc = s.presc := rfl
@[simp] theorem State.clearParse_wcnt : s.clearParse.wcnt = s.wcnt := rfl
@[simp] theorem State.clearParse_icnt : s.clearParse.icnt = s.icnt := rfl
@[simp] theorem State.clearParse_ccnt : s.clearParse.ccnt = s.ccnt := rfl
@[simp] theorem State.clearParse_txidx : s.clearParse.txidx = s.txidx := rfl
@[simp] theorem State.clearParse_txbit : s.clearParse.txbit = s.txbit := rfl
@[simp] theorem State.clearParse_txcyc : s.clearParse.txcyc = s.txcyc := rfl
@[simp] theorem State.clearParse_pendOp : s.clearParse.pendOp = s.pendOp := rfl
@[simp] theorem State.clearParse_pendSrc : s.clearParse.pendSrc = s.pendSrc := rfl
@[simp] theorem State.clearParse_pendLat : s.clearParse.pendLat = s.pendLat := rfl
@[simp] theorem State.clearParse_mem : s.clearParse.mem = s.mem := rfl
@[simp] theorem State.clearParse_rdata : s.clearParse.rdata = s.rdata := rfl
@[simp] theorem State.clearParse_inputs : s.clearParse.inputs = s.inputs := rfl
@[simp] theorem State.clearParse_cycle : s.clearParse.cycle = s.cycle := rfl

@[simp] theorem State.setBufByte_ctrlIe (b : Buf) (i : Nat) (v : Byte) : (s.setBufByte b i v).ctrlIe = s.ctrlIe := rfl
@[simp] theorem State.setBufByte_done (b : Buf) (i : Nat) (v : Byte) : (s.setBufByte b i v).done = s.done := rfl
@[simp] theorem State.setBufByte_rej (b : Buf) (i : Nat) (v : Byte) : (s.setBufByte b i v).rej = s.rej := rfl
@[simp] theorem State.setBufByte_werr (b : Buf) (i : Nat) (v : Byte) : (s.setBufByte b i v).werr = s.werr := rfl
@[simp] theorem State.setBufByte_rxOvf (b : Buf) (i : Nat) (v : Byte) : (s.setBufByte b i v).rxOvf = s.rxOvf := rfl
@[simp] theorem State.setBufByte_rxPerr (b : Buf) (i : Nat) (v : Byte) : (s.setBufByte b i v).rxPerr = s.rxPerr := rfl
@[simp] theorem State.setBufByte_rxFerr (b : Buf) (i : Nat) (v : Byte) : (s.setBufByte b i v).rxFerr = s.rxFerr := rfl
@[simp] theorem State.setBufByte_errcode (b : Buf) (i : Nat) (v : Byte) : (s.setBufByte b i v).errcode = s.errcode := rfl
@[simp] theorem State.setBufByte_lastErr (b : Buf) (i : Nat) (v : Byte) : (s.setBufByte b i v).lastErr = s.lastErr := rfl
@[simp] theorem State.setBufByte_xstate (b : Buf) (i : Nat) (v : Byte) : (s.setBufByte b i v).xstate = s.xstate := rfl
@[simp] theorem State.setBufByte_attempt (b : Buf) (i : Nat) (v : Byte) : (s.setBufByte b i v).attempt = s.attempt := rfl
@[simp] theorem State.setBufByte_addrLo (b : Buf) (i : Nat) (v : Byte) : (s.setBufByte b i v).addrLo = s.addrLo := rfl
@[simp] theorem State.setBufByte_addrHi (b : Buf) (i : Nat) (v : Byte) : (s.setBufByte b i v).addrHi = s.addrHi := rfl
@[simp] theorem State.setBufByte_ctrlcode (b : Buf) (i : Nat) (v : Byte) : (s.setBufByte b i v).ctrlcode = s.ctrlcode := rfl
@[simp] theorem State.setBufByte_di (b : Buf) (i : Nat) (v : Byte) : (s.setBufByte b i v).di = s.di := rfl
@[simp] theorem State.setBufByte_hasDi (b : Buf) (i : Nat) (v : Byte) : (s.setBufByte b i v).hasDi = s.hasDi := rfl
@[simp] theorem State.setBufByte_plen (b : Buf) (i : Nat) (v : Byte) : (s.setBufByte b i v).plen = s.plen := rfl
@[simp] theorem State.setBufByte_frameLen (b : Buf) (i : Nat) (v : Byte) : (s.setBufByte b i v).frameLen = s.frameLen := rfl
@[simp] theorem State.setBufByte_rxLen (b : Buf) (i : Nat) (v : Byte) : (s.setBufByte b i v).rxLen = s.rxLen := rfl
@[simp] theorem State.setBufByte_rxCtrl (b : Buf) (i : Nat) (v : Byte) : (s.setBufByte b i v).rxCtrl = s.rxCtrl := rfl
@[simp] theorem State.setBufByte_rxL (b : Buf) (i : Nat) (v : Byte) : (s.setBufByte b i v).rxL = s.rxL := rfl
@[simp] theorem State.setBufByte_rxHasDi (b : Buf) (i : Nat) (v : Byte) : (s.setBufByte b i v).rxHasDi = s.rxHasDi := rfl
@[simp] theorem State.setBufByte_rxPlen (b : Buf) (i : Nat) (v : Byte) : (s.setBufByte b i v).rxPlen = s.rxPlen := rfl
@[simp] theorem State.setBufByte_rxDi (b : Buf) (i : Nat) (v : Byte) : (s.setBufByte b i v).rxDi = s.rxDi := rfl
@[simp] theorem State.setBufByte_addrstrLen (b : Buf) (i : Nat) (v : Byte) : (s.setBufByte b i v).addrstrLen = s.addrstrLen := rfl
@[simp] theorem State.setBufByte_tSettle (b : Buf) (i : Nat) (v : Byte) : (s.setBufByte b i v).tSettle = s.tSettle := rfl
@[simp] theorem State.setBufByte_tPostsend (b : Buf) (i : Nat) (v : Byte) : (s.setBufByte b i v).tPostsend = s.tPostsend := rfl
@[simp] theorem State.setBufByte_tInact (b : Buf) (i : Nat) (v : Byte) : (s.setBufByte b i v).tInact = s.tInact := rfl
@[simp] theorem State.setBufByte_tCeil (b : Buf) (i : Nat) (v : Byte) : (s.setBufByte b i v).tCeil = s.tCeil := rfl
@[simp] theorem State.setBufByte_maxAttempts (b : Buf) (i : Nat) (v : Byte) : (s.setBufByte b i v).maxAttempts = s.maxAttempts := rfl
@[simp] theorem State.setBufByte_tRetry (b : Buf) (i : Nat) (v : Byte) : (s.setBufByte b i v).tRetry = s.tRetry := rfl
@[simp] theorem State.setBufByte_baudDiv (b : Buf) (i : Nat) (v : Byte) : (s.setBufByte b i v).baudDiv = s.baudDiv := rfl
@[simp] theorem State.setBufByte_tickDiv (b : Buf) (i : Nat) (v : Byte) : (s.setBufByte b i v).tickDiv = s.tickDiv := rfl
@[simp] theorem State.setBufByte_presc (b : Buf) (i : Nat) (v : Byte) : (s.setBufByte b i v).presc = s.presc := rfl
@[simp] theorem State.setBufByte_wcnt (b : Buf) (i : Nat) (v : Byte) : (s.setBufByte b i v).wcnt = s.wcnt := rfl
@[simp] theorem State.setBufByte_icnt (b : Buf) (i : Nat) (v : Byte) : (s.setBufByte b i v).icnt = s.icnt := rfl
@[simp] theorem State.setBufByte_ccnt (b : Buf) (i : Nat) (v : Byte) : (s.setBufByte b i v).ccnt = s.ccnt := rfl
@[simp] theorem State.setBufByte_txidx (b : Buf) (i : Nat) (v : Byte) : (s.setBufByte b i v).txidx = s.txidx := rfl
@[simp] theorem State.setBufByte_txbit (b : Buf) (i : Nat) (v : Byte) : (s.setBufByte b i v).txbit = s.txbit := rfl
@[simp] theorem State.setBufByte_txcyc (b : Buf) (i : Nat) (v : Byte) : (s.setBufByte b i v).txcyc = s.txcyc := rfl
@[simp] theorem State.setBufByte_pendOp (b : Buf) (i : Nat) (v : Byte) : (s.setBufByte b i v).pendOp = s.pendOp := rfl
@[simp] theorem State.setBufByte_pendSrc (b : Buf) (i : Nat) (v : Byte) : (s.setBufByte b i v).pendSrc = s.pendSrc := rfl
@[simp] theorem State.setBufByte_pendLat (b : Buf) (i : Nat) (v : Byte) : (s.setBufByte b i v).pendLat = s.pendLat := rfl
@[simp] theorem State.setBufByte_mem (b : Buf) (i : Nat) (v : Byte) : (s.setBufByte b i v).mem = s.mem.set (b.base + i) v := rfl
@[simp] theorem State.setBufByte_rdata (b : Buf) (i : Nat) (v : Byte) : (s.setBufByte b i v).rdata = s.rdata := rfl
@[simp] theorem State.setBufByte_inputs (b : Buf) (i : Nat) (v : Byte) : (s.setBufByte b i v).inputs = s.inputs := rfl
@[simp] theorem State.setBufByte_cycle (b : Buf) (i : Nat) (v : Byte) : (s.setBufByte b i v).cycle = s.cycle := rfl

@[simp] theorem State.setBuf_ctrlIe (b : Buf) (vs : List Byte) : (s.setBuf b vs).ctrlIe = s.ctrlIe := rfl
@[simp] theorem State.setBuf_done (b : Buf) (vs : List Byte) : (s.setBuf b vs).done = s.done := rfl
@[simp] theorem State.setBuf_rej (b : Buf) (vs : List Byte) : (s.setBuf b vs).rej = s.rej := rfl
@[simp] theorem State.setBuf_werr (b : Buf) (vs : List Byte) : (s.setBuf b vs).werr = s.werr := rfl
@[simp] theorem State.setBuf_rxOvf (b : Buf) (vs : List Byte) : (s.setBuf b vs).rxOvf = s.rxOvf := rfl
@[simp] theorem State.setBuf_rxPerr (b : Buf) (vs : List Byte) : (s.setBuf b vs).rxPerr = s.rxPerr := rfl
@[simp] theorem State.setBuf_rxFerr (b : Buf) (vs : List Byte) : (s.setBuf b vs).rxFerr = s.rxFerr := rfl
@[simp] theorem State.setBuf_errcode (b : Buf) (vs : List Byte) : (s.setBuf b vs).errcode = s.errcode := rfl
@[simp] theorem State.setBuf_lastErr (b : Buf) (vs : List Byte) : (s.setBuf b vs).lastErr = s.lastErr := rfl
@[simp] theorem State.setBuf_xstate (b : Buf) (vs : List Byte) : (s.setBuf b vs).xstate = s.xstate := rfl
@[simp] theorem State.setBuf_attempt (b : Buf) (vs : List Byte) : (s.setBuf b vs).attempt = s.attempt := rfl
@[simp] theorem State.setBuf_addrLo (b : Buf) (vs : List Byte) : (s.setBuf b vs).addrLo = s.addrLo := rfl
@[simp] theorem State.setBuf_addrHi (b : Buf) (vs : List Byte) : (s.setBuf b vs).addrHi = s.addrHi := rfl
@[simp] theorem State.setBuf_ctrlcode (b : Buf) (vs : List Byte) : (s.setBuf b vs).ctrlcode = s.ctrlcode := rfl
@[simp] theorem State.setBuf_di (b : Buf) (vs : List Byte) : (s.setBuf b vs).di = s.di := rfl
@[simp] theorem State.setBuf_hasDi (b : Buf) (vs : List Byte) : (s.setBuf b vs).hasDi = s.hasDi := rfl
@[simp] theorem State.setBuf_plen (b : Buf) (vs : List Byte) : (s.setBuf b vs).plen = s.plen := rfl
@[simp] theorem State.setBuf_frameLen (b : Buf) (vs : List Byte) : (s.setBuf b vs).frameLen = s.frameLen := rfl
@[simp] theorem State.setBuf_rxLen (b : Buf) (vs : List Byte) : (s.setBuf b vs).rxLen = s.rxLen := rfl
@[simp] theorem State.setBuf_rxCtrl (b : Buf) (vs : List Byte) : (s.setBuf b vs).rxCtrl = s.rxCtrl := rfl
@[simp] theorem State.setBuf_rxL (b : Buf) (vs : List Byte) : (s.setBuf b vs).rxL = s.rxL := rfl
@[simp] theorem State.setBuf_rxHasDi (b : Buf) (vs : List Byte) : (s.setBuf b vs).rxHasDi = s.rxHasDi := rfl
@[simp] theorem State.setBuf_rxPlen (b : Buf) (vs : List Byte) : (s.setBuf b vs).rxPlen = s.rxPlen := rfl
@[simp] theorem State.setBuf_rxDi (b : Buf) (vs : List Byte) : (s.setBuf b vs).rxDi = s.rxDi := rfl
@[simp] theorem State.setBuf_addrstrLen (b : Buf) (vs : List Byte) : (s.setBuf b vs).addrstrLen = s.addrstrLen := rfl
@[simp] theorem State.setBuf_tSettle (b : Buf) (vs : List Byte) : (s.setBuf b vs).tSettle = s.tSettle := rfl
@[simp] theorem State.setBuf_tPostsend (b : Buf) (vs : List Byte) : (s.setBuf b vs).tPostsend = s.tPostsend := rfl
@[simp] theorem State.setBuf_tInact (b : Buf) (vs : List Byte) : (s.setBuf b vs).tInact = s.tInact := rfl
@[simp] theorem State.setBuf_tCeil (b : Buf) (vs : List Byte) : (s.setBuf b vs).tCeil = s.tCeil := rfl
@[simp] theorem State.setBuf_maxAttempts (b : Buf) (vs : List Byte) : (s.setBuf b vs).maxAttempts = s.maxAttempts := rfl
@[simp] theorem State.setBuf_tRetry (b : Buf) (vs : List Byte) : (s.setBuf b vs).tRetry = s.tRetry := rfl
@[simp] theorem State.setBuf_baudDiv (b : Buf) (vs : List Byte) : (s.setBuf b vs).baudDiv = s.baudDiv := rfl
@[simp] theorem State.setBuf_tickDiv (b : Buf) (vs : List Byte) : (s.setBuf b vs).tickDiv = s.tickDiv := rfl
@[simp] theorem State.setBuf_presc (b : Buf) (vs : List Byte) : (s.setBuf b vs).presc = s.presc := rfl
@[simp] theorem State.setBuf_wcnt (b : Buf) (vs : List Byte) : (s.setBuf b vs).wcnt = s.wcnt := rfl
@[simp] theorem State.setBuf_icnt (b : Buf) (vs : List Byte) : (s.setBuf b vs).icnt = s.icnt := rfl
@[simp] theorem State.setBuf_ccnt (b : Buf) (vs : List Byte) : (s.setBuf b vs).ccnt = s.ccnt := rfl
@[simp] theorem State.setBuf_txidx (b : Buf) (vs : List Byte) : (s.setBuf b vs).txidx = s.txidx := rfl
@[simp] theorem State.setBuf_txbit (b : Buf) (vs : List Byte) : (s.setBuf b vs).txbit = s.txbit := rfl
@[simp] theorem State.setBuf_txcyc (b : Buf) (vs : List Byte) : (s.setBuf b vs).txcyc = s.txcyc := rfl
@[simp] theorem State.setBuf_pendOp (b : Buf) (vs : List Byte) : (s.setBuf b vs).pendOp = s.pendOp := rfl
@[simp] theorem State.setBuf_pendSrc (b : Buf) (vs : List Byte) : (s.setBuf b vs).pendSrc = s.pendSrc := rfl
@[simp] theorem State.setBuf_pendLat (b : Buf) (vs : List Byte) : (s.setBuf b vs).pendLat = s.pendLat := rfl
@[simp] theorem State.setBuf_mem (b : Buf) (vs : List Byte) : (s.setBuf b vs).mem = s.mem.setBytes b.base vs := rfl
@[simp] theorem State.setBuf_rdata (b : Buf) (vs : List Byte) : (s.setBuf b vs).rdata = s.rdata := rfl
@[simp] theorem State.setBuf_inputs (b : Buf) (vs : List Byte) : (s.setBuf b vs).inputs = s.inputs := rfl
@[simp] theorem State.setBuf_cycle (b : Buf) (vs : List Byte) : (s.setBuf b vs).cycle = s.cycle := rfl

@[simp] theorem State.tickPhase_ctrlIe : s.tickPhase.ctrlIe = s.ctrlIe := rfl
@[simp] theorem State.tickPhase_done : s.tickPhase.done = s.done := rfl
@[simp] theorem State.tickPhase_rej : s.tickPhase.rej = s.rej := rfl
@[simp] theorem State.tickPhase_werr : s.tickPhase.werr = s.werr := rfl
@[simp] theorem State.tickPhase_rxOvf : s.tickPhase.rxOvf = s.rxOvf := rfl
@[simp] theorem State.tickPhase_rxPerr : s.tickPhase.rxPerr = s.rxPerr := rfl
@[simp] theorem State.tickPhase_rxFerr : s.tickPhase.rxFerr = s.rxFerr := rfl
@[simp] theorem State.tickPhase_errcode : s.tickPhase.errcode = s.errcode := rfl
@[simp] theorem State.tickPhase_lastErr : s.tickPhase.lastErr = s.lastErr := rfl
@[simp] theorem State.tickPhase_xstate : s.tickPhase.xstate = s.xstate := rfl
@[simp] theorem State.tickPhase_attempt : s.tickPhase.attempt = s.attempt := rfl
@[simp] theorem State.tickPhase_addrLo : s.tickPhase.addrLo = s.addrLo := rfl
@[simp] theorem State.tickPhase_addrHi : s.tickPhase.addrHi = s.addrHi := rfl
@[simp] theorem State.tickPhase_ctrlcode : s.tickPhase.ctrlcode = s.ctrlcode := rfl
@[simp] theorem State.tickPhase_di : s.tickPhase.di = s.di := rfl
@[simp] theorem State.tickPhase_hasDi : s.tickPhase.hasDi = s.hasDi := rfl
@[simp] theorem State.tickPhase_plen : s.tickPhase.plen = s.plen := rfl
@[simp] theorem State.tickPhase_frameLen : s.tickPhase.frameLen = s.frameLen := rfl
@[simp] theorem State.tickPhase_rxLen : s.tickPhase.rxLen = s.rxLen := rfl
@[simp] theorem State.tickPhase_rxCtrl : s.tickPhase.rxCtrl = s.rxCtrl := rfl
@[simp] theorem State.tickPhase_rxL : s.tickPhase.rxL = s.rxL := rfl
@[simp] theorem State.tickPhase_rxHasDi : s.tickPhase.rxHasDi = s.rxHasDi := rfl
@[simp] theorem State.tickPhase_rxPlen : s.tickPhase.rxPlen = s.rxPlen := rfl
@[simp] theorem State.tickPhase_rxDi : s.tickPhase.rxDi = s.rxDi := rfl
@[simp] theorem State.tickPhase_addrstrLen : s.tickPhase.addrstrLen = s.addrstrLen := rfl
@[simp] theorem State.tickPhase_tSettle : s.tickPhase.tSettle = s.tSettle := rfl
@[simp] theorem State.tickPhase_tPostsend : s.tickPhase.tPostsend = s.tPostsend := rfl
@[simp] theorem State.tickPhase_tInact : s.tickPhase.tInact = s.tInact := rfl
@[simp] theorem State.tickPhase_tCeil : s.tickPhase.tCeil = s.tCeil := rfl
@[simp] theorem State.tickPhase_maxAttempts : s.tickPhase.maxAttempts = s.maxAttempts := rfl
@[simp] theorem State.tickPhase_tRetry : s.tickPhase.tRetry = s.tRetry := rfl
@[simp] theorem State.tickPhase_baudDiv : s.tickPhase.baudDiv = s.baudDiv := rfl
@[simp] theorem State.tickPhase_tickDiv : s.tickPhase.tickDiv = s.tickDiv := rfl
@[simp] theorem State.tickPhase_presc : s.tickPhase.presc = if s.tick then 0#32 else s.presc + 1#32 := rfl
@[simp] theorem State.tickPhase_wcnt : s.tickPhase.wcnt = s.wcnt := rfl
@[simp] theorem State.tickPhase_icnt : s.tickPhase.icnt = s.icnt := rfl
@[simp] theorem State.tickPhase_ccnt : s.tickPhase.ccnt = s.ccnt := rfl
@[simp] theorem State.tickPhase_txidx : s.tickPhase.txidx = s.txidx := rfl
@[simp] theorem State.tickPhase_txbit : s.tickPhase.txbit = s.txbit := rfl
@[simp] theorem State.tickPhase_txcyc : s.tickPhase.txcyc = s.txcyc := rfl
@[simp] theorem State.tickPhase_pendOp : s.tickPhase.pendOp = s.pendOp := rfl
@[simp] theorem State.tickPhase_pendSrc : s.tickPhase.pendSrc = s.pendSrc := rfl
@[simp] theorem State.tickPhase_pendLat : s.tickPhase.pendLat = s.pendLat := rfl
@[simp] theorem State.tickPhase_mem : s.tickPhase.mem = s.mem := rfl
@[simp] theorem State.tickPhase_rdata : s.tickPhase.rdata = s.rdata := rfl
@[simp] theorem State.tickPhase_inputs : s.tickPhase.inputs = s.inputs := rfl
@[simp] theorem State.tickPhase_cycle : s.tickPhase.cycle = s.cycle := rfl

@[simp] theorem State.accumCount_ctrlIe (arr tick : Bool) : (s.accumCount arr tick).ctrlIe = s.ctrlIe := rfl
@[simp] theorem State.accumCount_done (arr tick : Bool) : (s.accumCount arr tick).done = s.done := rfl
@[simp] theorem State.accumCount_rej (arr tick : Bool) : (s.accumCount arr tick).rej = s.rej := rfl
@[simp] theorem State.accumCount_werr (arr tick : Bool) : (s.accumCount arr tick).werr = s.werr := rfl
@[simp] theorem State.accumCount_rxOvf (arr tick : Bool) : (s.accumCount arr tick).rxOvf = s.rxOvf := rfl
@[simp] theorem State.accumCount_rxPerr (arr tick : Bool) : (s.accumCount arr tick).rxPerr = s.rxPerr := rfl
@[simp] theorem State.accumCount_rxFerr (arr tick : Bool) : (s.accumCount arr tick).rxFerr = s.rxFerr := rfl
@[simp] theorem State.accumCount_errcode (arr tick : Bool) : (s.accumCount arr tick).errcode = s.errcode := rfl
@[simp] theorem State.accumCount_lastErr (arr tick : Bool) : (s.accumCount arr tick).lastErr = s.lastErr := rfl
@[simp] theorem State.accumCount_xstate (arr tick : Bool) : (s.accumCount arr tick).xstate = s.xstate := rfl
@[simp] theorem State.accumCount_attempt (arr tick : Bool) : (s.accumCount arr tick).attempt = s.attempt := rfl
@[simp] theorem State.accumCount_addrLo (arr tick : Bool) : (s.accumCount arr tick).addrLo = s.addrLo := rfl
@[simp] theorem State.accumCount_addrHi (arr tick : Bool) : (s.accumCount arr tick).addrHi = s.addrHi := rfl
@[simp] theorem State.accumCount_ctrlcode (arr tick : Bool) : (s.accumCount arr tick).ctrlcode = s.ctrlcode := rfl
@[simp] theorem State.accumCount_di (arr tick : Bool) : (s.accumCount arr tick).di = s.di := rfl
@[simp] theorem State.accumCount_hasDi (arr tick : Bool) : (s.accumCount arr tick).hasDi = s.hasDi := rfl
@[simp] theorem State.accumCount_plen (arr tick : Bool) : (s.accumCount arr tick).plen = s.plen := rfl
@[simp] theorem State.accumCount_frameLen (arr tick : Bool) : (s.accumCount arr tick).frameLen = s.frameLen := rfl
@[simp] theorem State.accumCount_rxLen (arr tick : Bool) : (s.accumCount arr tick).rxLen = s.rxLen := rfl
@[simp] theorem State.accumCount_rxCtrl (arr tick : Bool) : (s.accumCount arr tick).rxCtrl = s.rxCtrl := rfl
@[simp] theorem State.accumCount_rxL (arr tick : Bool) : (s.accumCount arr tick).rxL = s.rxL := rfl
@[simp] theorem State.accumCount_rxHasDi (arr tick : Bool) : (s.accumCount arr tick).rxHasDi = s.rxHasDi := rfl
@[simp] theorem State.accumCount_rxPlen (arr tick : Bool) : (s.accumCount arr tick).rxPlen = s.rxPlen := rfl
@[simp] theorem State.accumCount_rxDi (arr tick : Bool) : (s.accumCount arr tick).rxDi = s.rxDi := rfl
@[simp] theorem State.accumCount_addrstrLen (arr tick : Bool) : (s.accumCount arr tick).addrstrLen = s.addrstrLen := rfl
@[simp] theorem State.accumCount_tSettle (arr tick : Bool) : (s.accumCount arr tick).tSettle = s.tSettle := rfl
@[simp] theorem State.accumCount_tPostsend (arr tick : Bool) : (s.accumCount arr tick).tPostsend = s.tPostsend := rfl
@[simp] theorem State.accumCount_tInact (arr tick : Bool) : (s.accumCount arr tick).tInact = s.tInact := rfl
@[simp] theorem State.accumCount_tCeil (arr tick : Bool) : (s.accumCount arr tick).tCeil = s.tCeil := rfl
@[simp] theorem State.accumCount_maxAttempts (arr tick : Bool) : (s.accumCount arr tick).maxAttempts = s.maxAttempts := rfl
@[simp] theorem State.accumCount_tRetry (arr tick : Bool) : (s.accumCount arr tick).tRetry = s.tRetry := rfl
@[simp] theorem State.accumCount_baudDiv (arr tick : Bool) : (s.accumCount arr tick).baudDiv = s.baudDiv := rfl
@[simp] theorem State.accumCount_tickDiv (arr tick : Bool) : (s.accumCount arr tick).tickDiv = s.tickDiv := rfl
@[simp] theorem State.accumCount_presc (arr tick : Bool) : (s.accumCount arr tick).presc = s.presc := rfl
@[simp] theorem State.accumCount_wcnt (arr tick : Bool) : (s.accumCount arr tick).wcnt = s.wcnt := rfl
@[simp] theorem State.accumCount_icnt (arr tick : Bool) : (s.accumCount arr tick).icnt = if arr then 0#16 else waitCount tick s.icnt := rfl
@[simp] theorem State.accumCount_ccnt (arr tick : Bool) : (s.accumCount arr tick).ccnt = waitCount tick s.ccnt := rfl
@[simp] theorem State.accumCount_txidx (arr tick : Bool) : (s.accumCount arr tick).txidx = s.txidx := rfl
@[simp] theorem State.accumCount_txbit (arr tick : Bool) : (s.accumCount arr tick).txbit = s.txbit := rfl
@[simp] theorem State.accumCount_txcyc (arr tick : Bool) : (s.accumCount arr tick).txcyc = s.txcyc := rfl
@[simp] theorem State.accumCount_pendOp (arr tick : Bool) : (s.accumCount arr tick).pendOp = s.pendOp := rfl
@[simp] theorem State.accumCount_pendSrc (arr tick : Bool) : (s.accumCount arr tick).pendSrc = s.pendSrc := rfl
@[simp] theorem State.accumCount_pendLat (arr tick : Bool) : (s.accumCount arr tick).pendLat = s.pendLat := rfl
@[simp] theorem State.accumCount_mem (arr tick : Bool) : (s.accumCount arr tick).mem = s.mem := rfl
@[simp] theorem State.accumCount_rdata (arr tick : Bool) : (s.accumCount arr tick).rdata = s.rdata := rfl
@[simp] theorem State.accumCount_inputs (arr tick : Bool) : (s.accumCount arr tick).inputs = s.inputs := rfl
@[simp] theorem State.accumCount_cycle (arr tick : Bool) : (s.accumCount arr tick).cycle = s.cycle := rfl

@[simp] theorem State.advance_ctrlIe : s.advance.ctrlIe = s.ctrlIe := rfl
@[simp] theorem State.advance_done : s.advance.done = s.done := rfl
@[simp] theorem State.advance_rej : s.advance.rej = s.rej := rfl
@[simp] theorem State.advance_werr : s.advance.werr = s.werr := rfl
@[simp] theorem State.advance_rxOvf : s.advance.rxOvf = s.rxOvf := rfl
@[simp] theorem State.advance_rxPerr : s.advance.rxPerr = s.rxPerr := rfl
@[simp] theorem State.advance_rxFerr : s.advance.rxFerr = s.rxFerr := rfl
@[simp] theorem State.advance_errcode : s.advance.errcode = s.errcode := rfl
@[simp] theorem State.advance_lastErr : s.advance.lastErr = s.lastErr := rfl
@[simp] theorem State.advance_xstate : s.advance.xstate = s.xstate := rfl
@[simp] theorem State.advance_attempt : s.advance.attempt = s.attempt := rfl
@[simp] theorem State.advance_addrLo : s.advance.addrLo = s.addrLo := rfl
@[simp] theorem State.advance_addrHi : s.advance.addrHi = s.addrHi := rfl
@[simp] theorem State.advance_ctrlcode : s.advance.ctrlcode = s.ctrlcode := rfl
@[simp] theorem State.advance_di : s.advance.di = s.di := rfl
@[simp] theorem State.advance_hasDi : s.advance.hasDi = s.hasDi := rfl
@[simp] theorem State.advance_plen : s.advance.plen = s.plen := rfl
@[simp] theorem State.advance_frameLen : s.advance.frameLen = s.frameLen := rfl
@[simp] theorem State.advance_rxLen : s.advance.rxLen = s.rxLen := rfl
@[simp] theorem State.advance_rxCtrl : s.advance.rxCtrl = s.rxCtrl := rfl
@[simp] theorem State.advance_rxL : s.advance.rxL = s.rxL := rfl
@[simp] theorem State.advance_rxHasDi : s.advance.rxHasDi = s.rxHasDi := rfl
@[simp] theorem State.advance_rxPlen : s.advance.rxPlen = s.rxPlen := rfl
@[simp] theorem State.advance_rxDi : s.advance.rxDi = s.rxDi := rfl
@[simp] theorem State.advance_addrstrLen : s.advance.addrstrLen = s.addrstrLen := rfl
@[simp] theorem State.advance_tSettle : s.advance.tSettle = s.tSettle := rfl
@[simp] theorem State.advance_tPostsend : s.advance.tPostsend = s.tPostsend := rfl
@[simp] theorem State.advance_tInact : s.advance.tInact = s.tInact := rfl
@[simp] theorem State.advance_tCeil : s.advance.tCeil = s.tCeil := rfl
@[simp] theorem State.advance_maxAttempts : s.advance.maxAttempts = s.maxAttempts := rfl
@[simp] theorem State.advance_tRetry : s.advance.tRetry = s.tRetry := rfl
@[simp] theorem State.advance_baudDiv : s.advance.baudDiv = s.baudDiv := rfl
@[simp] theorem State.advance_tickDiv : s.advance.tickDiv = s.tickDiv := rfl
@[simp] theorem State.advance_presc : s.advance.presc = s.presc := rfl
@[simp] theorem State.advance_wcnt : s.advance.wcnt = s.wcnt := rfl
@[simp] theorem State.advance_icnt : s.advance.icnt = s.icnt := rfl
@[simp] theorem State.advance_ccnt : s.advance.ccnt = s.ccnt := rfl
@[simp] theorem State.advance_txidx : s.advance.txidx = s.txidx := rfl
@[simp] theorem State.advance_txbit : s.advance.txbit = s.txbit := rfl
@[simp] theorem State.advance_txcyc : s.advance.txcyc = s.txcyc := rfl
@[simp] theorem State.advance_pendOp : s.advance.pendOp = s.pendOp := rfl
@[simp] theorem State.advance_pendSrc : s.advance.pendSrc = s.pendSrc := rfl
@[simp] theorem State.advance_pendLat : s.advance.pendLat = s.pendLat := rfl
@[simp] theorem State.advance_mem : s.advance.mem = s.mem := rfl
@[simp] theorem State.advance_rdata : s.advance.rdata = s.rdata := rfl
@[simp] theorem State.advance_inputs : s.advance.inputs = s.inputs.tail := rfl
@[simp] theorem State.advance_cycle : s.advance.cycle = s.cycle + 1 := rfl

end Sys2Proof.Machine
end

