-- ==== Sys2Proof/Laws/Memory.lean ====
section
/-! SUPPORT. The laws of the buffer bytes: read after write, the canonical form, and what a read of several bytes answers. -/

namespace Sys2Proof.Machine

@[simp] theorem Memory.get_nil (k : Nat) : Memory.get [] k = none := rfl

theorem Memory.get_cons (a : Nat) (b : Byte) (m : Memory) (k : Nat) :
    Memory.get ((a, b) :: m) k = if a = k then some b else Memory.get m k := rfl

@[simp] theorem Memory.get_set_same (m : Memory) (k : Nat) (v : Byte) : (m.set k v).get k = some v := by
  induction m with
  | nil => simp [Memory.set, Memory.get_cons]
  | cons c m ih =>
    obtain ⟨a, b⟩ := c
    simp only [Memory.set]
    split
    · simp [Memory.get_cons]
    · split
      · simp [Memory.get_cons]
      · simp [Memory.get_cons, *]

theorem Memory.get_set_ne (m : Memory) (v : Byte) {k j : Nat} (h : j ≠ k) : (m.set k v).get j = m.get j := by
  induction m with
  | nil => simp [Memory.set, Memory.get_cons, h.symm]
  | cons c m ih =>
    obtain ⟨a, b⟩ := c
    simp only [Memory.set]
    split
    · simp [Memory.get_cons, h.symm]
    · split
      · subst_vars; simp [Memory.get_cons, h.symm]
      · simp [Memory.get_cons, ih]

theorem Memory.get_set (m : Memory) (k : Nat) (v : Byte) (j : Nat) :
    (m.set k v).get j = if j = k then some v else m.get j := by
  split
  · subst_vars; simp
  · exact Memory.get_set_ne m v ‹_›

/-- A byte is read back from `setBytes` where it was written; every other byte reads as before. -/
theorem Memory.get_setBytes (m : Memory) (k : Nat) (vs : List Byte) (j : Nat) :
    (m.setBytes k vs).get j = if h : k ≤ j ∧ j < k + vs.length then some (vs[j - k]'(by omega)) else m.get j := by
  induction vs generalizing m k with
  | nil =>
    rw [dif_neg (by simp)]
    rfl
  | cons v vs ih =>
    simp only [Memory.setBytes, ih, List.length_cons]
    rcases Nat.lt_trichotomy j k with hj | hj | hj
    · rw [dif_neg (by omega), dif_neg (by omega), Memory.get_set_ne m v (by omega)]
    · subst hj
      rw [dif_neg (by omega), dif_pos (by omega)]
      simp
    · by_cases hh : j < k + 1 + vs.length
      · rw [dif_pos (by omega), dif_pos (by omega)]
        have : j - k = (j - (k + 1)) + 1 := by omega
        simp [this]
      · rw [dif_neg (by omega), dif_neg (by omega), Memory.get_set_ne m v (by omega)]

theorem Memory.get_setBytes_in (m : Memory) (k : Nat) (vs : List Byte) {i : Nat} (h : i < vs.length) :
    (m.setBytes k vs).get (k + i) = some vs[i] := by
  rw [Memory.get_setBytes, dif_pos (by omega)]
  simp

theorem Memory.get_setBytes_out (m : Memory) (k : Nat) (vs : List Byte) {j : Nat} (h : j < k ∨ k + vs.length ≤ j) :
    (m.setBytes k vs).get j = m.get j := by
  rw [Memory.get_setBytes, dif_neg (by omega)]

theorem Memory.mem_set {m : Memory} {k : Nat} {v : Byte} {c : Host.Cell} (h : c ∈ m.set k v) : c = (k, v) ∨ c ∈ m := by
  induction m with
  | nil => simpa [Memory.set] using h
  | cons d m ih =>
    obtain ⟨a, b⟩ := d
    simp only [Memory.set] at h
    split at h
    · simpa using h
    · split at h
      · rcases List.mem_cons.mp h with h | h
        · exact .inl h
        · exact .inr (List.mem_cons_of_mem _ h)
      · rcases List.mem_cons.mp h with h | h
        · exact .inr (h ▸ List.mem_cons_self ..)
        · exact (ih h).imp_right (List.mem_cons_of_mem _)

/-- Every cell after a write is an old one or stands at a written offset. -/
theorem Memory.mem_setBytes {m : Memory} {k : Nat} {vs : List Byte} {c : Host.Cell} (h : c ∈ m.setBytes k vs) :
    (k ≤ c.1 ∧ c.1 < k + vs.length) ∨ c ∈ m := by
  induction vs generalizing m k with
  | nil => exact .inr h
  | cons v vs ih =>
    rcases ih h with h | h
    · left; simp only [List.length_cons]; omega
    · rcases Memory.mem_set h with h | h
      · left; subst h; simp
      · exact .inr h

/-- A write of one byte keeps the canonical form. -/
theorem Memory.set_wf {m : Memory} (k : Nat) (v : Byte) (h : m.wf) : (m.set k v).wf := by
  induction m with
  | nil => simp [Memory.set]
  | cons d m ih =>
    obtain ⟨a, b⟩ := d
    obtain ⟨h1, h2⟩ := List.pairwise_cons.mp h
    simp only [Memory.set]
    split
    · refine List.pairwise_cons.mpr ⟨fun c hc => ?_, h⟩
      rcases List.mem_cons.mp hc with rfl | hc
      · assumption
      · exact lt_trans ‹_› (h1 c hc)
    · split
      · subst_vars
        exact List.pairwise_cons.mpr ⟨h1, h2⟩
      · refine List.pairwise_cons.mpr ⟨fun c hc => ?_, ih h2⟩
        rcases Memory.mem_set hc with rfl | hc
        · show a < k
          omega
        · exact h1 c hc

/-- A write of several bytes keeps the canonical form. -/
theorem Memory.setBytes_wf {m : Memory} (k : Nat) (vs : List Byte) (h : m.wf) : (m.setBytes k vs).wf := by
  induction vs generalizing m k with
  | nil => exact h
  | cons v vs ih => exact ih _ (Memory.set_wf k v h)

theorem State.reset_mem_wf : State.reset.mem.wf := List.Pairwise.nil

/-- The read of one byte. -/
theorem Memory.read_eq_ok {m : Memory} {k : Nat} {b : Byte} : m.read k = .ok b ↔ m.get k = some b := by
  unfold Memory.read
  cases m.get k <;> simp

theorem Memory.read_absent {m : Memory} {k : Nat} (h : m.get k = none) : m.read k = .error (.absentByte k) := by
  simp [Memory.read, h]

/-- The read of one byte answers the byte or the absence of that byte. -/
theorem Memory.read_cases (m : Memory) (k : Nat) :
    (∃ b, m.get k = some b ∧ m.read k = .ok b) ∨ (m.get k = none ∧ m.read k = .error (.absentByte k)) := by
  unfold Memory.read
  cases m.get k <;> simp

theorem State.bufByte_eq_ok {s : State} {b : Buf} {i : Nat} {v : Byte} (hi : i < b.size) :
    s.bufByte b i = .ok v ↔ s.mem.get (b.base + i) = some v := by
  rw [State.bufByte, if_pos hi, Memory.read_eq_ok]

/-- A read of several bytes answers them when each can be read. -/
theorem readRange_ok {rd : Nat → Except Fault Byte} {bs : List Byte} {k : Nat}
    (h : ∀ i (hi : i < bs.length), rd (k + i) = .ok bs[i]) : readRange rd k bs.length = .ok bs := by
  induction bs generalizing k with
  | nil => rfl
  | cons b bs ih =>
    have h0 : rd k = .ok b := h 0 (by simp)
    have hr : readRange rd (k + 1) bs.length = .ok bs := by
      refine ih fun i hi => ?_
      have := h (i + 1) (by simpa using hi)
      simpa [Nat.add_assoc, Nat.add_comm 1 i] using this
    simp [readRange, h0, hr, Except.bind]

/-- What a read of several bytes that answers has read. -/
theorem readRange_inv {rd : Nat → Except Fault Byte} {n k : Nat} {bs : List Byte} (h : readRange rd k n = .ok bs) :
    bs.length = n ∧ ∀ i (hi : i < bs.length), rd (k + i) = .ok bs[i] := by
  induction n generalizing k bs with
  | zero => cases h; simp
  | succ n ih =>
    simp only [readRange] at h
    cases h0 : rd k with
    | error f => simp [h0, Except.bind] at h
    | ok b =>
      cases h1 : readRange rd (k + 1) n with
      | error f => simp [h0, h1, Except.bind] at h
      | ok r =>
        simp only [h0, h1, Except.bind, Except.ok.injEq] at h
        subst h
        obtain ⟨hl, hg⟩ := ih h1
        refine ⟨by simp [hl], fun i hi => ?_⟩
        cases i with
        | zero => simpa using h0
        | succ i =>
          have := hg i (by simpa using hi)
          simpa [Nat.add_assoc, Nat.add_comm 1 i] using this

/-- A read of several bytes stops at the first that faults. -/
theorem readRange_error {rd : Nat → Except Fault Byte} {n k i : Nat} {f : Fault} (hi : i < n)
    (hok : ∀ j < i, ∃ b, rd (k + j) = .ok b) (hf : rd (k + i) = .error f) : readRange rd k n = .error f := by
  induction n generalizing k i with
  | zero => omega
  | succ n ih =>
    cases i with
    | zero => simp only [Nat.add_zero] at hf; simp [readRange, hf, Except.bind]
    | succ i =>
      obtain ⟨b, hb⟩ := hok 0 (by omega)
      simp only [Nat.add_zero] at hb
      have := ih (k := k + 1) (i := i) (by omega)
        (fun j hj => by simpa [Nat.add_assoc, Nat.add_comm 1 j] using hok (j + 1) (by omega))
        (by simpa [Nat.add_assoc, Nat.add_comm 1 i] using hf)
      simp [readRange, hb, this, Except.bind]

/-- The fault of a read of several bytes is the fault of one of them. -/
theorem readRange_fault {rd : Nat → Except Fault Byte} {n k : Nat} {f : Fault} (h : readRange rd k n = .error f) :
    ∃ i < n, rd (k + i) = .error f := by
  induction n generalizing k with
  | zero => cases h
  | succ n ih =>
    simp only [readRange] at h
    cases h0 : rd k with
    | error g =>
      simp only [h0, Except.bind, Except.error.injEq] at h
      exact ⟨0, by omega, by simpa [h] using h0⟩
    | ok b =>
      cases h1 : readRange rd (k + 1) n with
      | error g =>
        simp only [h0, h1, Except.bind, Except.error.injEq] at h
        subst h
        obtain ⟨i, hi, hg⟩ := ih h1
        exact ⟨i + 1, by omega, by rw [← hg]; congr 1; omega⟩
      | ok r => simp [h0, h1, Except.bind] at h

/-- The bytes a buffer holds are what a read of its prefix answers. -/
theorem State.bufPrefix_holds {s : State} {b : Buf} {bs : List Byte} (hl : bs.length ≤ b.size) (h : s.holds b bs) :
    s.bufPrefix b bs.length = .ok bs := by
  refine readRange_ok fun i hi => ?_
  rw [Nat.zero_add, State.bufByte_eq_ok (by omega)]
  exact h i hi

/-- A buffer holds what was written to it from its first byte on. -/
theorem State.setBuf_holds (s : State) (b : Buf) (bs : List Byte) : (s.setBuf b bs).holds b bs :=
  fun _ hi => Memory.get_setBytes_in _ _ _ hi

/-- What a read of a buffer's prefix that answers has read. -/
theorem State.bufPrefix_inv {s : State} {b : Buf} {n : Nat} {bs : List Byte} (hn : n ≤ b.size)
    (h : s.bufPrefix b n = .ok bs) : bs.length = n ∧ s.holds b bs := by
  obtain ⟨hl, hg⟩ := readRange_inv h
  refine ⟨hl, fun i hi => ?_⟩
  have := hg i hi
  rw [Nat.zero_add] at this
  exact (State.bufByte_eq_ok (by omega)).mp this

/-- A prefix whose bytes are all present is read. -/
theorem State.bufPrefix_present {s : State} {b : Buf} {n : Nat} (hn : n ≤ b.size) (h : ∀ i < n, s.present b i) :
    ∃ bs, s.bufPrefix b n = .ok bs := by
  cases hr : s.bufPrefix b n with
  | ok bs => exact ⟨bs, rfl⟩
  | error f =>
    obtain ⟨i, hi, hf⟩ := readRange_fault hr
    have hp := h i hi
    obtain ⟨v, hv⟩ := Option.isSome_iff_exists.mp hp
    rw [Nat.zero_add] at hf
    rw [(State.bufByte_eq_ok (by omega)).mpr hv] at hf
    cases hf

end Sys2Proof.Machine
end

