-- ==== Sys2Proof/Laws/Decode.lean ====
section
/-! SUPPORT. The laws of byte order, decoder and encoder. -/

namespace Sys2Proof

/-- le32 as a number: little-endian. -/
theorem le32_toNat (b0 b1 b2 b3 : Byte) :
    (le32 b0 b1 b2 b3).toNat = b0.toNat + 256 * b1.toNat + 65536 * b2.toNat + 16777216 * b3.toNat := by
  simp only [le32, BitVec.toNat_append]
  rw [← Nat.shiftLeft_add_eq_or_of_lt b0.isLt, ← Nat.shiftLeft_add_eq_or_of_lt b1.isLt,
    ← Nat.shiftLeft_add_eq_or_of_lt b2.isLt]
  simp only [Nat.shiftLeft_eq]
  omega

/-- A byte lane of a word as a number. -/
theorem lane_toNat (v : Word) (k : Nat) : (v.extractLsb' k 8).toNat = v.toNat / 2 ^ k % 256 := by
  simp [BitVec.extractLsb'_toNat, Nat.shiftRight_eq_div_pow]

/-- The byte lanes of a word assembled from bytes. -/
@[simp] theorem bytesLe_le32 (b0 b1 b2 b3 : Byte) : bytesLe (le32 b0 b1 b2 b3) = [b0, b1, b2, b3] := by
  have h0 := b0.isLt
  have h1 := b1.isLt
  have h2 := b2.isLt
  have h3 := b3.isLt
  simp only [bytesLe, List.cons.injEq, and_true]
  refine ⟨?_, ?_, ?_, ?_⟩ <;> (apply BitVec.eq_of_toNat_eq; rw [lane_toNat, le32_toNat]; omega)

/-- A word assembled from its byte lanes. -/
@[simp] theorem le32_lanes (v : Word) :
    le32 (v.extractLsb' 0 8) (v.extractLsb' 8 8) (v.extractLsb' 16 8) (v.extractLsb' 24 8) = v := by
  apply BitVec.eq_of_toNat_eq
  have := v.isLt
  simp only [le32_toNat, lane_toNat]
  omega

theorem bytesLe_length (v : Word) : (bytesLe v).length = 4 := rfl

/-- OP as a number. -/
theorem opField_toNat (w : Word) : (opField w).toNat = w.toNat % 16 := by
  simp [opField, BitVec.extractLsb'_toNat]

/-- SRC as a number. -/
theorem srcField_eq (w : Word) : srcField w = true ↔ w.toNat / 256 % 2 = 1 := by
  simp [srcField, BitVec.getLsbD, Nat.testBit_eq_decide_div_mod_eq]

/-- The reserved bits as numbers. -/
theorem reservedClear_eq (w : Word) : reservedClear w = true ↔ w.toNat / 16 % 16 = 0 ∧ w.toNat / 512 = 0 := by
  have := w.isLt
  simp only [reservedClear, Bool.and_eq_true, beq_iff_eq, ← BitVec.toNat_inj, BitVec.extractLsb'_toNat,
    Nat.shiftRight_eq_div_pow, BitVec.toNat_ofNat]
  omega

/-- R71's condition as numbers. -/
theorem illegalWord_eq (w : Word) :
    illegalWord w = true ↔
      5 ≤ w.toNat % 16 ∨ (w.toNat / 16 % 16 ≠ 0 ∨ w.toNat / 512 ≠ 0) ∨ (w.toNat / 256 % 2 = 1 ∧ w.toNat % 16 ≠ 3) := by
  have hr := reservedClear_eq w
  have hs := srcField_eq w
  simp only [illegalWord, Bool.or_eq_true, decide_eq_true_eq, opField_toNat, Bool.not_eq_true', Bool.and_eq_true, hs, bne_iff_ne,
    ne_eq, ← BitVec.toNat_inj, BitVec.toNat_ofNat, Bool.eq_false_iff, hr]
  omega

/-- A legal word is one of the six of the opcode map (R70). -/
theorem legalWord_cases {w : Word} (h : illegalWord w = false) :
    w = 0x00000000#32 ∨ w = 0x00000001#32 ∨ w = 0x00000002#32 ∨ w = 0x00000003#32 ∨ w = 0x00000103#32 ∨
      w = 0x00000004#32 := by
  have h' : ¬ illegalWord w = true := by simp [h]
  rw [illegalWord_eq] at h'
  have := w.isLt
  simp only [← BitVec.toNat_inj, BitVec.toNat_ofNat]
  omega

theorem decodeWord_of_illegal {w : Word} (h : illegalWord w = true) : decodeWord w = .illegal w := by
  simp [decodeWord, h]

end Sys2Proof
end

