-- ==== Sys2Proof/Laws/Functions.lean ====
section
/-! SUPPORT. What the parse function answers on a buffer that holds its bytes, and what it can answer at all. -/

namespace Sys2Proof.Machine

/-- The checks of 41_codec.md R99 on a byte list. -/
def parseList (f : List Byte) : ParseOutcome :=
  let n := f.length
  if n < 12 then .fail .frameTooShort
  else if f.getD 0 0 ≠ 0x68#8 then .fail .invalidFrameMarkers
  else if f.getD (n - 1) 0 ≠ 0x16#8 then .fail .invalidFrameMarkers
  else if f.getD 7 0 ≠ 0x68#8 then .fail .invalidSecondStart
  else if (f.getD 9 0).toNat ≠ n - 12 then .fail .lengthMismatch
  else if checksum (f.take (n - 2)) ≠ f.getD (n - 2) 0 then .fail .checksumMismatch
  else parsedData (f.getD 8 0) (f.getD 9 0) (((f.take (n - 2)).drop 10).map unmask)

/-- Byte `i` of a buffer that holds `f`. -/
theorem State.holds_bufByte {s : State} {b : Buf} {f : List Byte} (hl : f.length ≤ b.size) (h : s.holds b f) {i : Nat}
    (hi : i < f.length) : s.bufByte b i = .ok (f.getD i 0) := by
  rw [State.bufByte_eq_ok (by omega), h i hi]
  simp [List.getD, hi]

/-- On a buffer that holds `f`, the parse is the checks on `f`. -/
theorem parse_holds {s : State} {b : Buf} {f : List Byte} (hl : f.length ≤ b.size) (h : s.holds b f) :
    parse (s.bufByte b) f.length = .ok (parseList f) := by
  have hb : ∀ {i}, i < f.length → s.bufByte b i = .ok (f.getD i 0) := fun hi => State.holds_bufByte hl h hi
  by_cases hn : f.length < 12
  · simp [parse, parseList, hn]
  · unfold parse parseList
    simp only [if_neg hn]
    rw [hb (by omega), hb (by omega), hb (by omega), hb (by omega)]
    simp only [Except.bind]
    split
    · rfl
    · split
      · rfl
      · split
        · rfl
        · split
          · rfl
          · rename_i hL
            have hlen : 10 + (f.getD 9 0).toNat = f.length - 2 := by omega
            have hr : readRange (s.bufByte b) 0 (f.length - 2) = .ok (f.take (f.length - 2)) := by
              have := readRange_ok (rd := s.bufByte b) (bs := f.take (f.length - 2)) (k := 0) (fun i hi => by
                simp only [List.length_take] at hi
                rw [Nat.zero_add, hb (by omega)]
                simp [List.getD, show i < f.length by omega])
              rwa [List.length_take, Nat.min_eq_left (by omega)] at this
            rw [hlen, hr, hb (show f.length - 2 < f.length by omega), hb (show 8 < f.length by omega)]
            simp only []
            split <;> rfl

/-- The parse of the data field answers `ok`, with the payload that fits it. -/
theorem parsedData_cases (c l : Byte) (d : List Byte) :
    ∃ hd di p, parsedData c l d = .ok c l hd di p ∧ p.length ≤ d.length := by
  unfold parsedData
  split
  · exact ⟨_, _, _, rfl, by simp only [List.length_cons]; omega⟩
  · exact ⟨_, _, _, rfl, le_rfl⟩

/-- Everything the parse can answer: success on exactly 12 + L bytes with a payload of at most L, one of its five failures, or the
fault of one of the bytes before `n`. -/
theorem parse_cases (rd : Nat → Except Fault Byte) (n : Nat) :
    (∃ c l hd di p, parse rd n = .ok (.ok c l hd di p) ∧ n = 12 + l.toNat ∧ p.length ≤ l.toNat) ∨
    (∃ e, parse rd n = .ok (.fail e) ∧ e ∈ [ErrCode.frameTooShort, .invalidFrameMarkers, .invalidSecondStart,
      .lengthMismatch, .checksumMismatch]) ∨
    (∃ f i, parse rd n = .error f ∧ i < n ∧ rd i = .error f) := by
  unfold parse
  split
  · exact .inr (.inl ⟨_, rfl, by simp⟩)
  rename_i hn
  cases h0 : rd 0 with
  | error f => exact .inr (.inr ⟨f, 0, rfl, by omega, h0⟩)
  | ok b0 =>
  simp only [Except.bind]
  split
  · exact .inr (.inl ⟨_, rfl, by simp⟩)
  cases h1 : rd (n - 1) with
  | error f => exact .inr (.inr ⟨f, n - 1, rfl, by omega, h1⟩)
  | ok b1 =>
  simp only []
  split
  · exact .inr (.inl ⟨_, rfl, by simp⟩)
  cases h7 : rd 7 with
  | error f => exact .inr (.inr ⟨f, 7, rfl, by omega, h7⟩)
  | ok b7 =>
  simp only []
  split
  · exact .inr (.inl ⟨_, rfl, by simp⟩)
  cases h9 : rd 9 with
  | error f => exact .inr (.inr ⟨f, 9, rfl, by omega, h9⟩)
  | ok l =>
  simp only []
  split
  · exact .inr (.inl ⟨_, rfl, by simp⟩)
  rename_i hl
  cases hr : readRange rd 0 (10 + l.toNat) with
  | error f =>
    obtain ⟨i, hi, hf⟩ := readRange_fault hr
    exact .inr (.inr ⟨f, i, rfl, by omega, by simpa using hf⟩)
  | ok body =>
  simp only []
  cases hc : rd (10 + l.toNat) with
  | error f => exact .inr (.inr ⟨f, _, rfl, by omega, hc⟩)
  | ok cs =>
  simp only []
  split
  · exact .inr (.inl ⟨_, rfl, by simp⟩)
  cases h8 : rd 8 with
  | error f => exact .inr (.inr ⟨f, 8, rfl, by omega, h8⟩)
  | ok c =>
  simp only []
  obtain ⟨hd, di, p, hp, hpl⟩ := parsedData_cases c l ((body.drop 10).map unmask)
  refine .inl ⟨c, l, hd, di, p, by rw [hp], by omega, ?_⟩
  have := (readRange_inv hr).1
  simp only [List.length_map, List.length_drop] at hpl
  omega

/-- The code of a digit pair is a byte: each digit is below 16. -/
theorem hexVal_lt {c : Byte} (h : isHex c = true) : hexVal c < 16 := by
  simp only [isHex, Bool.or_eq_true, Bool.and_eq_true, decide_eq_true_eq] at h
  unfold hexVal
  split
  · omega
  · split <;> omega

theorem frameOf_length (addr : List Byte) (c : Byte) (d : List Byte) :
    (frameOf addr c d).length = addr.length + d.length + 6 := by
  simp [frameOf]; omega

theorem State.addrBytes_length (s : State) : s.addrBytes.length = 6 := rfl

theorem State.diBytes_length (s : State) : s.diBytes.length = if s.hasDi then 4 else 0 := by
  unfold State.diBytes; split <;> rfl

end Sys2Proof.Machine
end

