-- ==== Sys2Proof/Laws/Step.lean ====
section
/-! SUPPORT. What the phases of a cycle can do, said once: the sequencing, the commands, the host access. -/

namespace Sys2Proof.Machine

@[simp] theorem thenDo_next (s : State) (k : State → Result) : thenDo (.next s) k = k s := rfl
@[simp] theorem thenDo_fault (f : Fault) (k : State → Result) : thenDo (.fault f) k = .fault f := rfl
@[simp] theorem thenDo_refused (r : Refusal) (k : State → Result) : thenDo (.refused r) k = .refused r := rfl
@[simp] theorem readThen_ok {α : Type} (a : α) (k : α → Result) : readThen (.ok a) k = k a := rfl
@[simp] theorem readThen_error {α : Type} (f : Fault) (k : α → Result) : readThen (.error f) k = .fault f := rfl

theorem thenDo_eq_next {r : Result} {k : State → Result} {t : State} (h : thenDo r k = .next t) :
    ∃ s, r = .next s ∧ k s = .next t := by
  cases r with
  | next s => exact ⟨s, rfl, h⟩
  | fault f => cases h
  | refused f => cases h

/-- The step, by the level of RST_N. -/
theorem step_of_rstN_high {s : State} (h : s.choice.rstN = true) :
    step s = thenDo (s.advance.hostPhase s.choice.access s.choice.latDraw) fun t =>
      thenDo t.commitPhase fun u => u.linePhases s.xstate s.choice.rx := by
  simp [step, State.runCycle, h]

theorem step_of_rstN_low {s : State} (h : s.choice.rstN = false) : step s = .next (s.advance.resetPhase s.choice.access) := by
  simp [step, State.runCycle, h]

/-- What a command that completes may have changed before its completion. -/
structure CodecEffect (s u : State) : Prop where
  frame : u = { s with
    addrLo := u.addrLo, addrHi := u.addrHi, frameLen := u.frameLen, mem := u.mem, rxCtrl := u.rxCtrl, rxL := u.rxL
    rxHasDi := u.rxHasDi, rxPlen := u.rxPlen, rxDi := u.rxDi }
  mem : u.mem = s.mem ∨ (∃ vs : List Byte, vs.length ≤ 267 ∧ u.mem = s.mem.setBytes 0x200 vs) ∨
    ∃ vs : List Byte, vs.length ≤ 255 ∧ u.mem = s.mem.setBytes 0x600 vs

theorem CodecEffect.refl (s : State) : CodecEffect s s := ⟨rfl, .inl rfl⟩

/-- A reader of buffer bytes faults only on an absent byte. -/
theorem bufByte_fault {s : State} {b : Buf} {i : Nat} {f : Fault} (h : s.bufByte b i = .error f) :
    ∃ a, f = .absentByte a := by
  unfold State.bufByte at h
  split at h
  · rcases Memory.read_cases s.mem (b.base + i) with ⟨v, -, hv⟩ | ⟨-, hv⟩
    · rw [hv] at h; cases h
    · rw [hv] at h; cases h; exact ⟨_, rfl⟩
  · cases h; exact ⟨_, rfl⟩

theorem bufPrefix_fault {s : State} {b : Buf} {n : Nat} {f : Fault} (h : s.bufPrefix b n = .error f) :
    ∃ a, f = .absentByte a := by
  obtain ⟨i, -, hi⟩ := readRange_fault h
  exact bufByte_fault hi

/-- What applying a parse outcome changes. -/
theorem applyParse_effect {s : State} {rd : Nat → Except Fault Byte} {n : Nat} {r : ParseOutcome} (h : parse rd n = .ok r) :
    CodecEffect s (s.applyParse r) := by
  rcases parse_cases rd n with ⟨c, l, hd, di, p, hp, -, hl⟩ | ⟨e, he, -⟩ | ⟨f, i, hf, -⟩
  · rw [hp] at h; cases h
    exact ⟨rfl, .inr (.inr ⟨p, by have := l.isLt; omega, rfl⟩)⟩
  · rw [he] at h; cases h
    exact ⟨rfl, .inl rfl⟩
  · rw [hf] at h; cases h

theorem parseBuf_cases (s : State) (b : Buf) (n : Nat) :
    (∃ e u, s.parseBuf b n = .next (u.complete e) ∧ CodecEffect s u) ∨ ∃ a, s.parseBuf b n = .fault (.absentByte a) := by
  unfold State.parseBuf
  split
  · exact .inl ⟨_, s, rfl, .refl s⟩
  · cases h : parse (s.bufByte b) n with
    | ok r => exact .inl ⟨_, s.applyParse r, rfl, applyParse_effect h⟩
    | error f =>
      right
      rcases parse_cases (s.bufByte b) n with ⟨_, _, _, _, _, hp, -⟩ | ⟨_, hp, -⟩ | ⟨g, i, hp, -, hi⟩
      · rw [hp] at h; cases h
      · rw [hp] at h; cases h
      · rw [hp] at h; cases h
        obtain ⟨a, rfl⟩ := bufByte_fault hi
        exact ⟨a, rfl⟩

/-- Everything a command can do: complete after a codec effect, start an EXCHANGE, or stop on an absent byte. -/
theorem exec_cases (i : Instr) (s : State) :
    (∃ e u, exec i s = .next (u.complete e) ∧ CodecEffect s u) ∨
    (i = .exchange ∧ exec i s = .next s.clearExchange.startAttempt ∧ s.frameLen ≠ 0#10 ∧ s.frameLen.toNat ≤ 512 ∧
      s.baudDiv ≠ 0#16 ∧ s.maxAttempts ≠ 0#4) ∨
    ∃ a, exec i s = .fault (.absentByte a) := by
  cases i with
  | nop => exact .inl ⟨_, s, rfl, .refl s⟩
  | illegal w => exact .inl ⟨_, s, rfl, .refl s⟩
  | addrEncode =>
    simp only [exec, execAddrEncode]
    split
    · exact .inl ⟨_, s, rfl, .refl s⟩
    · cases h : s.bufPrefix .addrstr s.addrstrLen.toNat with
      | error f => obtain ⟨a, rfl⟩ := bufPrefix_fault h; exact .inr (.inr ⟨a, rfl⟩)
      | ok cs =>
        left
        simp only [readThen_ok, State.encodeAddress]
        split
        · exact ⟨_, _, rfl, ⟨rfl, .inl rfl⟩⟩
        · exact ⟨_, s, rfl, .refl s⟩
  | build =>
    simp only [exec, execBuild]
    split
    · exact .inl ⟨_, s, rfl, .refl s⟩
    · rename_i hl
      cases h : s.bufPrefix .payload s.plen.toNat with
      | error f => obtain ⟨a, rfl⟩ := bufPrefix_fault h; exact .inr (.inr ⟨a, rfl⟩)
      | ok p =>
        left
        refine ⟨_, _, rfl, ⟨rfl, .inr (.inl ⟨frameOf s.addrBytes s.ctrlcode (s.diBytes ++ p), ?_, rfl⟩)⟩⟩
        have hp := (readRange_inv h).1
        rw [frameOf_length, State.addrBytes_length, List.length_append, State.diBytes_length, hp]
        simp only [State.buildLen] at hl
        omega
  | parseRx => exact (parseBuf_cases s .rxbuf _).imp_right .inr
  | parseTx => exact (parseBuf_cases s .txbuf _).imp_right .inr
  | exchange =>
    simp only [exec, execExchange]
    split
    · exact .inl ⟨_, s, rfl, .refl s⟩
    · split
      · exact .inl ⟨_, s, rfl, .refl s⟩
      · rename_i h1 h2
        exact .inr (.inl ⟨trivial, rfl, by tauto, by omega, by tauto, by tauto⟩)

/-- What a host access that is no command issue can change. -/
structure HostEffect (s t : State) : Prop where
  frame : t = { s with
    rdata := t.rdata, ctrlIe := t.ctrlIe, done := t.done, rej := t.rej, werr := t.werr, rxOvf := t.rxOvf
    rxPerr := t.rxPerr, rxFerr := t.rxFerr, addrLo := t.addrLo, addrHi := t.addrHi, ctrlcode := t.ctrlcode, di := t.di
    hasDi := t.hasDi, plen := t.plen, frameLen := t.frameLen, rxLen := t.rxLen, addrstrLen := t.addrstrLen
    tSettle := t.tSettle, tPostsend := t.tPostsend, tInact := t.tInact, tCeil := t.tCeil, maxAttempts := t.maxAttempts
    tRetry := t.tRetry, baudDiv := t.baudDiv, tickDiv := t.tickDiv, presc := t.presc, mem := t.mem }
  done : t.done = true → s.done = true
  presc : (t.presc = s.presc ∧ t.tickDiv = s.tickDiv) ∨ t.presc = 0#32
  mem : t.mem = s.mem ∨ ∃ (b : Buf) (a : Nat) (vs : List Byte),
    t.mem = s.mem.setBytes a vs ∧ b.base ≤ a ∧ a + vs.length ≤ b.base + b.size
  busy : s.xstate ≠ .idle → t = { s with
    rdata := t.rdata, ctrlIe := t.ctrlIe, done := t.done, rej := t.rej, werr := t.werr, rxOvf := t.rxOvf
    rxPerr := t.rxPerr, rxFerr := t.rxFerr }

theorem HostEffect.rdata_only (s : State) (d : Option Word) : HostEffect s (s.answer d) :=
  ⟨rfl, id, .inl ⟨rfl, rfl⟩, .inl rfl, fun _ => rfl⟩

/-- A buffer offset lies in its buffer. -/
theorem bufAt_range {off : Nat} {b : Buf} (h : bufAt off = some b) : b.base ≤ off ∧ off < b.base + b.size := by
  unfold bufAt at h
  repeat' split at h
  all_goals cases h
  all_goals simp only [Buf.base, Buf.size]; omega

theorem bufAt_some {a : Nat} (h : 0x100 ≤ a ∧ a < 0x710) : (bufAt a).isSome = true := by
  unfold bufAt; repeat' split
  all_goals first | rfl | omega

/-- A target in a buffer is an aligned offset of that buffer, and the access stays inside it (20_memory.md R52). -/
theorem target_buf {off : BitVec 11} {size : Size} {b : Buf} {a : Nat} (h : target off size = some (.buf b a)) :
    a = off.toNat ∧ bufAt off.toNat = some b ∧ b.base ≤ a ∧ a + sizeBytes size ≤ b.base + b.size ∧
      off.toNat % sizeBytes size = 0 ∧ 0x4C ≤ off.toNat := by
  unfold target at h
  split at h
  · split at h
    · cases hr : Reg.ofIndex (off.toNat / 4) <;> simp [hr] at h
    · cases h
  · cases hb : bufAt off.toNat with
    | none => simp [hb] at h
    | some c =>
      simp only [hb] at h
      split at h
      · cases h
        rename_i hal
        have hr := bufAt_range hb
        refine ⟨rfl, rfl, hr.1, ?_, hal, by omega⟩
        cases size <;> cases b <;> simp only [sizeBytes, Buf.base, Buf.size] at * <;> omega
      · cases h

/-- A target that is a register is a 4-byte access at a multiple of 4. -/
theorem target_reg {off : BitVec 11} {size : Size} {r : Reg} (h : target off size = some (.reg r)) :
    size = .four ∧ off.toNat < 0x4C ∧ off.toNat % 4 = 0 ∧ Reg.ofIndex (off.toNat / 4) = some r := by
  unfold target at h
  split at h
  · split at h
    · rename_i h1 h2
      cases hr : Reg.ofIndex (off.toNat / 4) with
      | none => simp [hr] at h
      | some q => simp [hr] at h; subst h; exact ⟨h2.1, h1, h2.2, rfl⟩
    · cases h
  · split at h
    · cases h
    · split at h <;> cases h

/-- The one access that addresses CMD. -/
theorem target_cmd {off : BitVec 11} {size : Size} (h : target off size = some (.reg .cmd)) :
    off = 0x008#11 ∧ size = .four := by
  obtain ⟨h1, h2, h3, h4⟩ := target_reg h
  refine ⟨?_, h1⟩
  have : off.toNat / 4 = 2 := by
    generalize off.toNat / 4 = n at h4 h2
    unfold Reg.ofIndex at h4
    split at h4 <;> first | rfl | (cases h4)
  apply BitVec.eq_of_toNat_eq
  simp
  omega

/-- What a write of a register's fields can change. -/
theorem writeReg_effect (s : State) (w : Word) (r : Reg) (h : s.xstate = .idle ∨ r = .ctrl ∨ r = .status) :
    HostEffect s (s.writeReg w r) := by
  cases r <;>
    first
    | (refine ⟨rfl, id, .inl ⟨rfl, rfl⟩, .inl rfl, fun hb => ?_⟩
       first | rfl | (exfalso; rcases h with h | h | h <;> simp_all))
    | (refine ⟨rfl, id, .inr rfl, .inl rfl, fun hb => ?_⟩; exfalso; rcases h with h | h | h <;> simp_all)
    | (simp only [State.writeReg, State.writeStatus]
       split <;> refine ⟨rfl, ?_, .inl ⟨rfl, rfl⟩, .inl rfl, fun hb => rfl⟩ <;> simp)

/-- A write of a register's fields leaves every other register as the host reads it; a write of STATUS is left out. -/
theorem writeReg_readReg_ne {s : State} {w : Word} {r r' : Reg} (hr : r ≠ .status) (h : r ≠ r') :
    (s.writeReg w r).readReg r' = s.readReg r' := by
  cases r <;> first | exact absurd rfl hr | (cases r' <;> first | exact absurd rfl h | rfl)

/-- The prescaler, the bus answer and the choices of the outside are in no register. -/
@[simp] theorem readReg_tickPhase (s : State) (r : Reg) : s.tickPhase.readReg r = s.readReg r := by cases r <;> rfl

@[simp] theorem readReg_answer (s : State) (d : Option Word) (r : Reg) : (s.answer d).readReg r = s.readReg r := by cases r <;> rfl

@[simp] theorem readReg_advance (s : State) (r : Reg) : s.advance.readReg r = s.readReg r := by cases r <;> rfl

/-- A write of a register's fields changes configuration fields and, for TICK_DIV, clears PRESC (20_memory.md R56). -/
theorem writeReg_frame (s : State) (w : Word) {r : Reg} (hr : r ≠ .status) :
    s.writeReg w r = { s with
      ctrlIe := (s.writeReg w r).ctrlIe, addrLo := (s.writeReg w r).addrLo, addrHi := (s.writeReg w r).addrHi
      ctrlcode := (s.writeReg w r).ctrlcode, di := (s.writeReg w r).di, hasDi := (s.writeReg w r).hasDi
      plen := (s.writeReg w r).plen, frameLen := (s.writeReg w r).frameLen, rxLen := (s.writeReg w r).rxLen
      addrstrLen := (s.writeReg w r).addrstrLen, tSettle := (s.writeReg w r).tSettle
      tPostsend := (s.writeReg w r).tPostsend, tInact := (s.writeReg w r).tInact, tCeil := (s.writeReg w r).tCeil
      maxAttempts := (s.writeReg w r).maxAttempts, tRetry := (s.writeReg w r).tRetry
      baudDiv := (s.writeReg w r).baudDiv, tickDiv := if r = .tickDiv then w else s.tickDiv
      presc := if r = .tickDiv then 0#32 else s.presc } := by
  cases r <;> first | exact absurd rfl hr | rfl

/-- Everything the host access of a cycle can do. -/
theorem hostPhase_cases (s : State) (access : Option Access) (lat : Nat) :
    (∃ t, s.hostPhase access lat = .next t ∧ HostEffect s t) ∨
    (s.xstate = .idle ∧ ∃ w, access = some (.write 0x008#11 .four w) ∧
      s.hostPhase access lat = (s.answer none).accept w lat) ∨
    (∃ off size, s.hostPhase access lat = .fault (.busError off) ∧ target off size = none ∧
      (access = some (.read off size) ∨ ∃ w, access = some (.write off size w))) ∨
    ∃ a, s.hostPhase access lat = .fault (.absentByte a) := by
  rcases access with _ | ⟨off, size⟩ | ⟨off, size, w⟩
  · exact .inl ⟨_, rfl, .rdata_only s none⟩
  · simp only [State.hostPhase, State.hostRead]
    cases ht : target off size with
    | none => exact .inr (.inr (.inl ⟨off, size, rfl, ht, .inl rfl⟩))
    | some tg =>
      cases tg with
      | reg r => exact .inl ⟨_, rfl, .rdata_only s _⟩
      | buf b a =>
        simp only []
        cases hr : readRange s.mem.read a (sizeBytes size) with
        | ok bs => exact .inl ⟨_, rfl, .rdata_only s _⟩
        | error f =>
          obtain ⟨i, -, hi⟩ := readRange_fault hr
          rcases Memory.read_cases s.mem (a + i) with ⟨v, -, hv⟩ | ⟨-, hv⟩
          · rw [hv] at hi; cases hi
          · rw [hv] at hi; cases hi
            exact .inr (.inr (.inr ⟨_, rfl⟩))
  · simp only [State.hostPhase, State.hostWrite]
    cases ht : target off size with
    | none => exact .inr (.inr (.inl ⟨off, size, rfl, ht, .inr ⟨w, rfl⟩⟩))
    | some tg =>
      have hs0 := HostEffect.rdata_only s none
      generalize hs' : (s.answer none) = s' at *
      have hx : s'.xstate = s.xstate := by subst hs'; rfl
      cases tg with
      | buf b a =>
        left
        refine ⟨_, rfl, ?_⟩
        simp only [State.hostWriteBuf]
        subst hs'
        split
        · exact ⟨rfl, id, .inl ⟨rfl, rfl⟩, .inl rfl, fun _ => rfl⟩
        · rename_i hb
          split
          · exact hs0
          · obtain ⟨rfl, hat, h1, h2, -⟩ := target_buf ht
            refine ⟨rfl, id, .inl ⟨rfl, rfl⟩, .inr ⟨b, _, _, rfl, h1, ?_⟩, fun hx => ?_⟩
            · simp only [List.length_take]; omega
            · simp [State.busy] at hb; exact absurd hb hx
      | reg r =>
        by_cases hc : r = .cmd
        · subst hc
          obtain ⟨rfl, rfl⟩ := target_cmd ht
          simp only [State.writeCmd]
          by_cases hb : s.xstate = .idle
          · refine .inr (.inl ⟨hb, w, rfl, ?_⟩)
            simp [State.busy, hx, hb]
          · left
            refine ⟨{ s' with rej := true }, by simp [State.busy, hx, hb], ?_⟩
            subst hs'
            exact ⟨rfl, id, .inl ⟨rfl, rfl⟩, .inl rfl, fun _ => rfl⟩
        · left
          refine ⟨s'.hostWriteReg w r, by cases r <;> first | rfl | exact absurd rfl hc, ?_⟩
          simp only [State.hostWriteReg]
          split
          · subst hs'
            split
            · exact hs0
            · exact ⟨rfl, id, .inl ⟨rfl, rfl⟩, .inl rfl, fun _ => rfl⟩
          · rename_i hb
            have hor : s'.xstate = .idle ∨ r = .ctrl ∨ r = .status := by
              simp only [State.busy, Bool.and_eq_true, bne_iff_ne, ne_eq] at hb
              tauto
            have hw := writeReg_effect s' w r hor
            subst hs'
            exact ⟨hw.frame, hw.done, hw.presc, hw.mem, hw.busy⟩

/-- What acceptance can do: start a codec command's latency, or run an EXCHANGE or an illegal word at once. -/
theorem accept_cases (s : State) (w : Word) (lat : Nat) :
    (isCodec (decodeWord w) = true ∧
      s.accept w lat = .next (s.acceptClear.codecStart w (drawnLatency lat Config.codecMaxLat))) ∨
    (isCodec (decodeWord w) = false ∧ s.accept w lat = exec (decodeWord w) s.acceptClear) := by
  unfold State.accept
  cases isCodec (decodeWord w) <;> simp

theorem drawnLatency_le (n bound : Nat) : drawnLatency n bound ≤ bound := by
  cases n with
  | zero => exact Nat.zero_le _
  | succ n => exact Nat.min_le_right ..

/-- What a cycle without a host access runs before its line phases. -/
theorem step_of_hostQuiet {s : State} (h : hostQuiet s.choice) :
    step s = thenDo ((s.advance.answer none).commitPhase) fun u =>
      u.linePhases s.xstate s.choice.rx := by
  rw [step_of_rstN_high h.1, h.2]
  rfl

/-- The fault of a byte inside a buffer that holds no value. -/
def AbsentIn (s : State) (f : Fault) : Prop := ∃ a, f = .absentByte a ∧ s.mem.get a = none ∧ (bufAt a).isSome = true

theorem AbsentIn.of_mem {s t : State} {f : Fault} (hm : t.mem = s.mem) (h : AbsentIn t f) : AbsentIn s f := by
  obtain ⟨a, h1, h2, h3⟩ := h
  exact ⟨a, h1, by rw [← hm]; exact h2, h3⟩

/-- A read of an index inside a buffer faults only on an absent byte, and the fault names it. -/
theorem bufByte_fault_in {s : State} {b : Buf} {i : Nat} {f : Fault} (hi : i < b.size) (h : s.bufByte b i = .error f) :
    AbsentIn s f := by
  rw [State.bufByte, if_pos hi] at h
  rcases Memory.read_cases s.mem (b.base + i) with ⟨v, -, hv⟩ | ⟨hn, hv⟩ <;> rw [hv] at h <;> cases h
  exact ⟨_, rfl, hn, bufAt_some (by cases b <;> simp only [Buf.base, Buf.size] at * <;> omega)⟩

theorem parse_fault_in {s : State} {b : Buf} {n : Nat} {f : Fault} (hn : n ≤ b.size)
    (h : parse (s.bufByte b) n = .error f) : AbsentIn s f := by
  rcases parse_cases (s.bufByte b) n with ⟨_, _, _, _, _, hp, -⟩ | ⟨_, hp, -⟩ | ⟨g, i, hp, hi, hg⟩ <;> rw [hp] at h <;> cases h
  exact bufByte_fault_in (by omega) hg

theorem bufPrefix_fault_in {s : State} {b : Buf} {n : Nat} {f : Fault} (hn : n ≤ b.size)
    (h : s.bufPrefix b n = .error f) : AbsentIn s f := by
  obtain ⟨i, hi, hg⟩ := readRange_fault h
  exact bufByte_fault_in (by omega) hg

/-- A command's fault names a byte inside a buffer that holds no value. -/
theorem exec_fault_in {i : Instr} {s : State} {f : Fault} (h : exec i s = .fault f) : AbsentIn s f := by
  have hp : ∀ b n, b.size = 512 → s.parseBuf b n = .fault f → AbsentIn s f := by
    intro b n hb h
    unfold State.parseBuf at h
    split at h
    · cases h
    · cases hq : parse (s.bufByte b) n with
      | ok r => rw [hq] at h; cases h
      | error g => rw [hq] at h; cases h; exact parse_fault_in (by omega) hq
  cases i with
  | nop => cases h
  | illegal w => cases h
  | parseRx => exact hp _ _ rfl h
  | parseTx => exact hp _ _ rfl h
  | exchange => simp only [exec, execExchange] at h; split at h <;> (try split at h) <;> cases h
  | addrEncode =>
    simp only [exec, execAddrEncode] at h
    split at h
    · cases h
    · cases hq : s.bufPrefix .addrstr s.addrstrLen.toNat with
      | ok r => rw [hq] at h; cases h
      | error g => rw [hq] at h; cases h; exact bufPrefix_fault_in (by simp only [Buf.size]; omega) hq
  | build =>
    simp only [exec, execBuild] at h
    split at h
    · cases h
    · cases hq : s.bufPrefix .payload s.plen.toNat with
      | ok r => rw [hq] at h; cases h
      | error g =>
        rw [hq] at h; cases h
        have := s.plen.isLt
        exact bufPrefix_fault_in (by simp only [Buf.size]; omega) hq

/-- As `exec_fault_in`, for the host access of a cycle. -/
theorem hostPhase_fault_in {s : State} {access : Option Access} {lat a : Nat}
    (h : s.hostPhase access lat = .fault (.absentByte a)) : AbsentIn s (.absentByte a) := by
  rcases access with _ | ⟨off, size⟩ | ⟨off, size, w⟩
  · cases h
  · simp only [State.hostPhase, State.hostRead] at h
    cases ht : target off size with
    | none => rw [ht] at h; cases h
    | some tg =>
      cases tg with
      | reg r => rw [ht] at h; cases h
      | buf b k =>
        simp only [ht] at h
        obtain ⟨rfl, -, h1, h2, -⟩ := target_buf ht
        cases hr : readRange s.mem.read off.toNat (sizeBytes size) with
        | ok bs => rw [hr] at h; cases h
        | error f =>
          rw [hr] at h; cases h
          obtain ⟨i, hi, hf⟩ := readRange_fault hr
          rcases Memory.read_cases s.mem (off.toNat + i) with ⟨v, -, hv⟩ | ⟨hn, hv⟩ <;> rw [hv] at hf <;> cases hf
          exact ⟨_, rfl, hn, bufAt_some (by cases b <;> simp only [Buf.base, Buf.size] at * <;> omega)⟩
  · simp only [State.hostPhase, State.hostWrite] at h
    cases ht : target off size with
    | none => rw [ht] at h; cases h
    | some tg =>
      cases tg with
      | buf b k => rw [ht] at h; cases h
      | reg r =>
        rw [ht] at h
        cases r <;> try cases h
        simp only [State.writeCmd] at h
        split at h
        · cases h
        · rcases accept_cases (s.answer none) w lat with ⟨-, he⟩ | ⟨-, he⟩ <;> rw [he] at h
          · cases h
          · exact (exec_fault_in h).of_mem rfl

end Sys2Proof.Machine
end

