-- ==== Sys2Proof/Laws/Line.lean ====
section
/-! SUPPORT. What the phases of the line can do, said once: the received character, the tick, the transmitter, the end of an
attempt, the state machine. -/

namespace Sys2Proof.Machine

theorem tickPhase_eq (s : State) :
    s.tickPhase = { s with presc := if s.presc = s.tickDiv then 0#32 else s.presc + 1#32 } := by
  simp [State.tickPhase, State.tick]

/-- The prescaler after the tick phase, as a number (42_transceiver.md R106). -/
theorem tickPhase_presc_toNat {s : State} (h : s.presc.toNat ≤ s.tickDiv.toNat) :
    s.tickPhase.presc.toNat = if s.presc = s.tickDiv then 0 else s.presc.toNat + 1 := by
  simp only [tickPhase_eq]
  split
  · rfl
  · rename_i hne
    have h2 := s.tickDiv.isLt
    have : s.presc.toNat ≠ s.tickDiv.toNat := fun h => hne (BitVec.eq_of_toNat_eq h)
    rw [BitVec.toNat_add]
    simp
    omega

/-- The prescaler stays within TICK_DIV (10_state.md R45). -/
theorem tickPhase_presc_le {s : State} (h : s.presc.toNat ≤ s.tickDiv.toNat) :
    s.tickPhase.presc.toNat ≤ s.tickDiv.toNat := by
  rw [tickPhase_presc_toNat h]
  split
  · exact Nat.zero_le _
  · rename_i hne
    have : s.presc.toNat ≠ s.tickDiv.toNat := fun h => hne (BitVec.eq_of_toNat_eq h)
    omega

/-- A wait count below its field takes the tick without saturating (40_commands.md R96). -/
theorem waitCount_toNat {k : Bool} {w : BitVec 16} {T : Nat} (hT : T ≤ 0xFFFF) (hw : w.toNat < T) :
    (waitCount k w).toNat = if k then w.toNat + 1 else w.toNat := by
  have hne : w ≠ 0xFFFF#16 := by
    rintro rfl
    simp at hw
    omega
  unfold waitCount sat16
  split
  · rw [BitVec.toNat_add]
    simp
    omega
  · rfl

/-- A received character changes only RX_LEN, the receive flags and RXBUF (42_transceiver.md R123, R124). -/
theorem rxPhase_frame (s : State) (x0 : XState) (rx : Option RxChar) :
    s.rxPhase x0 rx = { s with
      rxLen := (s.rxPhase x0 rx).rxLen, rxOvf := (s.rxPhase x0 rx).rxOvf, rxPerr := (s.rxPhase x0 rx).rxPerr
      rxFerr := (s.rxPhase x0 rx).rxFerr, mem := (s.rxPhase x0 rx).mem } := by
  cases rx with
  | none => rfl
  | some c =>
    simp only [State.rxPhase]
    split
    · simp only [State.takeChar]
      split <;> rfl
    · rfl

/-- Memory outside RXBUF is untouched by a received character. -/
theorem rxPhase_mem_out (s : State) (x0 : XState) (rx : Option RxChar) {a : Nat} (h : a < 0x400 ∨ 0x600 ≤ a) :
    (s.rxPhase x0 rx).mem.get a = s.mem.get a := by
  cases rx with
  | none => rfl
  | some c =>
    simp only [State.rxPhase]
    split
    · simp only [State.takeChar]
      split
      · rename_i hl
        exact Memory.get_set_ne _ _ (by simp only [Buf.base]; omega)
      · rfl
    · rfl

/-- What one cycle of the transmitter can do (42_transceiver.md R120): move on within the run, or end it. -/
theorem txAdvance_cases (s : State) (last : Nat) (f : State → State) :
    (∃ c b i, s.txAdvance last f = { s with txcyc := c, txbit := b, txidx := i }) ∨
    s.txAdvance last f = f { s with txcyc := 0#16, txbit := 0#4, txidx := 0#10 } := by
  unfold State.txAdvance
  split
  · exact .inl ⟨_, _, _, rfl⟩
  · split
    · exact .inl ⟨_, _, _, rfl⟩
    · split
      · exact .inl ⟨_, _, _, rfl⟩
      · exact .inr rfl

/-- A failed attempt waits for the next while one remains (42_transceiver.md R116). -/
theorem attemptFailed_retry {s : State} (e : ErrCode) (h : s.attempt.toNat < s.maxAttempts.toNat) :
    s.attemptFailed e = { s with lastErr := e, wcnt := 0#16, xstate := .retryWait } := by
  simp only [State.attemptFailed]
  rw [if_pos h]

/-- The last failed attempt ends the EXCHANGE with NoResponse and no parse results (42_transceiver.md R116). -/
theorem attemptFailed_last {s : State} (e : ErrCode) (h : s.maxAttempts.toNat ≤ s.attempt.toNat) :
    s.attemptFailed e = ({ s with lastErr := e } : State).clearParse.complete .noResponse := by
  simp only [State.attemptFailed]
  rw [if_neg (by omega)]

/-- What the state machine can change in one cycle. -/
structure LineEffect (s t : State) : Prop where
  frame : t = { s with
    done := t.done, errcode := t.errcode, lastErr := t.lastErr, xstate := t.xstate, attempt := t.attempt, rxLen := t.rxLen
    rxCtrl := t.rxCtrl, rxL := t.rxL, rxHasDi := t.rxHasDi, rxPlen := t.rxPlen, rxDi := t.rxDi, wcnt := t.wcnt
    icnt := t.icnt, ccnt := t.ccnt, txidx := t.txidx, txbit := t.txbit, txcyc := t.txcyc, pendOp := t.pendOp
    pendLat := t.pendLat, mem := t.mem }
  done : s.done = true → t.done = true
  mem : t.mem = s.mem ∨ ∃ vs : List Byte, vs.length ≤ 255 ∧ t.mem = s.mem.setBytes 0x600 vs

theorem LineEffect.refl (s : State) : LineEffect s s := ⟨rfl, id, .inl rfl⟩

theorem attemptFailed_effect (s : State) (e : ErrCode) : LineEffect s (s.attemptFailed e) := by
  rcases Nat.lt_or_ge s.attempt.toNat s.maxAttempts.toNat with h | h
  · rw [attemptFailed_retry e h]; exact ⟨rfl, id, .inl rfl⟩
  · rw [attemptFailed_last e h]; exact ⟨rfl, fun _ => rfl, .inl rfl⟩

theorem txAdvance_effect {s : State} {last : Nat} {f : State → State} (hf : ∀ u, LineEffect u (f u)) :
    LineEffect s (s.txAdvance last f) := by
  rcases txAdvance_cases s last f with ⟨c, b, i, h⟩ | h <;> rw [h]
  · exact ⟨rfl, id, .inl rfl⟩
  · have h0 := hf { s with txcyc := 0#16, txbit := 0#4, txidx := 0#10 }
    refine ⟨?_, h0.done, h0.mem⟩
    rw [h0.frame]

/-- Everything ACCUM can do in one cycle, from the state `u` with this cycle's counts (42_transceiver.md R114, R115). -/
theorem accumStep_cases (s : State) (arr tick : Bool) :
    let u := s.accumCount arr tick
    (u.rxLen ≠ 0#10 ∧ u.tInact.toNat ≤ u.icnt.toNat ∧
      ((∃ c l hd di p, parse (u.bufByte .rxbuf) u.rxLen.toNat = .ok (.ok c l hd di p) ∧ p.length ≤ 255 ∧
          s.accumStep arr tick = .next ((u.applyParse (.ok c l hd di p)).complete .ok)) ∨
        (∃ e, parse (u.bufByte .rxbuf) u.rxLen.toNat = .ok (.fail e) ∧ e ∈ [ErrCode.frameTooShort, .invalidFrameMarkers,
          .invalidSecondStart, .lengthMismatch, .checksumMismatch] ∧
          s.accumStep arr tick = .next (u.attemptFailed e)) ∨
        ∃ i a, i < u.rxLen.toNat ∧ u.bufByte .rxbuf i = .error (.absentByte a) ∧
          s.accumStep arr tick = .fault (.absentByte a))) ∨
    (u.rxLen = 0#10 ∧ u.tCeil.toNat ≤ u.ccnt.toNat ∧ s.accumStep arr tick = .next (u.attemptFailed .noResponse)) ∨
    (((u.rxLen ≠ 0#10 ∧ u.icnt.toNat < u.tInact.toNat) ∨ (u.rxLen = 0#10 ∧ u.ccnt.toNat < u.tCeil.toNat)) ∧
      s.accumStep arr tick = .next u) := by
  intro u
  have hs : s.accumStep arr tick =
      if u.rxLen ≠ 0#10 ∧ u.tInact.toNat ≤ u.icnt.toNat then
        readThen (parse (u.bufByte .rxbuf) u.rxLen.toNat) fun r => .next (u.respond r)
      else if u.rxLen = 0#10 ∧ u.tCeil.toNat ≤ u.ccnt.toNat then .next (u.attemptFailed .noResponse)
      else .next u := rfl
  clear_value u
  rw [hs]
  by_cases h1 : u.rxLen ≠ 0#10 ∧ u.tInact.toNat ≤ u.icnt.toNat
  · refine .inl ⟨h1.1, h1.2, ?_⟩
    rw [if_pos h1]
    rcases parse_cases (u.bufByte .rxbuf) u.rxLen.toNat with ⟨c, l, hd, di, p, hp, -, hl⟩ | ⟨e, hp, hm⟩ | ⟨f, i, hp, hi, hf⟩
    · rw [hp]
      have := l.isLt
      exact .inl ⟨c, l, hd, di, p, rfl, by omega, rfl⟩
    · rw [hp]
      exact .inr (.inl ⟨e, rfl, hm, rfl⟩)
    · obtain ⟨a, rfl⟩ := bufByte_fault hf
      rw [hp]
      exact .inr (.inr ⟨i, a, hi, hf, rfl⟩)
  · rw [if_neg h1]
    right
    by_cases h2 : u.rxLen = 0#10 ∧ u.tCeil.toNat ≤ u.ccnt.toNat
    · rw [if_pos h2]
      exact .inl ⟨h2.1, h2.2, rfl⟩
    · rw [if_neg h2]
      right
      by_cases hz : u.rxLen = 0#10
      · exact ⟨.inr ⟨hz, by by_contra hc; exact h2 ⟨hz, by omega⟩⟩, rfl⟩
      · exact ⟨.inl ⟨hz, by by_contra hc; exact h1 ⟨hz, by omega⟩⟩, rfl⟩

/-- What the state machine changes when it answers a next state. -/
theorem fsmPhase_effect {s t : State} {x0 : XState} {arr tick : Bool} (h : s.fsmPhase x0 arr tick = .next t) :
    LineEffect s t := by
  cases x0 with
  | idle => cases h; exact .refl _
  | codec => cases h; exact .refl _
  | wakeTx => cases h; exact txAdvance_effect fun u => ⟨rfl, id, .inl rfl⟩
  | settle => cases h; simp only [State.settleStep]; split <;> exact ⟨rfl, id, .inl rfl⟩
  | postWait => cases h; simp only [State.postWaitStep]; split <;> exact ⟨rfl, id, .inl rfl⟩
  | retryWait => cases h; simp only [State.retryWaitStep]; split <;> exact ⟨rfl, id, .inl rfl⟩
  | frameTx =>
    simp only [State.fsmPhase] at h
    cases hb : s.bufByte .txbuf s.txidx.toNat with
    | error f => rw [hb] at h; cases h
    | ok v => rw [hb] at h; cases h; exact txAdvance_effect fun u => ⟨rfl, id, .inl rfl⟩
  | accum =>
    simp only [State.fsmPhase] at h
    have h0 : s.accumCount arr tick = { s with
        icnt := (s.accumCount arr tick).icnt, ccnt := (s.accumCount arr tick).ccnt } := rfl
    have hc := accumStep_cases s arr tick
    simp only at hc
    generalize s.accumCount arr tick = u at h0 hc
    have key : ∀ v, LineEffect u v → LineEffect s v := by
      intro v hv
      refine ⟨?_, ?_, ?_⟩
      · rw [hv.frame, h0]
      · have := hv.done; rw [h0] at this; exact this
      · have := hv.mem; rw [h0] at this; exact this
    apply key
    rcases hc with ⟨-, -, hc⟩ | ⟨-, -, hc⟩ | ⟨-, hc⟩
    · rcases hc with ⟨c, l, hd, di, p, -, hl, hc⟩ | ⟨e, -, -, hc⟩ | ⟨i, a, -, -, hc⟩ <;> rw [hc] at h
      · cases h; exact ⟨rfl, fun _ => rfl, .inr ⟨p, hl, rfl⟩⟩
      · cases h; exact attemptFailed_effect ..
      · cases h
    · rw [hc] at h; cases h; exact attemptFailed_effect ..
    · rw [hc] at h; cases h; exact .refl _

/-- The state machine stops only on an absent byte. -/
theorem fsmPhase_stops (s : State) (x0 : XState) (arr tick : Bool) :
    (∃ t, s.fsmPhase x0 arr tick = .next t) ∨ ∃ a, s.fsmPhase x0 arr tick = .fault (.absentByte a) := by
  cases x0 with
  | frameTx =>
    simp only [State.fsmPhase]
    cases hb : s.bufByte .txbuf s.txidx.toNat with
    | error f => obtain ⟨a, rfl⟩ := bufByte_fault hb; exact .inr ⟨a, rfl⟩
    | ok v => exact .inl ⟨_, rfl⟩
  | accum =>
    have hc := accumStep_cases s arr tick
    simp only at hc
    simp only [State.fsmPhase]
    rcases hc with ⟨-, -, hc⟩ | ⟨-, -, hc⟩ | ⟨-, hc⟩
    · rcases hc with ⟨c, l, hd, di, p, -, -, hc⟩ | ⟨e, -, -, hc⟩ | ⟨i, a, -, -, hc⟩
      · exact .inl ⟨_, hc⟩
      · exact .inl ⟨_, hc⟩
      · exact .inr ⟨a, hc⟩
    · exact .inl ⟨_, hc⟩
    · exact .inl ⟨_, hc⟩
  | _ => exact .inl ⟨_, rfl⟩

end Sys2Proof.Machine
end

