-- ==== Sys2Proof/Laws/Cycle.lean ====
section
/-! SUPPORT. What a whole cycle is in each state of the sequencer, how it can stop, and what it does to the outside's choices and
to the prescaler. -/

namespace Sys2Proof.Machine

/-- Outside the receiving states a character does nothing (42_transceiver.md R123). -/
theorem rxPhase_not_receiving {x0 : XState} (h : x0.receiving = false) (s : State) (rx : Option RxChar) :
    s.rxPhase x0 rx = s := by
  cases rx <;> simp [State.rxPhase, h]

theorem linePhases_idle (s : State) (rx : Option RxChar) : s.linePhases .idle rx = .next s.tickPhase := by
  simp only [State.linePhases, State.fsmPhase]
  rw [rxPhase_not_receiving rfl]

theorem linePhases_codec (s : State) (rx : Option RxChar) : s.linePhases .codec rx = .next s.tickPhase := by
  simp only [State.linePhases, State.fsmPhase]
  rw [rxPhase_not_receiving rfl]

theorem commitPhase_not_codec {s : State} (h : s.xstate ≠ .codec) : s.commitPhase = .next s := by
  simp [State.commitPhase, h]

/-- A pending command whose latency has not run out waits one cycle (40_commands.md R89). -/
theorem commitPhase_waits {s : State} (hx : s.xstate = .codec) (hl : 0 < s.pendLat) :
    s.commitPhase = .next { s with pendLat := s.pendLat - 1 } := by
  rw [State.commitPhase, if_pos hx, if_neg (Nat.ne_of_gt hl)]

/-- A command that has run leaves nothing to commit. -/
theorem commitPhase_of_exec {i : Instr} {s t : State} (h : exec i s = .next t) : t.commitPhase = .next t := by
  rcases exec_cases i s with ⟨e, u, he, -⟩ | ⟨-, he, -⟩ | ⟨a, he⟩
  · rw [he] at h; cases h; exact commitPhase_not_codec (by simp)
  · rw [he] at h; cases h; exact commitPhase_not_codec (by simp)
  · rw [he] at h; cases h

/-- A cycle that starts in IDLE. -/
theorem step_of_idle {s : State} (h : s.xstate = .idle) (hr : s.choice.rstN = true) :
    step s = thenDo (s.advance.hostPhase s.choice.access s.choice.latDraw) fun t =>
      thenDo t.commitPhase fun u => .next u.tickPhase := by
  rw [step_of_rstN_high hr, h]
  simp only [linePhases_idle]

/-- A cycle that starts with a codec command pending. -/
theorem step_of_codec {s : State} (h : s.xstate = .codec) (hr : s.choice.rstN = true) :
    step s = thenDo (s.advance.hostPhase s.choice.access s.choice.latDraw) fun t =>
      thenDo t.commitPhase fun u => .next u.tickPhase := by
  rw [step_of_rstN_high hr, h]
  simp only [linePhases_codec]

/-- A cycle in which the host writes a command word while BUSY is 0 (40_commands.md R85). -/
theorem step_of_writesCmd {s : State} {w : Word} (h : s.xstate = .idle) (hw : s.writesCmd w) :
    step s = thenDo ((s.advance.answer none).accept w s.choice.latDraw) fun t =>
      thenDo t.commitPhase fun u => .next u.tickPhase := by
  rw [step_of_idle h hw.1, hw.2]
  have : s.advance.hostPhase (some (.write 0x008#11 .four w)) s.choice.latDraw =
      (s.advance.answer none).accept w s.choice.latDraw := by
    show (s.advance.answer none).writeCmd w _ = _
    simp [State.writeCmd, State.busy, h]
  rw [this]

/-- A cycle with its host access taken out. -/
theorem step_withChosenAccess_none {s : State} (h : s.choice.rstN = true) :
    step (s.withChosenAccess none) =
      thenDo (s.advance.answer none).commitPhase fun u => u.linePhases s.xstate s.choice.rx := by
  rw [step_of_rstN_high (by exact h)]
  rfl

/-- The host access of a busy cycle is no command acceptance. -/
theorem hostPhase_of_busy {s t : State} {access : Option Access} {lat : Nat} (hi : s.xstate ≠ .idle)
    (h : s.hostPhase access lat = .next t) : HostEffect s t := by
  rcases hostPhase_cases s access lat with ⟨u, h1, h2⟩ | ⟨h0, -⟩ | ⟨_, _, h1, -⟩ | ⟨_, h1⟩
  · rw [h1] at h; cases h; exact h2
  · exact absurd h0 hi
  · rw [h1] at h; cases h
  · rw [h1] at h; cases h

/-- A cycle of an EXCHANGE that answers: the host access `u`, which changes flags only, then the line. -/
theorem step_in_exchange {s t : State} (hr : s.choice.rstN = true) (hi : s.xstate ≠ .idle) (hc : s.xstate ≠ .codec)
    (hs : step s = .next t) :
    ∃ u, s.advance.hostPhase s.choice.access s.choice.latDraw = .next u ∧
      u = { s with
        rdata := u.rdata, ctrlIe := u.ctrlIe, done := u.done, rej := u.rej, werr := u.werr, rxOvf := u.rxOvf
        rxPerr := u.rxPerr, rxFerr := u.rxFerr, inputs := s.inputs.tail, cycle := s.cycle + 1 } ∧
      (u.done = true → s.done = true) ∧
      (u.rxPhase s.xstate s.choice.rx).tickPhase.fsmPhase s.xstate (arrived s.xstate s.choice.rx)
        (u.rxPhase s.xstate s.choice.rx).tick = .next t := by
  rw [step_of_rstN_high hr] at hs
  obtain ⟨u, hu, hs1⟩ := thenDo_eq_next hs
  obtain ⟨v, hv, hs2⟩ := thenDo_eq_next hs1
  have he := hostPhase_of_busy (s := s.advance) hi hu
  have hx : u.xstate = s.xstate := by rw [he.frame]; rfl
  rw [commitPhase_not_codec (by rw [hx]; exact hc)] at hv
  cases hv
  exact ⟨u, hu, by rw [he.busy hi]; rfl, he.done, hs2⟩

/-- A command stops only on an absent byte. -/
theorem exec_stops (i : Instr) (s : State) : (∃ t, exec i s = .next t) ∨ ∃ a, exec i s = .fault (.absentByte a) := by
  rcases exec_cases i s with ⟨_, _, h, -⟩ | ⟨-, h, -⟩ | h
  · exact .inl ⟨_, h⟩
  · exact .inl ⟨_, h⟩
  · exact .inr h

theorem commitPhase_stops (s : State) : (∃ t, s.commitPhase = .next t) ∨ ∃ a, s.commitPhase = .fault (.absentByte a) := by
  unfold State.commitPhase
  split
  · split
    · exact exec_stops _ _
    · exact .inl ⟨_, rfl⟩
  · exact .inl ⟨_, rfl⟩

theorem accept_stops (s : State) (w : Word) (lat : Nat) :
    (∃ t, s.accept w lat = .next t) ∨ ∃ a, s.accept w lat = .fault (.absentByte a) := by
  rcases accept_cases s w lat with ⟨-, h⟩ | ⟨-, h⟩ <;> rw [h]
  · exact .inl ⟨_, rfl⟩
  · exact exec_stops _ _

theorem linePhases_stops (s : State) (x0 : XState) (rx : Option RxChar) :
    (∃ t, s.linePhases x0 rx = .next t) ∨ ∃ a, s.linePhases x0 rx = .fault (.absentByte a) :=
  fsmPhase_stops ..

/-- The reset cycle takes the reset values; the buffers and the outside's choices stay (70_reset_and_hazards.md R143). -/
theorem resetPhase_frame (s : State) (access : Option Access) :
    s.resetPhase access = { State.reset with
      mem := s.mem, rdata := (s.resetPhase access).rdata, inputs := s.inputs, cycle := s.cycle } := by
  unfold State.resetPhase
  split <;> rfl

theorem exec_inputs {i : Instr} {s t : State} (h : exec i s = .next t) :
    t.inputs = s.inputs ∧ t.cycle = s.cycle ∧ t.presc = s.presc ∧ t.tickDiv = s.tickDiv := by
  rcases exec_cases i s with ⟨e, u, he, hu⟩ | ⟨-, he, -⟩ | ⟨a, he⟩ <;> rw [he] at h
  · cases h; rw [hu.frame]; exact ⟨rfl, rfl, rfl, rfl⟩
  · cases h; exact ⟨rfl, rfl, rfl, rfl⟩
  · cases h

theorem commitPhase_inputs {s t : State} (h : s.commitPhase = .next t) :
    t.inputs = s.inputs ∧ t.cycle = s.cycle ∧ t.presc = s.presc ∧ t.tickDiv = s.tickDiv := by
  unfold State.commitPhase at h
  split at h
  · split at h
    · exact exec_inputs h
    · cases h; exact ⟨rfl, rfl, rfl, rfl⟩
  · cases h; exact ⟨rfl, rfl, rfl, rfl⟩

theorem hostPhase_inputs {s t : State} {access : Option Access} {lat : Nat} (h : s.hostPhase access lat = .next t) :
    t.inputs = s.inputs ∧ t.cycle = s.cycle := by
  rcases hostPhase_cases s access lat with ⟨u, hu, he⟩ | ⟨-, w, -, hu⟩ | ⟨_, _, hu, -⟩ | ⟨_, hu⟩ <;> rw [hu] at h
  · cases h; rw [he.frame]; exact ⟨rfl, rfl⟩
  · rcases accept_cases (s.answer none) w lat with ⟨-, he⟩ | ⟨-, he⟩ <;> rw [he] at h
    · cases h; exact ⟨rfl, rfl⟩
    · have := exec_inputs h; exact ⟨this.1, this.2.1⟩
  · cases h
  · cases h

theorem linePhases_inputs {s t : State} {x0 : XState} {rx : Option RxChar} (h : s.linePhases x0 rx = .next t) :
    t.inputs = s.inputs ∧ t.cycle = s.cycle ∧ t.tickDiv = s.tickDiv ∧
      t.presc = if s.presc = s.tickDiv then 0#32 else s.presc + 1#32 := by
  rw [(fsmPhase_effect h).frame, tickPhase_eq, rxPhase_frame]
  exact ⟨rfl, rfl, rfl, rfl⟩

/-- A cycle uses up one choice of the outside. -/
theorem step_inputs {s t : State} (h : step s = .next t) : t.inputs = s.inputs.tail ∧ t.cycle = s.cycle + 1 := by
  cases hr : s.choice.rstN with
  | false =>
    rw [step_of_rstN_low hr] at h
    cases h
    rw [resetPhase_frame]
    exact ⟨rfl, rfl⟩
  | true =>
    rw [step_of_rstN_high hr] at h
    obtain ⟨u, hu, h⟩ := thenDo_eq_next h
    obtain ⟨v, hv, h⟩ := thenDo_eq_next h
    have a := hostPhase_inputs hu
    have b := commitPhase_inputs hv
    have c := linePhases_inputs h
    rw [c.1, c.2.1, b.1, b.2.1, a.1, a.2]
    exact ⟨rfl, rfl⟩

end Sys2Proof.Machine
end

