-- ==== Sys2Proof/Laws/Invariant.lean ====
section
/-! SUPPORT. The shared operations keep the invariant. -/

namespace Sys2Proof.Machine

/-- The part of the invariant that no command in progress bears on. -/
structure State.InvBase (s : State) : Prop where
  memWf : s.mem.wf
  memInBuffers : ∀ c ∈ s.mem, (bufAt c.1).isSome = true
  prescLe : s.presc.toNat ≤ s.tickDiv.toNat

theorem State.Inv.base {s : State} (h : s.Inv) : State.InvBase s := ⟨h.memWf, h.memInBuffers, h.prescLe⟩

/-- A write inside the buffers keeps the base part. -/
theorem invBase_write {s t : State} (h : State.InvBase s) (hp : t.presc = s.presc ∧ t.tickDiv = s.tickDiv)
    (hm : t.mem = s.mem ∨ ∃ (a : Nat) (vs : List Byte),
      t.mem = s.mem.setBytes a vs ∧ 0x100 ≤ a ∧ a + vs.length ≤ 0x710) : State.InvBase t := by
  rcases hm with hm | ⟨a, vs, hm, h1, h2⟩
  · exact ⟨hm ▸ h.memWf, hm ▸ h.memInBuffers, by rw [hp.1, hp.2]; exact h.prescLe⟩
  · refine ⟨hm ▸ Memory.setBytes_wf _ _ h.memWf, ?_, by rw [hp.1, hp.2]; exact h.prescLe⟩
    rw [hm]
    intro c hc
    rcases Memory.mem_setBytes hc with hc | hc
    · exact bufAt_some (by omega)
    · exact h.memInBuffers c hc

/-- A completion leaves the invariant. -/
theorem inv_complete {s : State} (h : State.InvBase s) (e) : (s.complete e).Inv where
  memWf := h.memWf
  memInBuffers := h.memInBuffers
  prescLe := h.prescLe
  busyNotDone := fun h => absurd rfl h
  pending := fun h => by cases h
  nonePending := fun _ => ⟨rfl, rfl⟩
  exchange := fun h => by cases h
  received := fun h => by cases h
  retrying := fun h => by cases h
  inPreamble := fun h => by cases h
  inFrame := fun h => by cases h

/-- What a command does before it completes keeps the base part. -/
theorem invBase_codec {s u : State} (h : State.InvBase s) (hu : CodecEffect s u) : State.InvBase u := by
  refine invBase_write h (by rw [hu.frame]; exact ⟨rfl, rfl⟩) ?_
  rcases hu.mem with hm | ⟨vs, hl, hm⟩ | ⟨vs, hl, hm⟩
  · exact .inl hm
  · exact .inr ⟨_, vs, hm, by omega, by omega⟩
  · exact .inr ⟨_, vs, hm, by omega, by omega⟩

/-- A command leaves the invariant. -/
theorem inv_exec {i : Instr} {s t : State} (h : State.InvBase s)
    (hx : i = .exchange → s.done = false ∧ s.errcode = .ok ∧ s.pendOp = 0#4 ∧ s.pendLat = 0)
    (he : exec i s = .next t) : t.Inv := by
  rcases exec_cases i s with ⟨e, u, h1, hu⟩ | ⟨h0, h1, h2, h3, h4, h5⟩ | ⟨a, h1⟩ <;> rw [h1] at he
  · cases he; exact inv_complete (invBase_codec h hu) e
  · cases he
    obtain ⟨x1, x2, x3, x4⟩ := hx h0
    have hb : 0 < s.baudDiv.toNat := by
      rcases Nat.eq_zero_or_pos s.baudDiv.toNat with h | h
      · exact absurd (BitVec.eq_of_toNat_eq (by simpa using h)) h4
      · exact h
    have hf : 0 < s.frameLen.toNat := by
      rcases Nat.eq_zero_or_pos s.frameLen.toNat with h | h
      · exact absurd (BitVec.eq_of_toNat_eq (by simpa using h)) h2
      · exact h
    have hm : 0 < s.maxAttempts.toNat := by
      rcases Nat.eq_zero_or_pos s.maxAttempts.toNat with h | h
      · exact absurd (BitVec.eq_of_toNat_eq (by simpa using h)) h5
      · exact h
    exact {
      memWf := h.memWf
      memInBuffers := h.memInBuffers
      prescLe := h.prescLe
      busyNotDone := fun _ => ⟨x1, x2⟩
      pending := fun h => by cases h
      nonePending := fun _ => ⟨x3, x4⟩
      exchange := fun _ => ⟨hf, h3, h4, by simp, by simp; omega⟩
      received := fun _ => ⟨by simp, by simp⟩
      retrying := fun h => by cases h
      inPreamble := fun _ => ⟨by simp, by simp [State.txInBit]; exact hb⟩
      inFrame := fun h => by cases h }
  · cases he

/-- A host access that accepts no command keeps the invariant. -/
theorem inv_host {s t : State} (h : s.Inv) (he : HostEffect s t) : t.Inv := by
  have hx : t.xstate = s.xstate := by rw [he.frame]
  have hm : t.mem.wf ∧ ∀ c ∈ t.mem, (bufAt c.1).isSome = true := by
    rcases he.mem with hm | ⟨b, a, vs, hm, h1, h2⟩
    · rw [hm]; exact ⟨h.memWf, h.memInBuffers⟩
    · have hb : 0x100 ≤ b.base ∧ b.base + b.size ≤ 0x710 := by cases b <;> decide
      have := invBase_write (t := { s with mem := t.mem }) h.base ⟨rfl, rfl⟩ (.inr ⟨a, vs, by exact hm, by omega, by omega⟩)
      exact ⟨this.1, this.2⟩
  have hp : t.presc.toNat ≤ t.tickDiv.toNat := by
    rcases he.presc with ⟨h1, h2⟩ | h1
    · rw [h1, h2]; exact h.prescLe
    · rw [h1]; simp
  by_cases hi : s.xstate = .idle
  · have hn := h.nonePending (by simp [hi])
    exact {
      memWf := hm.1
      memInBuffers := hm.2
      prescLe := hp
      busyNotDone := fun h => absurd (hx.trans hi) h
      pending := fun h => by rw [hx, hi] at h; cases h
      nonePending := fun _ => by rw [he.frame]; exact hn
      exchange := fun h => by rw [hx, hi] at h; cases h
      received := fun h => by rw [hx, hi] at h; cases h
      retrying := fun h => by rw [hx, hi] at h; cases h
      inPreamble := fun h => by rw [hx, hi] at h; cases h
      inFrame := fun h => by rw [hx, hi] at h; cases h }
  · have hd := he.done
    rw [he.busy hi] at hd ⊢
    have hn := h.busyNotDone hi
    have : t.done = false := by
      by_contra hc
      have := hd (by simpa using hc)
      rw [hn.1] at this; cases this
    exact {
      memWf := h.memWf
      memInBuffers := h.memInBuffers
      prescLe := h.prescLe
      busyNotDone := fun _ => ⟨this, hn.2⟩
      pending := h.pending
      nonePending := h.nonePending
      exchange := h.exchange
      received := h.received
      retrying := h.retrying
      inPreamble := h.inPreamble
      inFrame := h.inFrame }

/-- The tick keeps the invariant. -/
theorem inv_tick {s : State} (h : s.Inv) : s.tickPhase.Inv :=
  { h with prescLe := tickPhase_presc_le h.prescLe }

/-- The received character keeps the invariant. -/
theorem inv_rx {s : State} (h : s.Inv) (rx) : (s.rxPhase s.xstate rx).Inv := by
  cases rx with
  | none => exact h
  | some c =>
    simp only [State.rxPhase]
    split
    · rename_i hr
      have hin : s.xstate.inExchange = true := by revert hr; cases s.xstate <;> simp [XState.receiving, XState.inExchange]
      have hrec := h.received hin
      simp only [State.takeChar]
      split
      · rename_i hlt
        have hb := invBase_write (s := s) (t := s.setBufByte .rxbuf s.rxLen.toNat c.data) h.base ⟨rfl, rfl⟩
          (.inr ⟨_, [c.data], rfl, by simp [Buf.base]; omega, by simp [Buf.base]; omega⟩)
        have hl : (s.rxLen + 1#10).toNat = s.rxLen.toNat + 1 := by rw [BitVec.toNat_add]; simp; omega
        refine ⟨hb.1, hb.2, hb.3, h.busyNotDone, h.pending, h.nonePending, h.exchange, h.retrying,
          fun _ => ⟨?_, ?_⟩, h.inPreamble, h.inFrame⟩
        · show (s.rxLen + 1#10).toNat ≤ 512; omega
        · intro i hi
          change i < (s.rxLen + 1#10).toNat at hi
          show ((s.mem.set (Buf.rxbuf.base + s.rxLen.toNat) c.data).get (Buf.rxbuf.base + i)).isSome = true
          rw [Memory.get_set]
          split
          · rfl
          · exact hrec.2 i (by omega)
      · exact { h with }
    · exact h

end Sys2Proof.Machine
end

