-- ==== Sys2Proof/Laws/PerInstr.lean ====
section
/-! SUPPORT. Statements about every command, one lemma per constructor of Instr. -/

namespace Sys2Proof.Laws.EncodesLegality

/-- The word of a well-formed command meets R71's test exactly if the command is `illegal` (30_encoding.md R71). -/
def Statement (i : Instr) : Prop :=
  i.wellFormed = true → (illegalWord (encode i) = true ↔ ∃ w, i = .illegal w)

theorem nop : Statement .nop := by intro _; simp [encode, illegalWord_eq]
theorem addrEncode : Statement .addrEncode := by intro _; simp [encode, illegalWord_eq]
theorem build : Statement .build := by intro _; simp [encode, illegalWord_eq]
theorem parseRx : Statement .parseRx := by intro _; simp [encode, illegalWord_eq]
theorem parseTx : Statement .parseTx := by intro _; simp [encode, illegalWord_eq]
theorem exchange : Statement .exchange := by intro _; simp [encode, illegalWord_eq]

theorem illegal (w : Word) : Statement (.illegal w) := by
  intro h
  refine ⟨fun _ => ⟨w, rfl⟩, fun _ => ?_⟩
  cases hi : illegalWord (encode (.illegal w)) with
  | true => rfl
  | false =>
    exfalso
    rcases legalWord_cases hi with hw | hw | hw | hw | hw | hw <;>
      (simp only [encode] at hw; subst hw; revert h; decide)

end Sys2Proof.Laws.EncodesLegality
end

