-- ==== Sys2Proof/Laws/Run.lean ====
section
/-! SUPPORT. Runs of several cycles: how they split, which choices they use, and the two inductions of an attempt, said once: a
run of the transmitter and a wait. -/

namespace Sys2Proof.Machine

@[simp] theorem runFor_zero (s : State) : runFor 0 s = .next s := rfl

theorem runFor_succ (k : Nat) (s : State) : runFor (k + 1) s = thenDo (step s) (runFor k) := rfl

/-- `runFor` is the run of the host's interface. -/
theorem runFor_eq_core_run (k : Nat) (s : State) : runFor k s = Sys2Proof.core.run k s := by
  induction k generalizing s with
  | zero => rfl
  | succ k ih =>
    cases h : step s with
    | next t =>
      have h' : Sys2Proof.core.step s = .next t := h
      simp only [runFor_succ, h, thenDo_next, Host.Core.run, h']
      exact ih t
    | fault f =>
      have h' : Sys2Proof.core.step s = .fault f := h
      simp only [runFor_succ, h, thenDo_fault, Host.Core.run, h']
      rfl
    | refused r =>
      have h' : Sys2Proof.core.step s = .refused r := h
      simp only [runFor_succ, h, thenDo_refused, Host.Core.run, h']
      rfl

theorem runFor_add (j k : Nat) (s : State) : runFor (j + k) s = thenDo (runFor j s) (runFor k) := by
  induction j generalizing s with
  | zero => simp
  | succ j ih =>
    rw [Nat.add_right_comm, runFor_succ, runFor_succ]
    cases step s with
    | next t => exact ih t
    | fault f => rfl
    | refused r => rfl

/-- The last cycle of a run. -/
theorem runFor_snoc {k : Nat} {s t : State} (h : runFor k s = .next t) : runFor (k + 1) s = step t := by
  rw [runFor_add, h, thenDo_next, runFor_succ]
  cases step t <;> rfl

theorem choiceAt_zero (s : State) : s.choiceAt 0 = s.choice := by
  simp only [State.choiceAt, State.choice]
  cases s.inputs <;> rfl

/-- The choices seen from a state that has used up the first `j`. -/
theorem choiceAt_drop {s t : State} {j : Nat} (hi : t.inputs = s.inputs.drop j) (hc : t.cycle = s.cycle + j) (k : Nat) :
    t.choiceAt k = s.choiceAt (j + k) := by
  simp [State.choiceAt, hi, hc, List.getD, Nat.add_assoc]

theorem choice_drop {s t : State} {j : Nat} (hi : t.inputs = s.inputs.drop j) (hc : t.cycle = s.cycle + j) :
    t.choice = s.choiceAt j := by
  rw [← choiceAt_zero, choiceAt_drop hi hc, Nat.add_zero]

/-- A run of `k` cycles uses up `k` choices of the outside. -/
theorem runFor_inputs {k : Nat} {s t : State} (h : runFor k s = .next t) :
    t.inputs = s.inputs.drop k ∧ t.cycle = s.cycle + k := by
  induction k generalizing t with
  | zero => cases h; simp
  | succ k ih =>
    rw [runFor_add k 1] at h
    obtain ⟨u, hu, hs⟩ := thenDo_eq_next h
    obtain ⟨i1, i2⟩ := ih hu
    obtain ⟨v, hv, hs⟩ := thenDo_eq_next hs
    cases hs
    obtain ⟨j1, j2⟩ := step_inputs hv
    rw [j1, j2, i1, i2]
    simp
    omega

theorem choice_runFor {k : Nat} {s t : State} (h : runFor k s = .next t) : t.choice = s.choiceAt k :=
  choice_drop (runFor_inputs h).1 (runFor_inputs h).2

theorem choiceAt_runFor {k : Nat} {s t : State} (h : runFor k s = .next t) (j : Nat) : t.choiceAt j = s.choiceAt (k + j) :=
  choiceAt_drop (runFor_inputs h).1 (runFor_inputs h).2 j

/-- The fields that the phases of an attempt without reception leave alone. -/
structure Keeps (s t : State) : Prop where
  mem : t.mem = s.mem
  frameLen : t.frameLen = s.frameLen
  baudDiv : t.baudDiv = s.baudDiv
  attempt : t.attempt = s.attempt
  maxAttempts : t.maxAttempts = s.maxAttempts
  tSettle : t.tSettle = s.tSettle
  tPostsend : t.tPostsend = s.tPostsend
  tInact : t.tInact = s.tInact
  tCeil : t.tCeil = s.tCeil
  tRetry : t.tRetry = s.tRetry
  tickDiv : t.tickDiv = s.tickDiv
  rxLen : t.rxLen = s.rxLen

theorem Keeps.refl (s : State) : Keeps s s := by constructor <;> rfl

theorem Keeps.trans {s t u : State} (h : Keeps s t) (k : Keeps t u) : Keeps s u where
  mem := k.mem.trans h.mem
  frameLen := k.frameLen.trans h.frameLen
  baudDiv := k.baudDiv.trans h.baudDiv
  attempt := k.attempt.trans h.attempt
  maxAttempts := k.maxAttempts.trans h.maxAttempts
  tSettle := k.tSettle.trans h.tSettle
  tPostsend := k.tPostsend.trans h.tPostsend
  tInact := k.tInact.trans h.tInact
  tCeil := k.tCeil.trans h.tCeil
  tRetry := k.tRetry.trans h.tRetry
  tickDiv := k.tickDiv.trans h.tickDiv
  rxLen := k.rxLen.trans h.rxLen

/-- What a quiet cycle does before the state machine. -/
theorem quiet_front (s : State) :
    Keeps s (s.advance.answer none).tickPhase ∧ (s.advance.answer none).tickPhase.xstate = s.xstate ∧
      (s.advance.answer none).tickPhase.presc = s.tickPhase.presc ∧ (s.advance.answer none).tickPhase.txidx = s.txidx ∧
      (s.advance.answer none).tickPhase.txbit = s.txbit ∧ (s.advance.answer none).tickPhase.txcyc = s.txcyc := by
  refine ⟨by constructor <;> rfl, rfl, rfl, rfl, rfl, rfl⟩

/-- A quiet cycle of WAKE_TX (42_transceiver.md R110). -/
theorem step_of_wakeTx {s : State} (hx : s.xstate = .wakeTx) (hq : hostQuiet s.choice) :
    step s = .next ((s.advance.answer none).tickPhase.txAdvance 3 fun t => { t with wcnt := 0#16, xstate := .settle }) := by
  rw [step_of_hostQuiet hq, hx, commitPhase_not_codec (by simp [hx]), thenDo_next]
  simp only [State.linePhases, State.fsmPhase]
  rw [rxPhase_not_receiving rfl]

/-- A quiet cycle of FRAME_TX whose byte is present (42_transceiver.md R112). -/
theorem step_of_frameTx {s : State} (hx : s.xstate = .frameTx) (hq : hostQuiet s.choice) {b : Byte}
    (hb : s.bufByte .txbuf s.txidx.toNat = .ok b) :
    step s = .next ((s.advance.answer none).tickPhase.txAdvance (s.frameLen.toNat - 1) fun t =>
      { t with wcnt := 0#16, xstate := .postWait }) := by
  rw [step_of_hostQuiet hq, hx, commitPhase_not_codec (by simp [hx]), thenDo_next]
  simp only [State.linePhases, State.fsmPhase]
  rw [rxPhase_not_receiving rfl]
  show readThen (s.bufByte .txbuf s.txidx.toNat) _ = _
  rw [hb]
  rfl

/-- A silent cycle of SETTLE, POST_WAIT or RETRY_WAIT. -/
theorem step_of_wait {s : State} {x : XState} (hx : s.xstate = x) (hq : silent s.choice)
    (h : x = .settle ∨ x = .postWait ∨ x = .retryWait) :
    step s = (s.advance.answer none).tickPhase.fsmPhase x false s.tick := by
  rw [step_of_hostQuiet hq.1, hx, commitPhase_not_codec (by rcases h with h | h | h <;> simp [hx, h]), thenDo_next, hq.2]
  simp only [State.linePhases, State.rxPhase, arrived, Option.isSome_none, Bool.and_false]
  rfl

/-- A silent cycle of ACCUM with nothing received: the ceiling counts (42_transceiver.md R114). -/
theorem step_of_accum_silent {s : State} (hx : s.xstate = .accum) (h0 : s.rxLen = 0#10) (hq : silent s.choice) :
    step s = .next (if s.tCeil.toNat ≤ ((s.advance.answer none).tickPhase.accumCount false s.tick).ccnt.toNat then
        ((s.advance.answer none).tickPhase.accumCount false s.tick).attemptFailed .noResponse
      else (s.advance.answer none).tickPhase.accumCount false s.tick) := by
  rw [step_of_hostQuiet hq.1, hx, commitPhase_not_codec (by simp [hx]), thenDo_next, hq.2]
  simp only [State.linePhases, State.rxPhase, State.fsmPhase, State.accumStep, arrived, Option.isSome_none, Bool.and_false]
  have ht : (s.advance.answer none).tick = s.tick := rfl
  rw [ht]
  have e1 : ((s.advance.answer none).tickPhase.accumCount false s.tick).rxLen = s.rxLen := by simp
  have e2 : ((s.advance.answer none).tickPhase.accumCount false s.tick).tCeil = s.tCeil := by simp
  generalize (s.advance.answer none).tickPhase.accumCount false s.tick = g at *
  rw [if_neg (by rw [e1, h0]; simp)]
  by_cases hc : s.tCeil.toNat ≤ g.ccnt.toNat
  · rw [if_pos ⟨e1.trans h0, by rw [e2]; exact hc⟩, if_pos hc]
  · rw [if_neg (by rw [e2]; tauto), if_neg hc]

/-- The transmitter stands `j` cycles after the first bit of its run, at `B` cycles a bit (42_transceiver.md R120). -/
def TxPos (s : State) (B j : Nat) : Prop :=
  s.txcyc.toNat = j % B ∧ s.txbit.toNat = j / B % 11 ∧ s.txidx.toNat = j / B / 11

theorem TxPos.start {s : State} {B : Nat} (h1 : s.txidx = 0#10) (h2 : s.txbit = 0#4) (h3 : s.txcyc = 0#16) :
    TxPos s B 0 := by
  simp [TxPos, h1, h2, h3]

/-- Within a run of `N` characters the transmitter moves on by one cycle. -/
theorem txAdvance_pos {s : State} {B j N : Nat} {f : State → State} (hB : B = s.baudDiv.toNat) (hB0 : 1 ≤ B)
    (hp : TxPos s B j) (hN1 : 1 ≤ N) (hN : N ≤ 1023) (hj : j + 1 < 11 * N * B) :
    ∃ t, s.txAdvance (N-1) f = t ∧ TxPos t B (j+1) ∧ Keeps s t ∧ t.presc = s.presc ∧ t.xstate = s.xstate := by
  obtain ⟨h1, h2, h3⟩ := hp
  have hq : j / B < 11 * N := Nat.div_lt_of_lt_mul (by rw [Nat.mul_comm]; omega)
  have hBl := s.baudDiv.isLt
  have hr : j % B < B := Nat.mod_lt _ (by omega)
  have hje := Nat.div_add_mod j B
  generalize hqq : j / B = q at *
  generalize hrr : j % B = r at *
  refine ⟨_, rfl, ?_⟩
  simp only [State.txAdvance]
  by_cases c1 : s.txcyc.toNat + 1 < s.baudDiv.toNat
  · rw [if_pos c1]
    have d1 : (j + 1) / B = q := by
      rw [show j + 1 = (r + 1) + B * q by omega, Nat.add_mul_div_left _ _ (by omega), Nat.div_eq_of_lt (by omega)]; omega
    have d2 : (j + 1) % B = r + 1 := by
      rw [show j + 1 = (r + 1) + B * q by omega, Nat.add_mul_mod_self_left, Nat.mod_eq_of_lt (by omega)]
    refine ⟨⟨?_, ?_, ?_⟩, ⟨rfl, rfl, rfl, rfl, rfl, rfl, rfl, rfl, rfl, rfl, rfl, rfl⟩, rfl, rfl⟩
    · show (s.txcyc + 1#16).toNat = _; rw [d2, BitVec.toNat_add]; simp; omega
    · show s.txbit.toNat = _; rw [d1, h2]
    · show s.txidx.toNat = _; rw [d1, h3]
  · rw [if_neg c1]
    have hrB : r + 1 = B := by omega
    have d0 : j + 1 = 0 + B * (q + 1) := by rw [Nat.mul_add]; omega
    have d1 : (j + 1) / B = q + 1 := by
      rw [d0, Nat.add_mul_div_left _ _ (by omega)]; simp
    have d2 : (j + 1) % B = 0 := by
      rw [d0, Nat.add_mul_mod_self_left]; simp
    have hq2 : q + 1 < 11 * N := by
      rw [d0, Nat.zero_add, Nat.mul_comm B] at hj
      exact Nat.lt_of_mul_lt_mul_right hj
    by_cases c2 : s.txbit.toNat < 10
    · rw [if_pos c2]
      refine ⟨⟨?_, ?_, ?_⟩, ⟨rfl, rfl, rfl, rfl, rfl, rfl, rfl, rfl, rfl, rfl, rfl, rfl⟩, rfl, rfl⟩
      · show (0#16).toNat = _; rw [d2]; rfl
      · show (s.txbit + 1#4).toNat = _; rw [d1, BitVec.toNat_add]; simp; omega
      · show s.txidx.toNat = _; rw [d1]; omega
    · rw [if_neg c2]
      have c3 : s.txidx.toNat < N - 1 := by omega
      rw [if_pos c3]
      refine ⟨⟨?_, ?_, ?_⟩, ⟨rfl, rfl, rfl, rfl, rfl, rfl, rfl, rfl, rfl, rfl, rfl, rfl⟩, rfl, rfl⟩
      · show (0#16).toNat = _; rw [d2]; rfl
      · show (0#4).toNat = _; rw [d1]; simp; omega
      · show (s.txidx + 1#10).toNat = _; rw [d1, BitVec.toNat_add]; simp; omega

/-- The last cycle of a run of `N` characters. -/
theorem txAdvance_end {s : State} {B j N : Nat} {f : State → State} (hB : B = s.baudDiv.toNat) (hB0 : 1 ≤ B)
    (hp : TxPos s B j) (hN1 : 1 ≤ N) (hj : j + 1 = 11 * N * B) :
    s.txAdvance (N-1) f = f { s with txcyc := 0#16, txbit := 0#4, txidx := 0#10 } := by
  obtain ⟨h1, h2, h3⟩ := hp
  have hr : j % B < B := Nat.mod_lt _ (by omega)
  have hje := Nat.div_add_mod j B
  generalize hqq : j / B = q at *
  generalize hrr : j % B = r at *
  have hqN : q = 11 * N - 1 ∧ r = B - 1 := by
    have e : j = (B - 1) + B * (11 * N - 1) := by
      rw [Nat.mul_sub, Nat.mul_comm B (11*N)]
      have : B ≤ 11 * N * B := Nat.le_mul_of_pos_left _ (by omega)
      omega
    constructor
    · rw [← hqq, e, Nat.add_mul_div_left _ _ (by omega), Nat.div_eq_of_lt (by omega)]; omega
    · rw [← hrr, e, Nat.add_mul_mod_self_left, Nat.mod_eq_of_lt (by omega)]
  obtain ⟨rfl, rfl⟩ := hqN
  simp only [State.txAdvance]
  rw [if_neg (by omega), if_neg (by omega), if_neg (by omega)]

/-- A run of the transmitter over `N` characters: where it stands after each cycle, and that it ends with `y` after exactly
`11 * N * B` cycles. -/
theorem transmit_run {x : XState} {y : State → State} {N B : Nat} (hNN : 1 ≤ N) (hN : N ≤ 1023) (hB0 : 1 ≤ B) (s : State)
    (hstep : ∀ u : State, Keeps s u → u.xstate = x → u.txidx.toNat < N → hostQuiet u.choice →
      step u = .next ((u.advance.answer none).tickPhase.txAdvance (N-1) y))
    (hx : s.xstate = x) (h0 : TxPos s B 0) (hB : B = s.baudDiv.toNat) (hq : ∀ j < 11 * N * B, hostQuiet (s.choiceAt j)) :
    (∀ j < 11 * N * B, ∃ t, runFor j s = .next t ∧ t.xstate = x ∧ TxPos t B j ∧ Keeps s t ∧
      (s.presc.toNat ≤ s.tickDiv.toNat → t.presc.toNat ≤ s.tickDiv.toNat)) ∧
    ∃ t, runFor (11 * N * B) s = .next (y t) ∧ Keeps s t ∧
      (s.presc.toNat ≤ s.tickDiv.toNat → t.presc.toNat ≤ s.tickDiv.toNat) := by
  have key : ∀ j, j < 11 * N * B → ∃ t, runFor j s = .next t ∧ t.xstate = x ∧ TxPos t B j ∧ Keeps s t ∧
      (s.presc.toNat ≤ s.tickDiv.toNat → t.presc.toNat ≤ s.tickDiv.toNat) := by
    intro j
    induction j with
    | zero => intro _; exact ⟨s, rfl, hx, h0, Keeps.refl s, id⟩
    | succ j ih =>
      intro hj
      obtain ⟨t, ht, htx, hp, hk, hpt⟩ := ih (by omega)
      have hio := runFor_inputs ht
      have hc := choice_drop hio.1 hio.2
      have hidx : t.txidx.toNat < N := by
        rw [hp.2.2]
        have : j / B < 11 * N := Nat.div_lt_of_lt_mul (by rw [Nat.mul_comm]; omega)
        omega
      have hs := hstep t hk htx hidx (by rw [hc]; exact hq j (by omega))
      obtain ⟨a1, a2, a5, a6, a7, a8⟩ := quiet_front t
      have hle := @tickPhase_presc_le t
      generalize (t.advance.answer none).tickPhase = g at *
      have hp' : TxPos g B j := by unfold TxPos at hp ⊢; rw [a6, a7, a8]; exact hp
      obtain ⟨u, hu, hpu, hku, hup, hux⟩ :=
        txAdvance_pos (s := g) (f := y) (by rw [hB, a1.baudDiv, hk.baudDiv]) hB0 hp' hNN hN hj
      rw [hu] at hs
      refine ⟨u, by rw [runFor_snoc ht, hs], ?_, hpu, (hk.trans a1).trans hku, fun h => ?_⟩
      · rw [hux, a2, htx]
      · rw [hup, a5]
        have := hle (by rw [hk.tickDiv]; exact hpt h)
        rw [hk.tickDiv] at this; exact this
  refine ⟨key, ?_⟩
  have hpos : 0 < 11 * N * B := Nat.mul_pos (by omega) (by omega)
  obtain ⟨t, ht, htx, hp, hk, hpt⟩ := key (11 * N * B - 1) (by omega)
  have hio := runFor_inputs ht
  have hc := choice_drop hio.1 hio.2
  have hidx : t.txidx.toNat < N := by
    rw [hp.2.2]
    have : (11 * N * B - 1) / B < 11 * N := Nat.div_lt_of_lt_mul (by rw [Nat.mul_comm B]; omega)
    omega
  have hs := hstep t hk htx hidx (by rw [hc]; exact hq _ (by omega))
  obtain ⟨a1, a2, a5, a6, a7, a8⟩ := quiet_front t
  have hle := @tickPhase_presc_le t
  generalize (t.advance.answer none).tickPhase = g at *
  have hp' : TxPos g B (11 * N * B - 1) := by unfold TxPos at hp ⊢; rw [a6, a7, a8]; exact hp
  rw [txAdvance_end (s := g) (f := y) (by rw [hB, a1.baudDiv, hk.baudDiv]) hB0 hp' hNN (by omega)] at hs
  have hr := runFor_snoc ht
  rw [hs, show 11 * N * B - 1 + 1 = 11 * N * B by omega] at hr
  refine ⟨_, hr, (hk.trans a1).trans ⟨rfl, rfl, rfl, rfl, rfl, rfl, rfl, rfl, rfl, rfl, rfl, rfl⟩, fun h => ?_⟩
  show g.presc.toNat ≤ _
  rw [a5]
  have := hle (by rw [hk.tickDiv]; exact hpt h)
  rw [hk.tickDiv] at this; exact this

/-- A wait in state `x` for `T` ticks of the counter `w`: it lasts exactly as long as the ticks take, and ends as `E` says. `Q` is
what every cycle's choice must meet, `P` what every cycle of the wait keeps. -/
theorem wait_run {x : XState} {T : Nat} (w : State → Nat) (Q : State → Prop) (E : State → Prop) (P : State → Prop)
   (hstep : ∀ u : State, Q u → u.xstate = x → u.presc.toNat ≤ u.tickDiv.toNat → P u →
      ∃ t, step u = .next t ∧ (let w' := if u.presc = u.tickDiv then w u + 1 else w u
         if T ≤ w' then E t else t.xstate = x ∧ w t = w' ∧ P t ∧ t.tickDiv = u.tickDiv ∧ t.presc = u.tickPhase.presc)) :
   ∀ (n : Nat) (s : State), s.xstate = x → P s → s.presc.toNat ≤ s.tickDiv.toNat → (w s < T ∨ (T = 0 ∧ w s = 0)) →
     n = (if T = 0 then 1 else (T - w s - 1) * (s.tickDiv.toNat + 1) + (s.tickDiv.toNat + 1 - s.presc.toNat)) →
     (∀ j < n, ∀ t, runFor j s = .next t → Q t) →
     (∀ j < n, ∃ t, runFor j s = .next t ∧ t.xstate = x ∧ P t) ∧ ∃ t, runFor n s = .next t ∧ E t := by
  intro n
  induction n with
  | zero =>
    intro s hx hP hp hw hn
    exfalso
    split at hn
    · omega
    · omega
  | succ n ih =>
    intro s hx hP hp hw hn hq
    obtain ⟨t, ht, hs⟩ := hstep s (hq 0 (by omega) s rfl) hx hp hP
    simp only at hs
    by_cases hT : T = 0
    · rw [if_pos hT] at hn
      obtain rfl : n = 0 := by omega
      rw [if_pos (by omega)] at hs
      refine ⟨fun j hj => ?_, ⟨t, by rw [runFor_succ, ht]; rfl, hs⟩⟩
      obtain rfl : j = 0 := by omega
      exact ⟨s, rfl, hx, hP⟩
    · rw [if_neg hT] at hn
      by_cases hc : T ≤ if s.presc = s.tickDiv then w s + 1 else w s
      · rw [if_pos hc] at hs
        have hpt : s.presc = s.tickDiv := by
          by_contra hne; rw [if_neg hne] at hc; omega
        rw [if_pos hpt] at hc
        have hn0 : n = 0 := by
          rw [hpt, show T - w s - 1 = 0 by omega] at hn; omega
        subst hn0
        refine ⟨fun j hj => ?_, ⟨t, by rw [runFor_succ, ht]; rfl, hs⟩⟩
        obtain rfl : j = 0 := by omega
        exact ⟨s, rfl, hx, hP⟩
      · rw [if_neg hc] at hs
        obtain ⟨t1, t2, t3, t4, t5⟩ := hs
        have hpp : t.presc.toNat = if s.presc = s.tickDiv then 0 else s.presc.toNat + 1 := by
          rw [t5, tickPhase_presc_toNat hp]
        have hple : t.presc.toNat ≤ t.tickDiv.toNat := by
          rw [t5, t4]; exact tickPhase_presc_le hp
        have := ih t t1 t3 hple (by left; rw [t2]; omega) (by
          rw [if_neg hT, t4, t2, hpp]
          by_cases hne : s.presc = s.tickDiv
          · rw [if_pos hne] at hc ⊢
            rw [if_pos hne]
            rw [hne] at hn
            obtain ⟨k, hk⟩ : ∃ k, T - w s - 1 = k + 1 := ⟨T - w s - 2, by omega⟩
            rw [hk, Nat.add_mul] at hn
            rw [show T - (w s + 1) - 1 = k by omega]; omega
          · rw [if_neg hne, if_neg hne]
            have : s.presc.toNat ≠ s.tickDiv.toNat := fun h => hne (BitVec.eq_of_toNat_eq h)
            omega) (fun j hj u hu => hq (j+1) (by omega) u (by rw [runFor_succ, ht]; exact hu))
        refine ⟨fun j hj => ?_, ?_⟩
        · cases j with
          | zero => exact ⟨s, rfl, hx, hP⟩
          | succ j =>
            rw [runFor_succ, ht]
            exact this.1 j (by omega)
        · rw [runFor_succ, ht]; exact this.2

end Sys2Proof.Machine
end

