-- ==== Sys2Proof/Machine/Script.lean ====
section
/-! DEFINITION. Host scripts: the bus accesses and the pseudo-instructions of 30_encoding.md R83 and R84, and a host that runs
one, one access a cycle (20_memory.md R49). -/

namespace Sys2Proof.Machine

/-- One line of a host script (R83, R84). A pseudo-instruction with register name takes the register's offset. -/
inductive ScriptOp where
  | rd (off : BitVec 11)
  | rdh (off : BitVec 11)
  | rdb (off : BitVec 11)
  | wr (off : BitVec 11) (v : Word)
  | wrh (off : BitVec 11) (v : Word)
  | wrb (off : BitVec 11) (v : Word)
  | cmd (i : Instr)
  | wait
  | loadStr (cs : List Char)
  | loadBytes (off : BitVec 11) (bs : List Byte)
  | setAddr (a0 a1 a2 a3 a4 a5 : Byte)
  | buildRead (di : Word)
  | clrDone
  deriving DecidableEq, Repr

/-- What the host does: one access, or reads of STATUS until its bit 0 is 0. -/
inductive ScriptStep where
  | once (a : Access)
  | poll
  deriving DecidableEq, Repr

/-- The read of STATUS. -/
def readStatus : Access := .read 0x00C#11 .four

/-- `WRB off+i, bi` for each byte (R84). -/
def byteWrites (off : BitVec 11) : List Byte → List ScriptStep
  | [] => []
  | b :: bs => .once (.write off .one (b.setWidth 32)) :: byteWrites (off + 1#11) bs

/-- A 4-byte write. -/
def wordWrite (off : BitVec 11) (v : Word) : ScriptStep := .once (.write off .four v)

/-- `CMD x`: the command word written to CMD (R84). -/
def cmdWrite (i : Instr) : ScriptStep := wordWrite 0x008#11 (encode i)

/-- `WAIT`: reads of STATUS until BUSY is 0, then one more (R84). -/
def waitSteps : List ScriptStep := [.poll, .once readStatus]

/-- `ascii(s[i])` of LOADSTR (R84): the ASCII code. For a character outside ASCII the spec gives no code, so the byte is a free
value. DESIGN CHOICE, log 25. -/
def asciiCode (c : Char) : Byte := if c.toNat < 128 then BitVec.ofNat 8 c.toNat else Config.nonAsciiCode c.toNat

/-- The bus transactions of a script line (R83, R84). -/
def ScriptOp.expand : ScriptOp → List ScriptStep
  | .rd off => [.once (.read off .four)]
  | .rdh off => [.once (.read off .two)]
  | .rdb off => [.once (.read off .one)]
  | .wr off v => [wordWrite off v]
  | .wrh off v => [.once (.write off .two v)]
  | .wrb off v => [.once (.write off .one v)]
  | .cmd i => [cmdWrite i]
  | .wait => waitSteps
  | .loadStr cs =>
    byteWrites 0x700#11 (cs.map asciiCode) ++ [wordWrite 0x034#11 (BitVec.ofNat 32 cs.length)]
  | .loadBytes off bs => byteWrites off bs
  | .setAddr a0 a1 a2 a3 a4 a5 =>
    [wordWrite 0x010#11 (le32 a0 a1 a2 a3), wordWrite 0x014#11 (le32 a4 a5 0#8 0#8)]
  | .buildRead di =>
    [wordWrite 0x018#11 0x11#32, wordWrite 0x01C#11 di, wordWrite 0x020#11 0x00000001#32, cmdWrite .build] ++ waitSteps
  | .clrDone => [wordWrite 0x00C#11 0x00000002#32]

/-- The access of a script step. -/
def ScriptStep.access : ScriptStep → Access
  | .once a => a
  | .poll   => readStatus

/-- The state in which the host makes access `a` in the coming cycle, with RST_N high; the line and the latency draw are as the
outside chooses. -/
def State.withAccess (s : State) (a : Access) : State :=
  { s with inputs := { s.choice with rstN := true, access := some a } :: s.inputs.tail }

/-- Runs script steps, one access a cycle, for at most `fuel` cycles; answers the last state and the values read, a poll's
reads left out. None if the fuel runs out (a `WAIT` need not end, R84) or an access stops the machine. -/
def runScript : Nat → List ScriptStep → State → Option (State × List Word)
  | _, [], s => some (s, [])
  | 0, _ :: _, _ => none
  | fuel + 1, x :: xs, s =>
    match step (s.withAccess x.access) with
    | .next t =>
      match x with
      | .poll => runScript fuel (if (t.rdata.getD 0#32).getLsbD 0 then .poll :: xs else xs) t
      | .once _ => (runScript fuel xs t).map fun r => (r.1, t.rdata.toList ++ r.2)
    | .fault _ => none
    | .refused _ => none

end Sys2Proof.Machine
end

