-- ==== Sys2Proof/Tests/Slice0.lean ====
section
/-! SUPPORT. Tests: the checks of WellFormed, words of the opcode map, one or two vectors of 95_test_vectors.md for each command,
and for every obligation with hypotheses a witness that meets them. -/

namespace Sys2Proof.Tests

open Sys2Proof.Machine

/-! ### Helpers -/

/-- A cycle in which the outside does nothing. -/
def quiet : CycleInput := ⟨true, none, none, 0⟩

/-- A cycle in which the character `b` arrives without errors. -/
def hears (b : Byte) : CycleInput := ⟨true, none, some ⟨b, false, false⟩, 0⟩

/-- A cycle in which the host writes. -/
def writes (off : BitVec 11) (size : Size) (w : Word) : CycleInput := ⟨true, some (.write off size w), none, 0⟩

/-- A cycle in which the host reads. -/
def reads (off : BitVec 11) (size : Size) : CycleInput := ⟨true, some (.read off size), none, 0⟩

/-- A cycle in which the host writes STATUS while a character with both errors arrives. -/
def clearsAndHears : CycleInput := ⟨true, some (.write 0x00C#11 .four 0x7E#32), some ⟨0x68#8, true, true⟩, 0⟩

/-- A cycle with RST_N low, in which the host reads. -/
def resets : CycleInput := ⟨false, some (.read 0x00C#11 .four), none, 0⟩

/-- The reset state with the open divisors fixed and one listed choice. -/
def start (c : CycleInput) : State := { State.reset with baudDiv := 1#16, tickDiv := 0#32, inputs := [c] }

/-- A state of an EXCHANGE of the one-byte frame 68, with every wait 0 and one attempt. -/
def inExchange (x : XState) (cs : List CycleInput) : State :=
  { State.reset with
    xstate := x, baudDiv := 1#16, tickDiv := 0#32, frameLen := 1#10, attempt := 1#4, maxAttempts := 1#4, tSettle := 0#16
    tInact := 0#16, tCeil := 0#16, tRetry := 0#16, mem := [(0x200, 0x68#8), (0x400, 0x68#8)], inputs := cs }

/-- A pending NOP. -/
def inCodec (lat : Nat) (cs : List CycleInput) : State := { State.reset with xstate := .codec, pendLat := lat, inputs := cs }

/-- What a result that answers a next state says of it. -/
def nextWith (r : Result) (p : State → Bool) : Bool :=
  match r with
  | .next t => p t
  | _ => false

theorem exists_next {r : Result} {p : State → Bool} (h : nextWith r p = true) : ∃ t, r = .next t ∧ p t = true := by
  cases r with
  | next t => exact ⟨t, rfl, h⟩
  | fault f => cases h
  | refused f => cases h

/-- The digits 1 2 3 4 5 6 7 8 9 0 1 and one more character. -/
def digits (c : Byte) : List Byte :=
  [0x31#8, 0x32#8, 0x33#8, 0x34#8, 0x35#8, 0x36#8, 0x37#8, 0x38#8, 0x39#8, 0x30#8, 0x31#8, c]

/-- ADDRSTR and its length. -/
def withAddrstr (cs : List Byte) : State :=
  { State.reset with addrstrLen := BitVec.ofNat 4 cs.length }.setBuf .addrstr cs

/-- BUILD's operands, with the address 01 00 00 00 00 00. -/
def withPayload (hasDi : Bool) (di : Word) (p : List Byte) : State :=
  { State.reset with addrLo := 1#32, hasDi := hasDi, di := di, plen := BitVec.ofNat 8 p.length }.setBuf .payload p

/-- A received sequence. -/
def withRx (f : List Byte) : State := { State.reset with rxLen := BitVec.ofNat 10 f.length }.setBuf .rxbuf f

/-- A frame in TXBUF. -/
def withTx (f : List Byte) : State := { State.reset with frameLen := BitVec.ofNat 10 f.length }.setBuf .txbuf f

/-- 95_test_vectors.md X1 with byte 7 and byte 14 left open. -/
def x1 (b7 b14 : Byte) : List Byte :=
  [0x68#8, 0x01#8, 0#8, 0#8, 0#8, 0#8, 0#8, b7, 0x91#8, 0x08#8, 0x33#8, 0x33#8, 0x33#8, 0x33#8, b14, 0x89#8, 0x67#8, 0x45#8,
    0x16#8, 0x16#8]

/-- 95_test_vectors.md W6. -/
def w6 : List Byte :=
  [0x68#8, 0x01#8, 0#8, 0#8, 0#8, 0#8, 0#8, 0x68#8, 0x91#8, 0x05#8, 0x34#8, 0x35#8, 0x36#8, 0x06#8, 0x16#8]

/-- 95_test_vectors.md B4. -/
def b4 : List Byte := [0x68#8, 0x01#8, 0#8, 0#8, 0#8, 0#8, 0#8, 0x68#8, 0x11#8, 0x00#8, 0xE2#8, 0x16#8]

/-! ### WellFormed: an illegal command with a legal word is refused -/

theorem test_illformed_nop : (Instr.illegal 0x00000000#32).wellFormed = false := by decide
theorem test_illformed_addrEncode : (Instr.illegal 0x00000001#32).wellFormed = false := by decide
theorem test_illformed_build : (Instr.illegal 0x00000002#32).wellFormed = false := by decide
theorem test_illformed_parseRx : (Instr.illegal 0x00000003#32).wellFormed = false := by decide
theorem test_illformed_parseTx : (Instr.illegal 0x00000103#32).wellFormed = false := by decide
theorem test_illformed_exchange : (Instr.illegal 0x00000004#32).wellFormed = false := by decide
theorem test_wellformed_illegal : (Instr.illegal 0x00000005#32).wellFormed = true := by decide

/-! ### Decode: OP in bits 3..0, SRC in bit 8, written out from 30_encoding.md R69, R70 -/

theorem test_decode_nop : decodeWord 0b00000000000000000000000000000000#32 = .nop := by decide
theorem test_decode_addrEncode : decodeWord 0b00000000000000000000000000000001#32 = .addrEncode := by decide
theorem test_decode_build : decodeWord 0b00000000000000000000000000000010#32 = .build := by decide
theorem test_decode_parseRx : decodeWord 0b00000000000000000000000000000011#32 = .parseRx := by decide
theorem test_decode_parseTx : decodeWord 0b00000000000000000000000100000011#32 = .parseTx := by decide
theorem test_decode_exchange : decodeWord 0b00000000000000000000000000000100#32 = .exchange := by decide
/-- 95_test_vectors.md N2, N3. -/
theorem test_decode_illegal :
    ∀ w ∈ [0x00000005#32, 0x0000000F#32, 0x00000013#32, 0x00000101#32, 0x00000104#32, 0x80000000#32],
      decodeWord w = .illegal w := by
  simp only [List.forall_mem_cons]
  refine ⟨rfl, rfl, rfl, rfl, rfl, rfl, by simp⟩
/-- 95_test_vectors.md P2 step 6: the byte lanes of PARSE TX. -/
theorem test_decode_bytes : decodeBytes [0x03#8, 0x01#8, 0#8, 0#8, 0x77#8] = .ok (.parseTx, [0x77#8]) := by decide
theorem test_decode_truncated : decodeBytes [0x03#8, 0x01#8, 0#8] = .error .truncated := by decide

/-! ### Commands: 95_test_vectors.md -/

/-- N1. -/
theorem test_nop_N1 : nextWith (step (start (writes 0x008#11 .four 0#32))) (·.statusWord == 0x00000002#32) = true := by decide
/-- N2. -/
theorem test_illegal_N2 : nextWith (step (start (writes 0x008#11 .four 5#32))) (·.statusWord == 0x00000902#32) = true := by
  decide
/-- A3. -/
theorem test_addrEncode_A3 :
    nextWith (exec .addrEncode (withAddrstr (digits 0x32#8))) (fun t =>
      t.addrLo == 0x56789012#32 && t.addrHi == 0x1234#16 && t.errcode == .ok) = true := by decide
/-- A9. -/
theorem test_addrEncode_A9 :
    nextWith (exec .addrEncode (withAddrstr (digits 0x47#8))) (fun t =>
      t.addrLo == 0#32 && t.statusWord == 0x00000102#32) = true := by decide
/-- B8. -/
theorem test_build_B8 :
    nextWith (exec .build (withPayload true 0x04030201#32 [0x10#8])) (fun t =>
      t.frameLen == 17#10 && t.bufPrefix .txbuf 17 == .ok [0x68#8, 0x01#8, 0#8, 0#8, 0#8, 0#8, 0#8, 0x68#8, 0x11#8, 0x05#8,
        0x34#8, 0x35#8, 0x36#8, 0x37#8, 0x43#8, 0x00#8, 0x16#8]) = true := by decide
/-- B12. -/
theorem test_build_B12 :
    nextWith (exec .build { State.reset with plen := 252#8 }) (fun t =>
      t.frameLen == 0#10 && t.statusWord == 0x00000802#32) = true := by decide
/-- X1 (its bytes are 78 56 34 12). -/
theorem test_parseRx_X1 :
    nextWith (exec .parseRx (withRx (x1 0x68#8 0xAB#8))) (fun t =>
      t.readReg .parseRes == 0x04010891#32 && t.rxDi == 0#32 &&
      t.bufPrefix .rxdata 4 == .ok [0x78#8, 0x56#8, 0x34#8, 0x12#8]) = true := by decide
/-- X15. -/
theorem test_parseRx_X15 :
    nextWith (exec .parseRx (withRx (x1 0x68#8 0xAA#8))) (·.errcode == .checksumMismatch) = true := by decide
/-- X4. -/
theorem test_parseTx_X4 :
    nextWith (exec .parseTx (withTx b4)) (fun t => t.readReg .parseRes == 0x00000011#32 && t.errcode == .ok) = true := by
  decide
/-- X8. -/
theorem test_parseTx_X8 : nextWith (exec .parseTx (withTx w6)) (·.errcode == .lengthMismatch) = true := by decide
/-- T11. -/
theorem test_exchange_T11 :
    nextWith (step (start (writes 0x008#11 .four 4#32))) (·.statusWord == 0x00000A02#32) = true := by decide
/-- P3 step 2, from a state with a frame. -/
theorem test_exchange_P3 :
    nextWith (step { start (writes 0x008#11 .four 4#32) with frameLen := 16#10 }) (·.statusWord == 0x00110001#32) = true := by
  decide

/-! ### Witnesses: each meets all hypotheses of its obligation together -/

/-- A list of quiet cycles is silent as far as it reaches. -/
theorem silent_ahead {s : State} {n : Nat} (h : s.inputs = List.replicate n quiet) : ∀ j < n, silent (s.choiceAt j) := by
  intro j hj
  have : s.choiceAt j = quiet := by simp [State.choiceAt, h, List.getD, hj]
  rw [this]
  exact ⟨⟨rfl, rfl⟩, rfl⟩

theorem quiet_ahead {s : State} {n : Nat} (h : s.inputs = List.replicate n quiet) : ∀ j < n, hostQuiet (s.choiceAt j) :=
  fun j hj => (silent_ahead h j hj).1

/-- The invariant of the states that `start` makes. -/
theorem start_inv (c : CycleInput) : (start c).Inv where
  memWf := List.Pairwise.nil
  memInBuffers := by simp [start, State.reset]
  prescLe := by simp [start, State.reset]
  busyNotDone := fun h => absurd rfl h
  pending := fun h => by cases h
  nonePending := fun _ => ⟨rfl, rfl⟩
  exchange := fun h => by cases h
  retrying := fun h => by cases h
  received := fun h => by cases h
  inPreamble := fun h => by cases h
  inFrame := fun h => by cases h

/-- The invariant of the states that `inExchange` makes. -/
theorem inExchange_inv {x : XState} (h1 : x.inExchange = true) (h2 : x ≠ .retryWait) (cs : List CycleInput) :
    (inExchange x cs).Inv where
  memWf := by simp [inExchange]
  memInBuffers := by simp [inExchange, bufAt]
  prescLe := by simp [inExchange, State.reset]
  busyNotDone := fun _ => ⟨rfl, rfl⟩
  pending := fun h => by simp only [inExchange] at h; rw [h] at h1; cases h1
  nonePending := fun _ => ⟨rfl, rfl⟩
  exchange := fun _ => by simp [inExchange]
  retrying := fun h => absurd h h2
  received := fun _ => by simp [inExchange, State.reset]
  inPreamble := fun _ => by simp [inExchange, State.reset, State.txInBit]
  inFrame := fun _ => by simp [inExchange, State.reset, State.txInBit]

theorem inCodec_inv (lat : Nat) (h : lat ≤ Config.codecMaxLat) (cs : List CycleInput) : (inCodec lat cs).Inv where
  memWf := List.Pairwise.nil
  memInBuffers := by simp [inCodec, State.reset]
  prescLe := by simp [inCodec, State.reset]
  busyNotDone := fun _ => ⟨rfl, rfl⟩
  pending := fun _ => ⟨by simp [inCodec, State.reset], fun h => (by cases h), h⟩
  nonePending := fun h => absurd rfl h
  exchange := fun h => by cases h
  retrying := fun h => by cases h
  received := fun h => by cases h
  inPreamble := fun h => by cases h
  inFrame := fun h => by cases h

theorem witness_DecodeOfEncodedBytes :
    Instr.exchange.wellFormed = true ∧ (Instr.illegal 0x13#32).wellFormed = true := by decide

theorem witness_EncodeOfDecodedWord : ([0x03#8, 0x01#8, 0#8] : List Byte).length < 4 ∧ ([] : List Byte).length < 4 := by decide

/-- The boundaries of the three ranges of digits, and the codes beside them. -/
theorem witness_HexDigitsAndValues :
    (∀ c ∈ [0x30#8, 0x39#8], 0x30 ≤ c.toNat ∧ c.toNat ≤ 0x39) ∧ (∀ c ∈ [0x41#8, 0x46#8], 0x41 ≤ c.toNat ∧ c.toNat ≤ 0x46) ∧
    (∀ c ∈ [0x61#8, 0x66#8], 0x61 ≤ c.toNat ∧ c.toNat ≤ 0x66) ∧
    ∀ c ∈ [0x2F#8, 0x3A#8, 0x40#8, 0x47#8, 0x60#8, 0x67#8],
      c.toNat < 0x30 ∨ (0x39 < c.toNat ∧ c.toNat < 0x41) ∨ (0x46 < c.toNat ∧ c.toNat < 0x61) ∨ 0x66 < c.toNat := by decide

/-- A10, A3 and A9 of 95_test_vectors.md, one for each clause, and the empty string of A6. -/
theorem witness_AddrEncodeReversesDigitPairs :
    12 < ({ State.reset with addrstrLen := 13#4 } : State).addrstrLen.toNat ∧
    (∃ cs : List Byte, cs.length = (withAddrstr cs).addrstrLen.toNat ∧ cs.length ≤ 12 ∧ (withAddrstr cs).holds .addrstr cs ∧
      ∃ c ∈ List.replicate (12 - cs.length) 0x30#8 ++ cs, isHex c = false) ∧
    (∃ cs : List Byte, cs.length = (withAddrstr cs).addrstrLen.toNat ∧ cs.length ≤ 12 ∧ (withAddrstr cs).holds .addrstr cs ∧
      ∀ c ∈ List.replicate (12 - cs.length) 0x30#8 ++ cs, isHex c = true) ∧
    ([] : List Byte).length = (withAddrstr []).addrstrLen.toNat ∧ (withAddrstr []).holds .addrstr [] :=
  ⟨by decide, ⟨digits 0x47#8, by decide, by decide, State.setBuf_holds _ _ _, by decide⟩,
    ⟨digits 0x32#8, by decide, by decide, State.setBuf_holds _ _ _, by decide⟩, by decide, State.setBuf_holds _ _ _⟩

/-- B12 and B10 of 95_test_vectors.md: the data field too long by one byte, and just not too long. -/
theorem witness_BuildMakesTheFrame :
    255 < (if ({ State.reset with plen := 252#8 } : State).hasDi then 4 else 0) +
      ({ State.reset with plen := 252#8 } : State).plen.toNat ∧
    ∃ p : List Byte, (if (withPayload true 0#32 p).hasDi then 4 else 0) + (withPayload true 0#32 p).plen.toNat = 255 ∧
      p.length = (withPayload true 0#32 p).plen.toNat ∧ (withPayload true 0#32 p).holds .payload p := by
  have h (p : List Byte) : (withPayload true 0#32 p).plen.toNat = p.length % 256 := by simp [withPayload]
  have hd (p : List Byte) : (withPayload true 0#32 p).hasDi = true := by simp [withPayload]
  refine ⟨by decide, List.replicate 251 0#8, ?_, ?_, State.setBuf_holds _ _ _⟩
  · rw [hd, h, List.length_replicate]; rfl
  · rw [h, List.length_replicate]

/-- What the obligations on PARSE assume of a sequence that passes every check. -/
def good (f : List Byte) : Bool :=
  12 ≤ f.length && f.length ≤ 512 && f.getD 0 0 == 0x68#8 && f.getD (f.length - 1) 0 == 0x16#8 && f.getD 7 0 == 0x68#8
    && (f.getD 9 0).toNat == f.length - 12
    && ((f.take (f.length - 2)).map BitVec.toNat).sum % 256 == (f.getD (f.length - 2) 0).toNat

/-- X1 in RXBUF, and B4, which is as short as a frame can be, in TXBUF. -/
theorem witness_ParseAcceptsAGoodFrame :
    (x1 0x68#8 0xAB#8).length = (withRx (x1 0x68#8 0xAB#8)).rxLen.toNat ∧
    (withRx (x1 0x68#8 0xAB#8)).holds .rxbuf (x1 0x68#8 0xAB#8) ∧ good (x1 0x68#8 0xAB#8) = true ∧
    b4.length = (withTx b4).frameLen.toNat ∧ (withTx b4).holds .txbuf b4 ∧ good b4 = true :=
  ⟨by decide, State.setBuf_holds _ _ _, by decide, by decide, State.setBuf_holds _ _ _, by decide⟩

/-- X17 with 513, X9, X10, X14, W6 and X15 of 95_test_vectors.md, one for each clause. -/
theorem witness_ParseReportsTheFirstFailure :
    512 < ({ State.reset with rxLen := 513#10 } : State).rxLen.toNat ∧
    ({ State.reset with rxLen := 11#10 } : State).rxLen.toNat < 12 ∧
    (∃ f : List Byte, f.length = (withRx f).rxLen.toNat ∧ f.length = 12 ∧ (withRx f).holds .rxbuf f ∧
      f.getD 0 0 = 0x68#8 ∧ f.getD (f.length - 1) 0 ≠ 0x16#8) ∧
    (∃ f : List Byte, f.length = (withRx f).rxLen.toNat ∧ 12 ≤ f.length ∧ f.length ≤ 512 ∧ (withRx f).holds .rxbuf f ∧
      f.getD 0 0 = 0x68#8 ∧ f.getD (f.length - 1) 0 = 0x16#8 ∧ f.getD 7 0 ≠ 0x68#8) ∧
    (∃ f : List Byte, f.length = (withTx f).frameLen.toNat ∧ 12 ≤ f.length ∧ f.length ≤ 512 ∧ (withTx f).holds .txbuf f ∧
      f.getD 0 0 = 0x68#8 ∧ f.getD (f.length - 1) 0 = 0x16#8 ∧ f.getD 7 0 = 0x68#8 ∧
      (f.getD 9 0).toNat ≠ f.length - 12) ∧
    ∃ f : List Byte, f.length = (withRx f).rxLen.toNat ∧ 12 ≤ f.length ∧ f.length ≤ 512 ∧ (withRx f).holds .rxbuf f ∧
      f.getD 0 0 = 0x68#8 ∧ f.getD (f.length - 1) 0 = 0x16#8 ∧ f.getD 7 0 = 0x68#8 ∧
      (f.getD 9 0).toNat = f.length - 12 ∧
      ((f.take (f.length - 2)).map BitVec.toNat).sum % 256 ≠ (f.getD (f.length - 2) 0).toNat :=
  ⟨by decide, by decide,
    ⟨(x1 0x68#8 0xAB#8).take 12, by decide, by decide, State.setBuf_holds _ _ _, by decide, by decide⟩,
    ⟨x1 0x69#8 0xAB#8, by decide, by decide, by decide, State.setBuf_holds _ _ _, by decide, by decide, by decide⟩,
    ⟨w6, by decide, by decide, by decide, State.setBuf_holds _ _ _, by decide, by decide, by decide, by decide⟩,
    ⟨x1 0x68#8 0xAA#8, by decide, by decide, by decide, State.setBuf_holds _ _ _, by decide, by decide, by decide, by decide,
      by decide⟩⟩

/-- RXBUF with the bytes of each clause and no other, at the shortest length. -/
theorem witness_ParseReadsOnlyWhatItsChecksReach :
    (let s : State := { State.reset with rxLen := 12#10, mem := [(0x400, 0xFE#8)] };
      s.rxLen.toNat = 12 ∧ s.mem.get 0x400 = some 0xFE#8) ∧
    (let s : State := { State.reset with rxLen := 12#10, mem := [(0x400, 0x68#8), (0x40B, 0x33#8)] };
      s.mem.get 0x400 = some 0x68#8 ∧ s.mem.get (0x400 + (12 - 1)) = some 0x33#8) ∧
    (let s : State := { State.reset with rxLen := 12#10, mem := [(0x400, 0x68#8), (0x407, 0x69#8), (0x40B, 0x16#8)] };
      s.mem.get 0x400 = some 0x68#8 ∧ s.mem.get (0x400 + (12 - 1)) = some 0x16#8 ∧
        s.mem.get (0x400 + 7) = some 0x69#8) ∧
    (let s : State := { State.reset with
        rxLen := 12#10, mem := [(0x400, 0x68#8), (0x407, 0x68#8), (0x409, 0x01#8), (0x40B, 0x16#8)] };
      s.mem.get 0x400 = some 0x68#8 ∧ s.mem.get (0x400 + (12 - 1)) = some 0x16#8 ∧
        s.mem.get (0x400 + 7) = some 0x68#8 ∧ s.mem.get (0x400 + 9) = some 0x01#8 ∧ (0x01#8).toNat ≠ 12 - 12) := by
  decide

/-- One state for each clause; in PARSE's, RXBUF holds the bytes read before the absent one and no other, at the shortest length;
a host read meets its absent byte first or last. -/
theorem witness_AbsentBytesFault :
    (let s : State := { State.reset with addrstrLen := 12#4 };
      s.addrstrLen.toNat ≤ 12 ∧ 0 < s.addrstrLen.toNat ∧ ¬ s.present .addrstr 0) ∧
    (let s : State := { State.reset with plen := 251#8 };
      (if s.hasDi then 4 else 0) + s.plen.toNat ≤ 255 ∧ 0 < s.plen.toNat ∧ ¬ s.present .payload 0) ∧
    (let s : State := { State.reset with rxLen := 12#10, frameLen := 512#10 };
      12 ≤ s.rxLen.toNat ∧ s.rxLen.toNat ≤ 512 ∧ ¬ s.present .rxbuf 0 ∧
        12 ≤ s.frameLen.toNat ∧ s.frameLen.toNat ≤ 512 ∧ ¬ s.present .txbuf 0) ∧
    (let s : State := { State.reset with rxLen := 12#10, mem := [(0x400, 0x68#8)] };
      s.mem.get 0x400 = some 0x68#8 ∧ ¬ s.present .rxbuf (12 - 1)) ∧
    (let s : State := { State.reset with rxLen := 12#10, mem := [(0x400, 0x68#8), (0x40B, 0x16#8)] };
      s.mem.get 0x400 = some 0x68#8 ∧ s.mem.get (0x400 + (12 - 1)) = some 0x16#8 ∧ ¬ s.present .rxbuf 7) ∧
    (let s : State := { State.reset with rxLen := 12#10, mem := [(0x400, 0x68#8), (0x407, 0x68#8), (0x40B, 0x16#8)] };
      s.mem.get (0x400 + 7) = some 0x68#8 ∧ ¬ s.present .rxbuf 9) ∧
    (let s := withRx ((List.replicate 10 0#8).set 0 0x68#8 |>.set 7 0x68#8);
      (∀ j < 10, s.present .rxbuf j) ∧ ¬ s.present .rxbuf 10 ∧ s.mem.get (0x400 + 9) = some 0#8 ∧
        (0#8).toNat = 12 - 12 ∧ 10 < 12 - 1) ∧
    (let s : State := { inExchange .frameTx [quiet] with mem := [] };
      s.xstate = .frameTx ∧ hostQuiet s.choice ∧ s.txidx.toNat < 512 ∧ ¬ s.present .txbuf s.txidx.toNat) ∧
    (let s := start (reads 0x214#11 .one);
      s.choice.rstN = true ∧ s.choice.access = some (.read 0x214#11 .one) ∧
        target 0x214#11 .one = some (.buf .txbuf (0x214#11).toNat) ∧ s.mem.get ((0x214#11).toNat + 0) = none) ∧
    (let s : State := { start (reads 0x5FC#11 .four) with mem := [(0x5FC, 0#8), (0x5FD, 0#8), (0x5FE, 0#8)] };
      s.choice.access = some (.read 0x5FC#11 .four) ∧ target 0x5FC#11 .four = some (.buf .rxbuf (0x5FC#11).toNat) ∧
        3 < sizeBytes .four ∧ (∀ j < 3, (s.mem.get ((0x5FC#11).toNat + j)).isSome = true) ∧
        s.mem.get ((0x5FC#11).toNat + 3) = none) := by
  unfold State.present
  refine ⟨by decide, by decide, by decide, by decide, by decide, by decide, by decide, ?_, ?_, by decide⟩
  · exact ⟨rfl, ⟨rfl, rfl⟩, by decide, by decide⟩
  · exact ⟨rfl, rfl, by decide, by decide⟩

/-- The rejections and the start of an EXCHANGE at the ends of the ranges of FRAME_LEN. -/
theorem witness_ExchangeStartsItsFirstAttempt :
    (let s := State.reset; s.frameLen.toNat = 0) ∧
    (let s : State := { State.reset with frameLen := 513#10 }; 512 < s.frameLen.toNat) ∧
    (let s : State := { State.reset with frameLen := 1#10, baudDiv := 0#16 };
      1 ≤ s.frameLen.toNat ∧ s.frameLen.toNat ≤ 512 ∧ s.baudDiv.toNat = 0) ∧
    (let s : State := { State.reset with frameLen := 512#10, maxAttempts := 0#4 };
      1 ≤ s.frameLen.toNat ∧ s.frameLen.toNat ≤ 512 ∧ s.maxAttempts.toNat = 0) ∧
    (let s : State := { State.reset with frameLen := 512#10, baudDiv := 1#16, maxAttempts := 1#4 };
      1 ≤ s.frameLen.toNat ∧ s.frameLen.toNat ≤ 512 ∧ 1 ≤ s.baudDiv.toNat ∧ 1 ≤ s.maxAttempts.toNat) := by
  decide

/-- A PARSE of too few bytes for the first clause, an illegal command and a PARSE of 513 bytes for the second. -/
theorem witness_FailedCommandsChangeNothingElse :
    (∃ t, exec .parseTx State.reset = .next t ∧ (t.errcode == .frameTooShort && t.xstate == .idle) = true) ∧
    (∃ t, exec (.illegal 5#32) State.reset = .next t ∧ (t.errcode == .badCommand && t.xstate == .idle) = true) ∧
    ∃ t, exec .parseRx { State.reset with rxLen := 513#10 } = .next t ∧
      (t.errcode == .badFrameLength && t.xstate == .idle) = true :=
  ⟨exists_next (by decide), exists_next (by decide), exists_next (by decide)⟩

/-- B8, B6 and B7 of 95_test_vectors.md, one for each case. -/
theorem witness_BuildThenParseRecoversTheFields :
    (∃ t, exec .build (withPayload true 0x04030201#32 [0x10#8]) = .next t ∧ (t.errcode == .ok) = true) ∧
    (withPayload true 0x04030201#32 [0x10#8]).hasDi = true ∧
    (∃ t, exec .build (withPayload false 0#32 [1#8, 2#8, 3#8]) = .next t ∧ (t.errcode == .ok) = true) ∧
    (withPayload false 0#32 [1#8, 2#8, 3#8]).hasDi = false ∧ (withPayload false 0#32 [1#8, 2#8, 3#8]).plen.toNat ≤ 3 ∧
    (∃ t, exec .build (withPayload false 0#32 [1#8, 2#8, 3#8, 4#8]) = .next t ∧ (t.errcode == .ok) = true) ∧
    (withPayload false 0#32 [1#8, 2#8, 3#8, 4#8]).hasDi = false ∧
    4 ≤ (withPayload false 0#32 [1#8, 2#8, 3#8, 4#8]).plen.toNat :=
  ⟨exists_next (by decide), by decide, exists_next (by decide), by decide, by decide, exists_next (by decide), by decide,
    by decide⟩

/-- B4: a byte of every field it has, with bit 0 and bit 7 in range. -/
theorem witness_OneFlippedBitIsRejected :
    ∃ t, exec .build (withPayload false 0#32 []) = .next t ∧
      (t.errcode == .ok && [0, 1, 6, 7, 8, 9, 10, 11].all fun i =>
        decide (i < 12 + ((if (withPayload false 0#32 []).hasDi then 4 else 0) + (withPayload false 0#32 []).plen.toNat)) &&
          (t.mem.get (0x200 + i)).isSome) = true :=
  exists_next (by decide)

/-- A latency above 0 needs P_CODEC_MAX_LAT above 0, which is an open parameter (log 4). -/
theorem witness_StepRunsTheDecodedCommand :
    (∀ w ∈ [0#32, 1#32, 2#32, 3#32, 0x103#32, 4#32, 5#32],
      (start (writes 0x008#11 .four w)).xstate = .idle ∧ (start (writes 0x008#11 .four w)).writesCmd w ∧
      drawnLatency (start (writes 0x008#11 .four w)).choice.latDraw Config.codecMaxLat = 0) ∧
    (decodeWord 5#32 = .illegal 5#32 ∧ decodeWord 4#32 = .exchange ∧ decodeWord 0#32 = .nop) ∧
    (1 ≤ Config.codecMaxLat → 0 < drawnLatency 3 Config.codecMaxLat) := by
  refine ⟨?_, by decide, fun h => ?_⟩
  · intro w _
    exact ⟨rfl, ⟨rfl, rfl⟩, rfl⟩
  · simp only [drawnLatency]
    omega

theorem witness_FetchWordIsTheNextCommandWrite :
    decodeTableWord 32 0x103 = some .parseTx ∧ decodeTableWord 8 4 = some .exchange ∧
    decodeTableWord 32 0x80000000 = some (.illegal 0x80000000#32) := by decide

/-- N8 of 95_test_vectors.md: a latency of 3. -/
theorem witness_PendingCommandCommitsAfterItsLatency :
    (inCodec 3 (List.replicate 4 quiet)).xstate = .codec ∧ (inCodec 3 (List.replicate 4 quiet)).pendLat = 3 ∧
    ∀ j ≤ 3, hostQuiet ((inCodec 3 (List.replicate 4 quiet)).choiceAt j) :=
  ⟨rfl, rfl, fun j hj => quiet_ahead rfl j (by omega)⟩

/-- N2 and N3 of 95_test_vectors.md: one word for each way to be illegal, at the ends of the fields. -/
theorem witness_IllegalWordCompletesInItsCycle :
    (∀ w, (start (writes 0x008#11 .four w)).Inv ∧ (start (writes 0x008#11 .four w)).xstate = .idle ∧
      (start (writes 0x008#11 .four w)).writesCmd w) ∧
    5 ≤ (5#32).toNat % 16 ∧ 5 ≤ (15#32).toNat % 16 ∧ (0x13#32).toNat / 16 % 16 ≠ 0 ∧ (0x80#32).toNat / 16 % 16 ≠ 0 ∧
    (0x200#32).toNat / 512 ≠ 0 ∧ (0x80000000#32).toNat / 512 ≠ 0 ∧
    ((0x101#32).toNat / 256 % 2 = 1 ∧ (0x101#32).toNat % 16 ≠ 3) :=
  ⟨fun w => ⟨start_inv _, rfl, rfl, rfl⟩, by decide⟩

/-- N5 of 95_test_vectors.md. -/
theorem witness_CommandWhileBusyOnlySetsRej :
    (inExchange .accum [writes 0x008#11 .four 2#32]).xstate ≠ .idle ∧
    (inExchange .accum [writes 0x008#11 .four 2#32]).writesCmd 2#32 := ⟨by decide, rfl, rfl⟩

/-- M3 to M6 of 95_test_vectors.md and the offsets at the ends of the regions. -/
theorem witness_BusErrorsExactlyOnIllFormedAccesses :
    (∀ off size, (start (reads off size)).choice.rstN = true ∧
      (start (reads off size)).choice.access = some (.read off size)) ∧
    (∀ off size w, (start (writes off size w)).choice.access = some (.write off size w)) ∧
    ((0x004#11).toNat < 0x4C ∧ sizeBytes .two ≠ 4) ∧ (0x4C ≤ (0x04C#11).toNat ∧ (0x0FF#11).toNat < 0x100) ∧
    (0x100 ≤ (0x101#11).toNat ∧ (0x101#11).toNat < 0x710 ∧ (0x101#11).toNat % sizeBytes .two ≠ 0) ∧
    0x710 ≤ (0x710#11).toNat ∧ 0x710 ≤ (0x7FF#11).toNat :=
  ⟨fun _ _ => ⟨rfl, rfl⟩, fun _ _ _ => rfl, by decide⟩

/-- M1 of 95_test_vectors.md, and a read of a buffer byte. -/
theorem witness_ReadsHaveNoSideEffect :
    (start (reads 0x000#11 .four)).choice.rstN = true ∧
    (start (reads 0x000#11 .four)).choice.access = some (.read 0x000#11 .four) ∧
    (∃ t, step (start (reads 0x000#11 .four)) = .next t ∧ (t.rdata == some 0x06452007#32) = true) ∧
    target 0x000#11 .four = some (.reg .id) ∧ target 0x008#11 .four = some (.reg .cmd) ∧
    (∃ t, step (start (reads 0x008#11 .four)) = .next t ∧ (t.rdata == some 0#32) = true) ∧
    ∃ t, step (inExchange .settle [reads 0x200#11 .one]) = .next t ∧ (t.rdata == some 0x68#32) = true :=
  ⟨rfl, rfl, exists_next (by decide), by decide, by decide, exists_next (by decide), exists_next (by decide)⟩

/-- M6 of 95_test_vectors.md, and the last byte of the window's buffers. -/
theorem witness_BufferReadsAreLittleEndian :
    target 0x100#11 .four = some (.buf .payload (0x100#11).toNat) ∧
    [1#8, 2#8, 3#8, 4#8].length = sizeBytes .four ∧
    (∀ i (h : i < [1#8, 2#8, 3#8, 4#8].length),
      (withPayload false 0#32 [1#8, 2#8, 3#8, 4#8]).mem.get ((0x100#11).toNat + i) = some [1#8, 2#8, 3#8, 4#8][i]) ∧
    target 0x70F#11 .one = some (.buf .addrstr (0x70F#11).toNat) :=
  ⟨by decide, by decide, State.setBuf_holds _ .payload _, by decide⟩

theorem witness_BufferWritesStoreTheirLanes :
    (start (writes 0x1FC#11 .four 0x04030201#32)).xstate = .idle ∧
    (start (writes 0x1FC#11 .four 0x04030201#32)).choice.rstN = true ∧
    (start (writes 0x1FC#11 .four 0x04030201#32)).choice.access = some (.write 0x1FC#11 .four 0x04030201#32) ∧
    target 0x1FC#11 .four = some (.buf .payload (0x1FC#11).toNat) ∧ Buf.payload ≠ .rxdata ∧
    target 0x70E#11 .two = some (.buf .addrstr (0x70E#11).toNat) :=
  ⟨rfl, rfl, rfl, by decide, by decide, by decide⟩

/-- M7 of 95_test_vectors.md. -/
theorem witness_RegistersReadBackTheirFields :
    (0x004#11, 0x00000001#32) ∈ [(0x004#11, 0x00000001#32), (0x048#11, 0xFFFFFFFF#32)] ∧
    (start (writes 0x004#11 .four 0xFFFFFFFF#32)).xstate = .idle ∧
    (start (writes 0x004#11 .four 0xFFFFFFFF#32)).choice.rstN = true ∧
    (start (writes 0x004#11 .four 0xFFFFFFFF#32)).choice.access = some (.write 0x004#11 .four 0xFFFFFFFF#32) :=
  ⟨by decide, rfl, rfl, rfl⟩

/-- M10 and M11 of 95_test_vectors.md, ID and RX_DI. -/
theorem witness_ReadOnlyWritesAreIgnored :
    (∀ off size w, (start (writes off size w)).xstate = .idle ∧ (start (writes off size w)).choice.rstN = true ∧
      (start (writes off size w)).choice.access = some (.write off size w)) ∧
    target 0x000#11 .four = some (.reg .id) ∧ target 0x02C#11 .four = some (.reg .parseRes) ∧
    target 0x030#11 .four = some (.reg .rxDi) ∧ target 0x600#11 .one = some (.buf .rxdata (0x600#11).toNat) :=
  ⟨fun _ _ _ => ⟨rfl, rfl, rfl⟩, by decide, by decide, by decide, by decide⟩

/-- N6 and N7 of 95_test_vectors.md, and one access for each other clause. -/
theorem witness_WritesWhileBusyAreLost :
    (∀ off size w, (inExchange .accum [writes off size w]).xstate ≠ .idle ∧
      (inExchange .accum [writes off size w]).choice.rstN = true ∧
      (inExchange .accum [writes off size w]).choice.access = some (.write off size w)) ∧
    target 0x004#11 .four = some (.reg .ctrl) ∧ target 0x00C#11 .four = some (.reg .status) ∧
    target 0x02C#11 .four = some (.reg .parseRes) ∧ target 0x01C#11 .four = some (.reg .di) ∧
    Reg.di ∉ [Reg.ctrl, Reg.status, Reg.cmd, Reg.id, Reg.parseRes, Reg.rxDi] ∧
    target 0x600#11 .two = some (.buf .rxdata 0x600) :=
  ⟨fun _ _ _ => ⟨by simp [inExchange], rfl, rfl⟩, by decide, by decide, by decide, by decide, by decide, by decide⟩

/-- A character with both errors into a full RXBUF while the host clears STATUS, and a commit in the same situation. -/
theorem witness_EngineSetWinsOverHostClear :
    (∃ t, step { inExchange .accum [clearsAndHears] with rxLen := 512#10, tInact := 1#16 } = .next t ∧
      (t.xstate == .accum) = true) ∧
    clearsAndHears.access = some (.write 0x00C#11 .four 0x7E#32) ∧ XState.accum.receiving = true ∧
    clearsAndHears.rx = some ⟨0x68#8, true, true⟩ ∧ 512 ≤ (512#10).toNat ∧
    (∃ t, step (inCodec 0 [clearsAndHears]) = .next t ∧ (t.xstate == .idle) = true) ∧
    decodeWord (inCodec 0 [clearsAndHears]).pendWord ≠ .exchange :=
  ⟨exists_next (by decide), rfl, rfl, rfl, by decide, exists_next (by decide), by decide⟩

theorem witness_PrescalerCountsEveryCycle :
    (∃ t, step (start quiet) = .next t ∧ (t.xstate == .idle) = true) ∧ (start quiet).choice.access = none ∧
    (∃ t, step (start (writes 0x048#11 .four 3#32)) = .next t ∧ (t.xstate == .idle) = true) ∧
    (start (writes 0x048#11 .four 3#32)).choice.access = some (.write 0x048#11 .four 3#32) ∧
    ∃ t, step (inExchange .settle [writes 0x048#11 .four 3#32]) = .next t ∧ (t.werr == true) = true :=
  ⟨exists_next (by decide), rfl, exists_next (by decide), rfl, exists_next (by decide)⟩

theorem witness_TicksComeEveryPeriod :
    let s : State := { State.reset with tickDiv := 3#32, inputs := List.replicate 4 quiet }
    s.presc = 0#32 ∧ (∀ j ≤ s.tickDiv.toNat, hostQuiet (s.choiceAt j)) ∧
      ∃ t, runFor 4 s = .next t ∧ (t.presc == 0#32) = true :=
  ⟨rfl, fun j hj => quiet_ahead rfl j (by have : j ≤ 3 := hj; omega), exists_next (by decide)⟩

theorem witness_CharactersOutsideReceptionAreDiscarded :
    (start quiet).xstate ≠ .settle ∧ (start quiet).xstate ≠ .postWait ∧ (start quiet).xstate ≠ .accum := by decide

/-- RXBUF with room for one more character, and full. -/
theorem witness_TakenCharactersAreStored :
    hostQuiet (hears 0xFE#8) ∧ (hears 0xFE#8).rx = some ⟨0xFE#8, false, false⟩ ∧
    (∃ t, step { inExchange .settle [hears 0xFE#8] with rxLen := 511#10 } = .next t ∧ (t.rxLen == 512#10) = true) ∧
    ∃ t, step { inExchange .postWait [hears 0xFE#8] with rxLen := 512#10 } = .next t ∧ (t.rxOvf == true) = true :=
  ⟨⟨rfl, rfl⟩, rfl, exists_next (by decide), exists_next (by decide)⟩

theorem witness_PortsIdleOutsideTransmission :
    (inExchange .settle []).xstate ≠ .wakeTx ∧ (inExchange .settle []).xstate ≠ .frameTx ∧
    (inExchange .wakeTx []).xstate = .wakeTx ∧ (inExchange .frameTx []).xstate = .frameTx := by decide

theorem witness_PreambleTakes44BitTimes :
    let s := { inExchange .wakeTx (List.replicate 88 quiet) with baudDiv := 2#16 }
    s.xstate = .wakeTx ∧ s.txidx = 0#10 ∧ s.txbit = 0#4 ∧ s.txcyc = 0#16 ∧ 2 = s.baudDiv.toNat ∧
      ∀ j < 44 * 2, hostQuiet (s.choiceAt j) :=
  ⟨rfl, rfl, rfl, rfl, rfl, quiet_ahead rfl⟩

theorem witness_FrameTakes11BitTimesAByte :
    let s := inExchange .frameTx (List.replicate 11 quiet)
    s.xstate = .frameTx ∧ s.txidx = 0#10 ∧ s.txbit = 0#4 ∧ s.txcyc = 0#16 ∧ 1 = s.baudDiv.toNat ∧
      [0x68#8].length = s.frameLen.toNat ∧ s.holds .txbuf [0x68#8] ∧
      ∀ j < 11 * [0x68#8].length * 1, hostQuiet (s.choiceAt j) := by
  refine ⟨rfl, rfl, rfl, rfl, rfl, rfl, ?_, quiet_ahead rfl⟩
  intro i hi
  obtain rfl : i = 0 := by simpa using hi
  rfl

/-- Each wait with its field at 0, which ends, and at 1 before a tick, which goes on. -/
theorem witness_WaitsEndAtTheirCount :
    (∀ x, hostQuiet (inExchange x [quiet]).choice ∧ (inExchange x [quiet]).xstate = x) ∧
    (inExchange .settle [quiet]).tSettle.toNat ≤ 0 ∧ (inExchange .postWait [quiet]).tPostsend.toNat ≤ 0 ∧
    (inExchange .retryWait [quiet]).tRetry.toNat ≤ 0 ∧
    (let s := { inExchange .settle [quiet] with tSettle := 1#16, tickDiv := 1#32 };
      (if s.presc = s.tickDiv ∧ s.wcnt ≠ 0xFFFF#16 then s.wcnt + 1#16 else s.wcnt).toNat < s.tSettle.toNat) := by
  refine ⟨fun _ => ⟨⟨rfl, rfl⟩, rfl⟩, ?_⟩
  decide

/-- For each of the three waits, one of 0 ticks, and one of 2 ticks of 4 cycles begun one cycle into a tick. -/
theorem witness_WaitsLastTheirTicks :
    (∀ x, x ∈ [XState.settle, .postWait, .retryWait] →
      (let s := inExchange x [quiet];
        s.xstate = x ∧ s.wcnt = 0#16 ∧ s.presc.toNat ≤ s.tickDiv.toNat ∧ s.tSettle.toNat = 0 ∧ s.tPostsend.toNat = 0 ∧
          s.tRetry.toNat = 0 ∧ ∀ j < 1, hostQuiet (s.choiceAt j))) ∧
    ∀ x, x ∈ [XState.settle, .postWait, .retryWait] →
      (let s := { inExchange x (List.replicate 7 quiet) with
          tSettle := 2#16, tPostsend := 2#16, tRetry := 2#16, tickDiv := 3#32, presc := 1#32 };
        s.xstate = x ∧ s.wcnt = 0#16 ∧ s.presc.toNat ≤ s.tickDiv.toNat ∧
          ((2#16).toNat - 1) * (s.tickDiv.toNat + 1) + (s.tickDiv.toNat + 1 - s.presc.toNat) = 7 ∧
          ∀ j < 7, hostQuiet (s.choiceAt j)) :=
  ⟨fun _ _ => ⟨rfl, rfl, Nat.zero_le _, rfl, rfl, rfl, quiet_ahead (n := 1) rfl⟩,
    fun _ _ => ⟨rfl, rfl, by show (1#32).toNat ≤ (3#32).toNat; decide, rfl, quiet_ahead rfl⟩⟩

/-- The ceiling reached with nothing received, one byte and silence, and neither. -/
theorem witness_AccumulationEndsBySilenceOrCeiling :
    (let s := inExchange .accum [quiet];
      s.Inv ∧ s.xstate = .accum ∧ hostQuiet s.choice ∧ (s.rxPhase .accum s.choice.rx).rxLen = 0#10 ∧ s.tCeil.toNat ≤ 0) ∧
    (let s := inExchange .accum [hears 0x68#8];
      s.Inv ∧ s.xstate = .accum ∧ hostQuiet s.choice ∧ (s.rxPhase .accum s.choice.rx).rxLen ≠ 0#10 ∧ s.tInact.toNat ≤ 0) ∧
    (let s := { inExchange .accum [hears 0x68#8] with tInact := 1#16 };
      s.xstate = .accum ∧ hostQuiet s.choice ∧ (s.rxPhase .accum s.choice.rx).rxLen ≠ 0#10 ∧ 0 < s.tInact.toNat) :=
  ⟨⟨inExchange_inv rfl (by decide) _, rfl, ⟨rfl, rfl⟩, by decide, by decide⟩,
    ⟨inExchange_inv rfl (by decide) _, rfl, ⟨rfl, rfl⟩, by decide, by decide⟩, rfl, ⟨rfl, rfl⟩, by decide, by decide⟩

theorem witness_CeilingEndsASilentAttempt :
    (let s := inExchange .accum [quiet];
      s.xstate = .accum ∧ s.rxLen = 0#10 ∧ s.ccnt = 0#16 ∧ s.presc.toNat ≤ s.tickDiv.toNat ∧ s.tCeil.toNat = 0 ∧
        ∀ j < 1, silent (s.choiceAt j)) ∧
    (let s := { inExchange .accum (List.replicate 3 quiet) with tCeil := 3#16 };
      s.xstate = .accum ∧ s.rxLen = 0#10 ∧ s.ccnt = 0#16 ∧ s.presc.toNat ≤ s.tickDiv.toNat ∧
        (s.tCeil.toNat - 1) * (s.tickDiv.toNat + 1) + (s.tickDiv.toNat + 1 - s.presc.toNat) = 3 ∧
        ∀ j < 3, silent (s.choiceAt j)) :=
  ⟨⟨rfl, rfl, rfl, by decide, rfl, silent_ahead (n := 1) rfl⟩, rfl, rfl, rfl, by decide, by decide, silent_ahead rfl⟩

/-- T15 of 95_test_vectors.md, for two cycles from a full RXBUF. -/
theorem witness_ABabblingLineNeverEnds :
    let s := { inExchange .accum [hears 0xFE#8, hears 0xFE#8] with rxLen := 512#10, tInact := 1#16 }
    s.xstate = .accum ∧ s.rxLen ≠ 0#10 ∧ s.tInact ≠ 0#16 ∧
      (∀ j < 2, hostQuiet (s.choiceAt j) ∧ (s.choiceAt j).rx.isSome = true) ∧ 512 < s.rxLen.toNat + 2 ∧
      s.rxLen.toNat ≤ 512 := by
  refine ⟨rfl, by decide, by decide, fun j hj => ?_, by decide, by decide⟩
  have : j = 0 ∨ j = 1 := by omega
  rcases this with rfl | rfl <;> exact ⟨⟨rfl, rfl⟩, rfl⟩

theorem witness_OnlyTheTransitionsOfTheTable :
    (inExchange .settle [quiet]).Inv ∧ (inExchange .settle [quiet]).choice.rstN = true ∧
    ∃ t, step (inExchange .settle [quiet]) = .next t ∧ (t.xstate == .frameTx) = true :=
  ⟨inExchange_inv rfl (by decide) _, rfl, exists_next (by decide)⟩

/-- The last attempt of a silent line. -/
theorem witness_ExchangeEndsWithOkOrNoResponse :
    (inExchange .accum [quiet]).Inv ∧ (inExchange .accum [quiet]).xstate.inExchange = true ∧
    (inExchange .accum [quiet]).choice.rstN = true ∧
    ∃ t, step (inExchange .accum [quiet]) = .next t ∧ (t.xstate == .idle) = true :=
  ⟨inExchange_inv rfl (by decide) _, rfl, rfl, exists_next (by decide)⟩

/-- One attempt, a frame of one byte, one cycle a bit, every wait 0: the bound is 59 cycles. -/
theorem witness_SilentExchangeEndsWithNoResponse :
    let s := inExchange .wakeTx (List.replicate 59 quiet)
    s.Inv ∧ s.xstate = .wakeTx ∧ s.txidx = 0#10 ∧ s.txbit = 0#4 ∧ s.txcyc = 0#16 ∧ s.attempt = 1#4 ∧ s.rxLen = 0#10 ∧
      [0x68#8].length = s.frameLen.toNat ∧ s.holds .txbuf [0x68#8] ∧
      59 = s.maxAttempts.toNat * (44 * s.baudDiv.toNat + 11 * s.frameLen.toNat * s.baudDiv.toNat +
        (s.tSettle.toNat + s.tPostsend.toNat + s.tCeil.toNat + s.tRetry.toNat + 4) * (s.tickDiv.toNat + 1)) ∧
      ∀ j < 59, silent (s.choiceAt j) := by
  refine ⟨inExchange_inv rfl (by decide) _, rfl, rfl, rfl, rfl, rfl, rfl, rfl, ?_, by decide, silent_ahead rfl⟩
  intro i hi
  obtain rfl : i = 0 := by simpa using hi
  rfl

/-- I6 of 95_test_vectors.md, with a read in the reset cycle. -/
theorem witness_ResetCycleRestoresResetValues :
    (inExchange .accum [resets]).choice.rstN = false ∧
    (inExchange .accum [resets]).choice.access = some (.read 0x00C#11 .four) := ⟨rfl, rfl⟩

theorem witness_StepKeepsTheInvariant :
    (inExchange .wakeTx [quiet]).Inv ∧ ∃ t, step (inExchange .wakeTx [quiet]) = .next t ∧ (t.txbit == 1#4) = true :=
  ⟨inExchange_inv rfl (by decide) _, exists_next (by decide)⟩

/-- In the middle of a frame, with a read of a byte that is there. -/
theorem witness_WellUsedMachineNeverStops :
    let s := inExchange .frameTx [reads 0x200#11 .one]
    s.Inv ∧ s.operandsPresent ∧ (s.choice.rstN = true → s.accessOk s.choice.access) := by
  refine ⟨inExchange_inv rfl (by decide) _, ⟨?_, ?_, ?_, ?_⟩, fun _ => ?_⟩
  · intro i hi; simp [inExchange, State.reset] at hi
  · intro i hi _
    obtain rfl : i = 0 := by simpa [inExchange] using hi
    rfl
  · intro i hi; simp [inExchange, State.reset] at hi
  · intro i hi; simp [inExchange, State.reset] at hi
  · intro i hi
    obtain rfl : i = 0 := by simpa [sizeBytes] using hi
    rfl

/-- M5 and M15 of 95_test_vectors.md: both faults occur, the second from a state of the invariant. -/
theorem witness_StepsStopOnlyForTheHostOrAbsentBytes :
    step (start (reads 0x101#11 .two)) = .fault (.busError 0x101#11) ∧
    (start (reads 0x214#11 .one)).Inv ∧ step (start (reads 0x214#11 .one)) = .fault (.absentByte 0x214) :=
  ⟨rfl, start_inv _, rfl⟩

/-- N6 of 95_test_vectors.md, and the same write to FRAME_LEN with a command pending one cycle before its commit. -/
theorem witness_InputsAreFixedWhileBusy :
    (inExchange .settle [writes 0x01C#11 .four 0x12345678#32]).xstate ≠ .idle ∧
    (inExchange .settle [writes 0x01C#11 .four 0x12345678#32]).choice.rstN = true ∧
    (∃ t, step (inExchange .settle [writes 0x01C#11 .four 0x12345678#32]) = .next t ∧ (t.werr == true) = true) ∧
    (inExchange .settle [writes 0x01C#11 .four 0x12345678#32]).xstate.inExchange = true ∧
    (inCodec 1 [writes 0x024#11 .four 16#32]).xstate = .codec ∧ 0 < (inCodec 1 [writes 0x024#11 .four 16#32]).pendLat ∧
    (inCodec 1 [writes 0x024#11 .four 16#32]).choice.rstN = true ∧
    ∃ t, step (inCodec 1 [writes 0x024#11 .four 16#32]) = .next t ∧ (t.werr == true) = true :=
  ⟨by decide, rfl, exists_next (by decide), rfl, rfl, by decide, rfl, exists_next (by decide)⟩

/-- The coming cycle issues PARSE TX with latency draw 3, with a completion not acknowledged. -/
def issuesParse : State := { start { writes 0x008#11 .four 0x103#32 with latDraw := 3 } with done := true }

/-- I2 of 95_test_vectors.md, the acceptance of an EXCHANGE, and that of a PARSE TX: a latency above 0 needs
P_CODEC_MAX_LAT above 0, which is an open parameter (log 4). -/
theorem witness_CompletionRaisesAndAcknowledgeLowersIrq :
    (start (writes 0x00C#11 .four 2#32)).xstate = .idle ∧ (start (writes 0x00C#11 .four 2#32)).choice.rstN = true ∧
    (start (writes 0x00C#11 .four 2#32)).choice.access = some (.write 0x00C#11 .four 2#32) ∧
    (∃ t, step { start (writes 0x00C#11 .four 2#32) with done := true } = .next t ∧ (t.done == false) = true) ∧
    (let s := { start (writes 0x008#11 .four 4#32) with frameLen := 1#10, done := true };
      s.xstate = .idle ∧ s.writesCmd (encode .exchange) ∧ 1 ≤ s.frameLen.toNat ∧ s.frameLen.toNat ≤ 512 ∧
        1 ≤ s.baudDiv.toNat ∧ 1 ≤ s.maxAttempts.toNat ∧ ∃ t, step s = .next t ∧ (t.xstate == .wakeTx) = true) ∧
    Instr.parseTx ∈ [Instr.nop, .addrEncode, .build, .parseRx, .parseTx] ∧ issuesParse.xstate = .idle ∧
    issuesParse.writesCmd (encode .parseTx) ∧
    (1 ≤ Config.codecMaxLat →
      0 < drawnLatency issuesParse.choice.latDraw Config.codecMaxLat ∧ ∃ t, step issuesParse = .next t) := by
  refine ⟨rfl, rfl, rfl, exists_next (by decide),
    ⟨rfl, ⟨rfl, rfl⟩, by decide, by decide, by decide, by decide, exists_next (by decide)⟩, by decide, rfl, ⟨rfl, rfl⟩, fun h => ?_⟩
  have hl : 0 < drawnLatency issuesParse.choice.latDraw Config.codecMaxLat := by
    show 0 < min 3 Config.codecMaxLat
    omega
  refine ⟨hl, ?_⟩
  rw [step_of_writesCmd (w := encode .parseTx) rfl ⟨rfl, rfl⟩]
  rcases accept_cases (issuesParse.advance.answer none) (encode .parseTx) issuesParse.choice.latDraw with ⟨-, ha⟩ | ⟨ha, -⟩
  · rw [ha, thenDo_next, commitPhase_waits rfl hl, thenDo_next]
    exact ⟨_, rfl⟩
  · cases ha

end Sys2Proof.Tests
end

section
/-! PROOF. The statements of 00_scope.md: the register map at reset and the line that babbles. -/

namespace Sys2Proof.Machine

/-! ### The register map at reset -/

/-- A host read of a register answers its word and changes nothing else (20_memory.md R50, R55). -/
theorem hostRead_of_target_reg {off : BitVec 11} {size : Size} {r : Reg} (s : State)
    (h : target off size = some (.reg r)) : s.hostRead off size = .next (s.answer (some (s.readReg r))) := by
  simp [State.hostRead, h]

/-- P_BAUD_DIV_RESET lies in 1..65535 (00_scope.md R9). -/
theorem one_le_baudDivReset : 1 ≤ Config.baudDivReset.toNat := by
  have h := Config.baudDivResetLessOne.isLt
  rw [Config.baudDivReset, BitVec.toNat_ofNat, Nat.mod_eq_of_lt (by omega)]
  omega

/-- Settles O53: each offset of the map addresses a register, and at reset that register reads its reset value. -/
theorem registersAtReset : Obligations.RegistersAtReset := by
  refine ⟨fun p hp => ?_, one_le_baudDivReset, rfl, rfl, rfl, rfl, rfl, rfl, rfl, rfl, rfl, rfl, rfl, rfl, rfl⟩
  have map : ∃ r, target p.1 .four = some (.reg r) ∧ State.reset.readReg r = p.2 := by
    fin_cases hp <;> exact ⟨_, rfl, rfl⟩
  obtain ⟨r, hr, hv⟩ := map
  rw [hostRead_of_target_reg State.reset hr, hv, State.answer]

/-! ### One received character -/

/-- A taken character is counted while RXBUF has room (42_transceiver.md R124). -/
theorem takeChar_rxLen_toNat (s : State) (c : RxChar) :
    (s.takeChar c).rxLen.toNat = if s.rxLen.toNat < 512 then s.rxLen.toNat + 1 else s.rxLen.toNat := by
  simp only [State.takeChar]
  split
  · simp only [BitVec.toNat_add, BitVec.toNat_ofNat]
    omega
  · rfl

/-- After a taken character the attempt has received something. -/
theorem takeChar_rxLen_ne_zero (s : State) (c : RxChar) : (s.takeChar c).rxLen ≠ 0#10 := by
  intro h0
  have h := takeChar_rxLen_toNat s c
  rw [h0, BitVec.toNat_zero] at h
  split at h <;> omega

/-- A taken character raises RX_OVF when RXBUF is full, and never lowers it (42_transceiver.md R124). -/
theorem takeChar_rxOvf (s : State) (c : RxChar) :
    (s.takeChar c).rxOvf = true ↔ s.rxOvf = true ∨ 512 ≤ s.rxLen.toNat := by
  simp only [State.takeChar]
  split
  · exact ⟨.inl, fun h => h.resolve_right (by omega)⟩
  · exact ⟨fun _ => .inr (by omega), fun _ => rfl⟩

@[simp] theorem takeChar_xstate (s : State) (c : RxChar) : (s.takeChar c).xstate = s.xstate := by
  simp only [State.takeChar]; split <;> rfl

@[simp] theorem takeChar_tInact (s : State) (c : RxChar) : (s.takeChar c).tInact = s.tInact := by
  simp only [State.takeChar]; split <;> rfl

/-! ### A line that babbles -/

/-- In ACCUM an arrival clears the inactivity count, so with a byte held and T_INACT above 0 the cycle only counts
(42_transceiver.md R114). -/
theorem accumStep_of_arrival {s : State} (tick : Bool) (h0 : s.rxLen ≠ 0#10) (hT : s.tInact ≠ 0#16) :
    s.accumStep true tick = .next (s.accumCount true tick) := by
  rcases accumStep_cases s true tick with ⟨-, hi, -⟩ | ⟨hz, -, -⟩ | ⟨-, h⟩
  · have hi : s.tInact.toNat ≤ 0 := hi
    exact absurd (BitVec.eq_of_toNat_eq (Nat.le_zero.mp hi)) hT
  · exact absurd hz h0
  · exact h

/-- A cycle of ACCUM with a quiet host in which a character completes: it is taken, and accumulation goes on. -/
theorem step_of_accum_arrival {s : State} {c : RxChar} (hx : s.xstate = .accum) (hT : s.tInact ≠ 0#16)
    (hq : hostQuiet s.choice) (hc : s.choice.rx = some c) :
    step s = .next
      (((s.advance.answer none).takeChar c).tickPhase.accumCount true ((s.advance.answer none).takeChar c).tick) := by
  rw [step_of_hostQuiet hq, hx, hc, commitPhase_not_codec (by simp [hx]), thenDo_next]
  have h0 : ((s.advance.answer none).takeChar c).tickPhase.rxLen ≠ 0#10 := takeChar_rxLen_ne_zero _ c
  have hT' : ((s.advance.answer none).takeChar c).tickPhase.tInact ≠ 0#16 := by simpa using hT
  exact accumStep_of_arrival _ h0 hT'

/-- `t` stands in the ACCUM that `s` stood in, with bytes held, `k` characters after it (42_transceiver.md R114, R124). -/
structure Babbled (s : State) (k : Nat) (t : State) : Prop where
  xstate : t.xstate = .accum
  rxLen_ne_zero : t.rxLen ≠ 0#10
  tInact : t.tInact = s.tInact
  /-- RX_LEN counts the characters up to the room of RXBUF. -/
  rxLen : s.rxLen.toNat ≤ 512 → t.rxLen.toNat = min 512 (s.rxLen.toNat + k)
  /-- RX_OVF is set once a character has come without room. -/
  rxOvf : 512 < s.rxLen.toNat + k → s.rxLen.toNat ≤ 512 → t.rxOvf = true

theorem Babbled.refl {s : State} (hx : s.xstate = .accum) (h0 : s.rxLen ≠ 0#10) : Babbled s 0 s where
  xstate := hx
  rxLen_ne_zero := h0
  tInact := rfl
  rxLen h := by omega
  rxOvf h h' := by omega

/-- One more character with a quiet host keeps ACCUM, and is counted. -/
theorem Babbled.arrival {s t : State} {k : Nat} (h : Babbled s k t) (hT : s.tInact ≠ 0#16) (hq : hostQuiet t.choice)
    (hc : t.choice.rx.isSome = true) : ∃ u, step t = .next u ∧ Babbled s (k + 1) u := by
  obtain ⟨c, hc⟩ := Option.isSome_iff_exists.mp hc
  have hlen : ((t.advance.answer none).takeChar c).rxLen.toNat =
      if t.rxLen.toNat < 512 then t.rxLen.toNat + 1 else t.rxLen.toNat := takeChar_rxLen_toNat _ c
  refine ⟨_, step_of_accum_arrival h.xstate (h.tInact ▸ hT) hq hc, ?_, ?_, ?_, fun hs => ?_, fun hn hs => ?_⟩
  · simp [h.xstate]
  · simpa using takeChar_rxLen_ne_zero _ c
  · simp [h.tInact]
  · have held : t.rxLen.toNat = min 512 (s.rxLen.toNat + k) := h.rxLen hs
    simp only [State.accumCount_rxLen, State.tickPhase_rxLen, hlen]
    split <;> omega
  · rw [State.accumCount_rxOvf, State.tickPhase_rxOvf, takeChar_rxOvf]
    rcases Nat.lt_or_ge 512 (s.rxLen.toNat + k) with hk | hk
    · exact .inl (h.rxOvf hk hs)
    · have held : t.rxLen.toNat = min 512 (s.rxLen.toNat + k) := h.rxLen hs
      have full : 512 ≤ t.rxLen.toNat := by omega
      exact .inr full

/-- A line with a character in every cycle keeps the attempt in ACCUM, by induction on the cycles (42_transceiver.md R119). -/
theorem runFor_babbled {s : State} (hx : s.xstate = .accum) (h0 : s.rxLen ≠ 0#10) (hT : s.tInact ≠ 0#16) (n : Nat)
    (hq : ∀ j < n, hostQuiet (s.choiceAt j) ∧ (s.choiceAt j).rx.isSome = true) :
    ∃ t, runFor n s = .next t ∧ Babbled s n t := by
  induction n with
  | zero => exact ⟨s, rfl, .refl hx h0⟩
  | succ n ih =>
    obtain ⟨t, ht, hb⟩ := ih fun j hj => hq j (Nat.lt_succ_of_lt hj)
    obtain ⟨quiet, char⟩ := choice_runFor ht ▸ hq n (Nat.lt_succ_self n)
    rw [runFor_snoc ht]
    exact hb.arrival hT quiet char

/-- Settles O49, by induction on the number of cycles: each arrival clears the inactivity count that would end the attempt. -/
theorem aBabblingLineNeverEnds : Obligations.ABabblingLineNeverEnds := by
  intro s n hx h0 hT hq
  obtain ⟨t, ht, hb⟩ := runFor_babbled hx h0 hT n hq
  exact ⟨t, ht, hb.xstate, by simp [State.busy, hb.xstate], hb.rxLen_ne_zero, hb.rxOvf⟩

end Sys2Proof.Machine
end

section
/-! PROOF. The invariant of 10_state.md: every phase of a cycle keeps it, hence every cycle. -/

namespace Sys2Proof.Machine

/-! ### The parts of the invariant -/

/-- A state in which nothing is in progress meets the invariant once its base part does. -/
theorem inv_of_idle {s : State} (h : State.InvBase s) (hx : s.xstate = .idle) (hp : s.pendOp = 0#4) (hl : s.pendLat = 0) :
    s.Inv where
  memWf := h.memWf
  memInBuffers := h.memInBuffers
  prescLe := h.prescLe
  busyNotDone := fun hb => absurd hx hb
  pending := fun hc => by simp [hx] at hc
  nonePending := fun _ => ⟨hp, hl⟩
  exchange := fun hc => by simp [hx, XState.inExchange] at hc
  retrying := fun hc => by simp [hx] at hc
  received := fun hc => by simp [hx, XState.inExchange] at hc
  inPreamble := fun hc => by simp [hx] at hc
  inFrame := fun hc => by simp [hx] at hc

/-- Settles O55: no buffer byte is listed, PRESC is 0 and nothing is in progress. -/
theorem resetMeetsTheInvariant : Obligations.ResetMeetsTheInvariant :=
  inv_of_idle ⟨State.reset_mem_wf, fun _ hc => absurd hc List.not_mem_nil, Nat.zero_le _⟩ rfl rfl rfl

/-- A reset cycle keeps the buffers and otherwise takes the reset values, so it keeps the invariant. -/
theorem inv_resetPhase {s : State} (h : s.Inv) (access : Option Access) : (s.resetPhase access).Inv := by
  rw [resetPhase_frame]
  exact inv_of_idle ⟨h.memWf, h.memInBuffers, Nat.zero_le _⟩ rfl rfl rfl

/-- The invariant does not speak of the outside's choices and of the bus answer. -/
theorem inv_advance {s : State} (h : s.Inv) : s.advance.Inv := { h with }

theorem inv_answer {s : State} (h : s.Inv) (d : Option Word) : (s.answer d).Inv := { h with }

/-- The part of the invariant that all states of an EXCHANGE share: it speaks neither of XSTATE nor of the counters. -/
structure State.InvExchange (s : State) : Prop extends State.InvBase s where
  notDone : s.done = false ∧ s.errcode = .ok
  nonePending : s.pendOp = 0#4 ∧ s.pendLat = 0
  config : 1 ≤ s.frameLen.toNat ∧ s.frameLen.toNat ≤ 512 ∧ s.baudDiv ≠ 0#16 ∧
    1 ≤ s.attempt.toNat ∧ s.attempt.toNat ≤ s.maxAttempts.toNat
  received : s.rxLen.toNat ≤ 512 ∧ ∀ i < s.rxLen.toNat, s.present .rxbuf i

theorem XState.inExchange_iff (x : XState) : x.inExchange = true ↔ x ≠ .idle ∧ x ≠ .codec := by
  cases x <;> decide

theorem State.Inv.toExchange {s : State} (h : s.Inv) (hx : s.xstate.inExchange = true) : s.InvExchange where
  toInvBase := h.base
  notDone := h.busyNotDone ((XState.inExchange_iff _).mp hx).1
  nonePending := h.nonePending ((XState.inExchange_iff _).mp hx).2
  config := h.exchange hx
  received := h.received hx

/-- An EXCHANGE meets the invariant once its shared part and what the state it stands in asks for hold. -/
theorem State.InvExchange.inv {s : State} (h : s.InvExchange) (hx : s.xstate.inExchange = true)
    (hr : s.xstate = .retryWait → s.attempt.toNat < s.maxAttempts.toNat)
    (hp : s.xstate = .wakeTx → s.txidx.toNat ≤ 3 ∧ s.txInBit)
    (hf : s.xstate = .frameTx → s.txidx.toNat < s.frameLen.toNat ∧ s.txInBit) : s.Inv where
  memWf := h.memWf
  memInBuffers := h.memInBuffers
  prescLe := h.prescLe
  busyNotDone := fun _ => h.notDone
  pending := fun hc => absurd hc ((XState.inExchange_iff _).mp hx).2
  nonePending := fun _ => h.nonePending
  exchange := fun _ => h.config
  retrying := hr
  received := fun _ => h.received
  inPreamble := hp
  inFrame := hf

/-- A baud divisor other than 0 leaves room for a first cycle in each bit. -/
theorem State.InvExchange.baudDiv_pos {s : State} (h : s.InvExchange) : 0 < s.baudDiv.toNat :=
  Nat.pos_of_ne_zero fun h0 => h.config.2.2.1 (BitVec.eq_of_toNat_eq h0)

/-! ### Acceptance and commit -/

/-- The command word of a codec command has an opcode below 4, and SRC only with opcode 3 (30_encoding.md R70). -/
theorem isCodec_fields {w : Word} (h : isCodec (decodeWord w) = true) :
    (opField w).toNat ≤ 3 ∧ (srcField w = true → opField w = 3#4) := by
  cases hw : illegalWord w with
  | true => rw [decodeWord_of_illegal hw] at h; cases h
  | false => rcases legalWord_cases hw with rfl | rfl | rfl | rfl | rfl | rfl <;> revert h <;> decide

/-- The pending word carries PEND_OP in its opcode field. -/
theorem opField_pendWord (s : State) : opField s.pendWord = s.pendOp := by
  apply BitVec.eq_of_toNat_eq
  have hp := s.pendOp.isLt
  rw [opField_toNat, State.pendWord, BitVec.toNat_append, ← Nat.shiftLeft_add_eq_or_of_lt hp, Nat.shiftLeft_eq]
  omega

/-- Only the opcode 4 stands for EXCHANGE. -/
theorem opField_of_exchange {w : Word} (h : decodeWord w = .exchange) : opField w = 4#4 := by
  cases hw : illegalWord w with
  | true => rw [decodeWord_of_illegal hw] at h; cases h
  | false => rcases legalWord_cases hw with rfl | rfl | rfl | rfl | rfl | rfl <;> revert h <;> decide

/-- Acceptance in IDLE keeps the invariant: a codec command becomes pending, any other command runs. -/
theorem inv_accept {s t : State} {w : Word} {lat : Nat} (h : s.Inv) (hx : s.xstate = .idle) (ha : s.accept w lat = .next t) :
    t.Inv := by
  rcases accept_cases s w lat with ⟨hc, he⟩ | ⟨-, he⟩ <;> rw [he] at ha
  · cases ha
    have hf := isCodec_fields hc
    exact {
      memWf := h.memWf
      memInBuffers := h.memInBuffers
      prescLe := h.prescLe
      busyNotDone := fun _ => ⟨rfl, rfl⟩
      pending := fun _ => ⟨hf.1, hf.2, drawnLatency_le _ _⟩
      nonePending := fun hn => absurd rfl hn
      exchange := fun hn => by cases hn
      retrying := fun hn => by cases hn
      received := fun hn => by cases hn
      inPreamble := fun hn => by cases hn
      inFrame := fun hn => by cases hn }
  · have hb : State.InvBase s.acceptClear := ⟨h.memWf, h.memInBuffers, h.prescLe⟩
    exact inv_exec hb (fun _ => ⟨rfl, rfl, h.nonePending (by simp [hx])⟩) ha

/-- The host access of a cycle keeps the invariant. -/
theorem inv_hostPhase {s t : State} {access : Option Access} {lat : Nat} (h : s.Inv)
    (hs : s.hostPhase access lat = .next t) : t.Inv := by
  rcases hostPhase_cases s access lat with ⟨u, hu, he⟩ | ⟨hx, w, -, hu⟩ | ⟨_, _, hu, -⟩ | ⟨_, hu⟩ <;> rw [hu] at hs
  · cases hs; exact inv_host h he
  · exact inv_accept (inv_answer h none) hx hs
  · cases hs
  · cases hs

/-- The commit keeps the invariant: the pending word is that of a codec command, never EXCHANGE. -/
theorem inv_commitPhase {s t : State} (h : s.Inv) (hs : s.commitPhase = .next t) : t.Inv := by
  by_cases hx : s.xstate = .codec
  · obtain ⟨hop, hsrc, hlat⟩ := h.pending hx
    rcases Nat.eq_zero_or_pos s.pendLat with h0 | hpos
    · rw [State.commitPhase, if_pos hx, if_pos h0] at hs
      refine inv_exec h.base (fun hi => ?_) hs
      have h4 := opField_of_exchange hi
      rw [opField_pendWord] at h4
      simp [h4] at hop
    · rw [commitPhase_waits hx hpos] at hs
      cases hs
      exact { h with
        pending := fun _ => ⟨hop, hsrc, Nat.le_trans (Nat.sub_le _ _) hlat⟩
        nonePending := fun hn => absurd hx hn }
  · rw [commitPhase_not_codec hx] at hs
    cases hs
    exact h

/-! ### The attempt state machine -/

/-- Within its run the transmitter stays inside a character and at or below the last index. -/
theorem txAdvance_within {s : State} {last : Nat} (f : State → State) (hB : 0 < s.baudDiv.toNat) (hi : s.txidx.toNat ≤ last)
    (hb : s.txInBit) :
    (∃ c b i, s.txAdvance last f = { s with txcyc := c, txbit := b, txidx := i } ∧ i.toNat ≤ last ∧ b.toNat ≤ 10 ∧
      c.toNat < s.baudDiv.toNat) ∨
    s.txAdvance last f = f { s with txcyc := 0#16, txbit := 0#4, txidx := 0#10 } := by
  obtain ⟨hb1, hb2⟩ := hb
  simp only [State.txAdvance]
  split
  · refine .inl ⟨_, _, _, rfl, hi, hb1, ?_⟩
    rw [BitVec.toNat_add, BitVec.toNat_ofNat]
    omega
  · split
    · refine .inl ⟨_, _, _, rfl, hi, ?_, hB⟩
      rw [BitVec.toNat_add, BitVec.toNat_ofNat]
      omega
    · split
      · refine .inl ⟨_, _, _, rfl, ?_, Nat.zero_le _, hB⟩
        rw [BitVec.toNat_add, BitVec.toNat_ofNat]
        omega
      · exact .inr rfl

/-- A new attempt within the attempt count starts at the first bit of the preamble, with nothing received. -/
theorem State.InvExchange.inv_startAttempt {s : State} (h : s.InvExchange) (ha : s.attempt.toNat < s.maxAttempts.toNat) :
    s.startAttempt.Inv := by
  have hm := s.maxAttempts.isLt
  have next : (s.attempt + 1#4).toNat = s.attempt.toNat + 1 := by
    rw [BitVec.toNat_add, BitVec.toNat_ofNat]
    omega
  have core : s.startAttempt.InvExchange := { h with
    config := ⟨h.config.1, h.config.2.1, h.config.2.2.1, next ▸ Nat.le_add_left 1 _, next ▸ ha⟩
    received := ⟨Nat.zero_le _, fun i hi => absurd hi (Nat.not_lt_zero i)⟩ }
  exact core.inv rfl (fun hc => by cases hc) (fun _ => ⟨Nat.zero_le _, Nat.zero_le _, h.baudDiv_pos⟩) (fun hc => by cases hc)

/-- A failed attempt waits for the next one, or completes the EXCHANGE. -/
theorem State.InvExchange.inv_attemptFailed {s : State} (h : s.InvExchange) (e : ErrCode) : (s.attemptFailed e).Inv := by
  rcases Nat.lt_or_ge s.attempt.toNat s.maxAttempts.toNat with ha | ha
  · rw [attemptFailed_retry e ha]
    exact State.InvExchange.inv { h with } rfl (fun _ => ha) (fun hc => by cases hc) (fun hc => by cases hc)
  · rw [attemptFailed_last e ha]
    exact inv_complete (s := ({ s with lastErr := e } : State).clearParse) ⟨h.memWf, h.memInBuffers, h.prescLe⟩ _

/-- Applying a parse outcome with a payload of at most 255 bytes writes inside RXDATA only. -/
theorem invBase_applyParse {s : State} (h : State.InvBase s) (c l : Byte) (hd : Bool) (di : Word) {p : List Byte}
    (hp : p.length ≤ 255) : State.InvBase (s.applyParse (.ok c l hd di p)) :=
  invBase_write h ⟨rfl, rfl⟩ (.inr ⟨0x600, p, rfl, by omega, by omega⟩)

/-- ACCUM keeps the invariant, whether it goes on, ends the attempt or completes the EXCHANGE. -/
theorem inv_accumStep {s t : State} {arr tick : Bool} (h : s.Inv) (hx : s.xstate = .accum)
    (hs : s.accumStep arr tick = .next t) : t.Inv := by
  have core : (s.accumCount arr tick).InvExchange := { h.toExchange (by rw [hx]; rfl) with }
  rcases accumStep_cases s arr tick with ⟨-, -, done⟩ | ⟨-, -, he⟩ | ⟨-, he⟩
  · rcases done with ⟨c, l, hd, di, p, -, hl, he⟩ | ⟨e, -, -, he⟩ | ⟨_, _, -, -, he⟩ <;> rw [he] at hs
    · cases hs; exact inv_complete (invBase_applyParse core.toInvBase c l hd di hl) _
    · cases hs; exact core.inv_attemptFailed e
    · cases hs
  · rw [he] at hs; cases hs; exact core.inv_attemptFailed _
  · rw [he] at hs; cases hs
    have hx' : (s.accumCount arr tick).xstate = .accum := hx
    exact core.inv (by rw [hx']; rfl) (by simp [hx]) (by simp [hx]) (by simp [hx])

/-- A cycle of the transmitter in state `x` keeps the invariant when the state its end leads to asks for nothing of its own. -/
theorem inv_txAdvance {s : State} {last : Nat} {y : XState} (h : s.Inv)
    (hx : (s.xstate = .wakeTx ∧ last = 3) ∨ (s.xstate = .frameTx ∧ last = s.frameLen.toNat - 1))
    (hy : y = .settle ∨ y = .postWait) :
    (s.txAdvance last fun t => { t with wcnt := 0#16, xstate := y }).Inv := by
  have hin : s.xstate.inExchange = true := by rcases hx with ⟨hx, -⟩ | ⟨hx, -⟩ <;> rw [hx] <;> rfl
  have core := h.toExchange hin
  have pos : s.txidx.toNat ≤ last ∧ s.txInBit := by
    rcases hx with ⟨hx, rfl⟩ | ⟨hx, rfl⟩
    · exact h.inPreamble hx
    · exact ⟨Nat.le_sub_one_of_lt (h.inFrame hx).1, (h.inFrame hx).2⟩
  rcases txAdvance_within (fun t => { t with wcnt := 0#16, xstate := y }) core.baudDiv_pos pos.1 pos.2 with
    ⟨c, b, i, he, hi, hb, hc⟩ | he <;> rw [he]
  · refine State.InvExchange.inv { core with } hin h.retrying (fun hw => ⟨?_, hb, hc⟩) (fun hf => ⟨?_, hb, hc⟩)
    · rcases hx with ⟨-, rfl⟩ | ⟨hx, -⟩
      · exact hi
      · exact absurd (hx.symm.trans hw) (by decide)
    · rcases hx with ⟨hx, -⟩ | ⟨-, rfl⟩
      · exact absurd (hx.symm.trans hf) (by decide)
      · exact Nat.lt_of_le_sub_one core.config.1 hi
  · rcases hy with rfl | rfl <;>
      exact State.InvExchange.inv { core with } rfl (fun hz => by cases hz) (fun hz => by cases hz) (fun hz => by cases hz)

/-- SETTLE keeps the invariant: the frame starts at its first bit. -/
theorem inv_settleStep {s : State} (h : s.Inv) (hx : s.xstate = .settle) (tick : Bool) : (s.settleStep tick).Inv := by
  have core := h.toExchange (by rw [hx]; rfl)
  simp only [State.settleStep]
  split
  · exact State.InvExchange.inv { core with } rfl (fun hc => by cases hc) (fun hc => by cases hc)
      (fun _ => ⟨core.config.1, Nat.zero_le _, core.baudDiv_pos⟩)
  · exact { h with }

theorem inv_postWaitStep {s : State} (h : s.Inv) (hx : s.xstate = .postWait) (tick : Bool) : (s.postWaitStep tick).Inv := by
  have core := h.toExchange (by rw [hx]; rfl)
  simp only [State.postWaitStep]
  split
  · exact State.InvExchange.inv { core with } rfl (fun hc => by cases hc) (fun hc => by cases hc) (fun hc => by cases hc)
  · exact { h with }

/-- RETRY_WAIT keeps the invariant: it was entered only while attempts remained. -/
theorem inv_retryWaitStep {s : State} (h : s.Inv) (hx : s.xstate = .retryWait) (tick : Bool) : (s.retryWaitStep tick).Inv := by
  have core := h.toExchange (by rw [hx]; rfl)
  simp only [State.retryWaitStep]
  split
  · exact State.InvExchange.inv_startAttempt { core with } (h.retrying hx)
  · exact { h with }

/-- The state machine keeps the invariant in each of its states. -/
theorem inv_fsmPhase {s t : State} {x0 : XState} {arr tick : Bool} (h : s.Inv) (hx : s.xstate = x0)
    (hs : s.fsmPhase x0 arr tick = .next t) : t.Inv := by
  cases x0 with
  | idle => cases hs; exact h
  | codec => cases hs; exact h
  | wakeTx => cases hs; exact inv_txAdvance h (.inl ⟨hx, rfl⟩) (.inl rfl)
  | settle => cases hs; exact inv_settleStep h hx tick
  | postWait => cases hs; exact inv_postWaitStep h hx tick
  | retryWait => cases hs; exact inv_retryWaitStep h hx tick
  | accum => exact inv_accumStep h hx hs
  | frameTx =>
    simp only [State.fsmPhase] at hs
    cases hb : s.bufByte .txbuf s.txidx.toNat with
    | error f => rw [hb] at hs; cases hs
    | ok v => rw [hb] at hs; cases hs; exact inv_txAdvance h (.inr ⟨hx, rfl⟩) (.inr rfl)

/-- The received character does not move the sequencer. -/
@[simp] theorem rxPhase_xstate (s : State) (x0 : XState) (rx : Option RxChar) : (s.rxPhase x0 rx).xstate = s.xstate := by
  rw [rxPhase_frame]

/-- Steps (4) to (6) keep the invariant from the state the cycle started in. -/
theorem inv_linePhases {s t : State} {rx : Option RxChar} (h : s.Inv) (hs : s.linePhases s.xstate rx = .next t) : t.Inv :=
  inv_fsmPhase (inv_tick (inv_rx h rx)) (rxPhase_xstate s s.xstate rx) hs

/-- A cycle that starts outside an EXCHANGE: the line phases only count the prescaler. -/
theorem step_outside_exchange {s : State} (hx : s.xstate.inExchange = false) (hr : s.choice.rstN = true) :
    step s = thenDo (s.advance.hostPhase s.choice.access s.choice.latDraw) fun t =>
      thenDo t.commitPhase fun u => .next u.tickPhase := by
  cases h : s.xstate with
  | idle => exact step_of_idle h hr
  | codec => exact step_of_codec h hr
  | _ => rw [h] at hx; cases hx

/-- Settles O56: reset values meet the invariant, and otherwise the host access, the commit and the line phases keep it in
turn. -/
theorem stepKeepsTheInvariant : Obligations.StepKeepsTheInvariant := by
  intro s t h hs
  cases hr : s.choice.rstN with
  | false =>
    rw [step_of_rstN_low hr] at hs
    cases hs
    exact inv_resetPhase (inv_advance h) _
  | true =>
    by_cases hx : s.xstate.inExchange = true
    · obtain ⟨hi, hc⟩ := (XState.inExchange_iff _).mp hx
      obtain ⟨u, hu, hframe, -, hline⟩ := step_in_exchange hr hi hc hs
      have hux : u.xstate = s.xstate := by rw [hframe]
      rw [← hux] at hline
      exact inv_linePhases (inv_hostPhase (inv_advance h) hu) hline
    · rw [step_outside_exchange (by simpa using hx) hr] at hs
      obtain ⟨u, hu, hs⟩ := thenDo_eq_next hs
      obtain ⟨v, hv, hs⟩ := thenDo_eq_next hs
      cases hs
      exact inv_tick (inv_commitPhase (inv_hostPhase (inv_advance h) hu) hv)

end Sys2Proof.Machine
end

section
/-! PROOF. Absent bytes of 10_state.md R43: which reads reach a byte that nothing has written, and that nothing else but a bus
error of the host stops a cycle. -/

namespace Sys2Proof.Machine

/-! ### Reads of buffer bytes -/

theorem State.not_present_iff {s : State} {b : Buf} {i : Nat} : ¬ s.present b i ↔ s.mem.get (b.base + i) = none := by
  simp [State.present]

/-- A byte that holds a value is read. -/
theorem bufByte_present {s : State} {b : Buf} {i : Nat} (hi : i < b.size) (h : s.present b i) :
    ∃ v, s.bufByte b i = .ok v := by
  obtain ⟨v, hv⟩ := Option.isSome_iff_exists.mp h
  exact ⟨v, (State.bufByte_eq_ok hi).mpr hv⟩

/-- A byte that holds no value faults, and the fault names it. -/
theorem bufByte_absent {s : State} {b : Buf} {i : Nat} (hi : i < b.size) (h : ¬ s.present b i) :
    s.bufByte b i = .error (.absentByte (b.base + i)) := by
  rw [State.bufByte, if_pos hi, Memory.read_absent (State.not_present_iff.mp h)]

/-- A read of a buffer's bytes from the first on faults on the first absent one. -/
theorem bufPrefix_absent {s : State} {b : Buf} {n i : Nat} (hn : n ≤ b.size) (hi : i < n) (hp : ∀ j < i, s.present b j)
    (ha : ¬ s.present b i) : s.bufPrefix b n = .error (.absentByte (b.base + i)) := by
  refine readRange_error hi (fun j hj => ?_) ?_ <;> rw [Nat.zero_add]
  · exact bufByte_present (by omega) (hp j hj)
  · exact bufByte_absent (by omega) ha

/-- A host read of several bytes that all hold values is answered. -/
theorem readRange_present {m : Memory} {k n : Nat} (h : ∀ i < n, (m.get (k + i)).isSome = true) :
    ∃ bs, readRange m.read k n = .ok bs := by
  cases hr : readRange m.read k n with
  | ok bs => exact ⟨bs, rfl⟩
  | error f =>
    obtain ⟨i, hi, hf⟩ := readRange_fault hr
    obtain ⟨v, hv⟩ := Option.isSome_iff_exists.mp (h i hi)
    rw [Memory.read_eq_ok.mpr hv] at hf
    cases hf

/-- A host read of a buffer faults on its first absent byte. -/
theorem hostRead_absent {s : State} {off : BitVec 11} {size : Size} {b : Buf} {i : Nat}
    (ht : target off size = some (.buf b off.toNat)) (hi : i < sizeBytes size)
    (hp : ∀ j < i, (s.mem.get (off.toNat + j)).isSome = true) (ha : s.mem.get (off.toNat + i) = none) :
    s.hostRead off size = .fault (.absentByte (off.toNat + i)) := by
  have hr : readRange s.mem.read off.toNat (sizeBytes size) = .error (.absentByte (off.toNat + i)) := by
    refine readRange_error hi (fun j hj => ?_) (Memory.read_absent ha)
    obtain ⟨v, hv⟩ := Option.isSome_iff_exists.mp (hp j hj)
    exact ⟨v, Memory.read_eq_ok.mpr hv⟩
  simp [State.hostRead, ht, hr]

/-! ### The checks of the parse, in their order (41_codec.md R99) -/

section ParseChecks

variable {rd : Nat → Except Fault Byte} {n : Nat} (hn : 12 ≤ n)

include hn

theorem parse_start_absent {f : Fault} (h0 : rd 0 = .error f) : parse rd n = .error f := by
  simp [parse, Nat.not_lt.mpr hn, h0, Except.bind]

theorem parse_start_wrong {b : Byte} (h0 : rd 0 = .ok b) (hb : b ≠ 0x68#8) :
    parse rd n = .ok (.fail .invalidFrameMarkers) := by
  simp [parse, Nat.not_lt.mpr hn, h0, Except.bind, hb]

variable (h0 : rd 0 = .ok 0x68#8)

include h0

theorem parse_end_absent {f : Fault} (hE : rd (n - 1) = .error f) : parse rd n = .error f := by
  simp [parse, Nat.not_lt.mpr hn, h0, hE, Except.bind]

theorem parse_end_wrong {b : Byte} (hE : rd (n - 1) = .ok b) (hb : b ≠ 0x16#8) :
    parse rd n = .ok (.fail .invalidFrameMarkers) := by
  simp [parse, Nat.not_lt.mpr hn, h0, hE, Except.bind, hb]

variable (hE : rd (n - 1) = .ok 0x16#8)

include hE

theorem parse_second_absent {f : Fault} (h7 : rd 7 = .error f) : parse rd n = .error f := by
  simp [parse, Nat.not_lt.mpr hn, h0, hE, h7, Except.bind]

theorem parse_second_wrong {b : Byte} (h7 : rd 7 = .ok b) (hb : b ≠ 0x68#8) :
    parse rd n = .ok (.fail .invalidSecondStart) := by
  simp [parse, Nat.not_lt.mpr hn, h0, hE, h7, Except.bind, hb]

variable (h7 : rd 7 = .ok 0x68#8)

include h7

theorem parse_length_absent {f : Fault} (h9 : rd 9 = .error f) : parse rd n = .error f := by
  simp [parse, Nat.not_lt.mpr hn, h0, hE, h7, h9, Except.bind]

theorem parse_length_wrong {l : Byte} (h9 : rd 9 = .ok l) (hl : l.toNat ≠ n - 12) :
    parse rd n = .ok (.fail .lengthMismatch) := by
  simp [parse, Nat.not_lt.mpr hn, h0, hE, h7, h9, Except.bind, hl]

/-- Past the length check the bytes before the end marker are read in rising order. -/
theorem parse_body_absent {l : Byte} {i : Nat} {f : Fault} (h9 : rd 9 = .ok l) (hl : l.toNat = n - 12) (hi : i < n - 1)
    (hp : ∀ j < i, ∃ b, rd j = .ok b) (ha : rd i = .error f) : parse rd n = .error f := by
  rcases Nat.lt_or_ge i (10 + l.toNat) with hlt | hge
  · have hr : readRange rd 0 (10 + l.toNat) = .error f :=
      readRange_error hlt (fun j hj => by rw [Nat.zero_add]; exact hp j hj) (by rw [Nat.zero_add]; exact ha)
    rw [hl] at hr
    simp [parse, Nat.not_lt.mpr hn, h0, hE, h7, h9, hr, Except.bind, hl]
  · obtain rfl : i = 10 + l.toNat := by omega
    cases hr : readRange rd 0 (10 + l.toNat) with
    | ok body => simp [parse, Nat.not_lt.mpr hn, h0, hE, h7, h9, hr, ha, Except.bind, ← hl]
    | error g =>
      obtain ⟨j, hj, hg⟩ := readRange_fault hr
      obtain ⟨b, hb⟩ := hp j hj
      rw [Nat.zero_add, hb] at hg
      cases hg

end ParseChecks

/-- `i` is the PARSE of the first `n` bytes of buffer `b` (41_codec.md R101). -/
def State.parses (s : State) (i : Instr) (b : Buf) (n : Nat) : Prop :=
  (i = .parseRx ∧ b = .rxbuf ∧ n = s.rxLen.toNat) ∨ (i = .parseTx ∧ b = .txbuf ∧ n = s.frameLen.toNat)

section ParseCommand

variable {s : State} {i : Instr} {b : Buf} {n : Nat} (h : s.parses i b n)

include h

theorem State.parses.size : b.size = 512 := by
  rcases h with ⟨-, rfl, -⟩ | ⟨-, rfl, -⟩ <;> rfl

theorem State.parses.exec_eq : exec i s = s.parseBuf b n := by
  rcases h with ⟨rfl, rfl, rfl⟩ | ⟨rfl, rfl, rfl⟩ <;> rfl

theorem State.parses.read {k : Nat} {v : Byte} (hk : k < 512) (hv : s.mem.get (b.base + k) = some v) :
    s.bufByte b k = .ok v :=
  (State.bufByte_eq_ok (h.size ▸ hk)).mpr hv

theorem State.parses.read_absent {k : Nat} (hk : k < 512) (ha : ¬ s.present b k) :
    s.bufByte b k = .error (.absentByte (b.base + k)) :=
  bufByte_absent (h.size ▸ hk) ha

/-- A PARSE whose parse faults stops with that fault. -/
theorem State.parses.exec_fault {f : Fault} (hn : n ≤ 512) (hp : parse (s.bufByte b) n = .error f) : exec i s = .fault f := by
  rw [h.exec_eq, State.parseBuf, if_neg (by omega), hp, readThen_error]

/-- A PARSE whose parse fails completes with the code of the failure. -/
theorem State.parses.exec_fail {e : ErrCode} (hn : n ≤ 512) (hp : parse (s.bufByte b) n = .ok (.fail e)) :
    ∃ t, exec i s = .next t ∧ t.errcode = e := by
  rw [h.exec_eq, State.parseBuf, if_neg (by omega), hp]
  exact ⟨_, rfl, rfl⟩

end ParseCommand

/-- Settles O16: each check decides from the bytes read so far, whatever the bytes after it hold. -/
theorem parseReadsOnlyWhatItsChecksReach : Obligations.ParseReadsOnlyWhatItsChecksReach := by
  intro s i b n b0 bEnd b7 l (hc : s.parses i b n) hn hn' g0
  have r0 : s.bufByte b 0 = .ok b0 := hc.read (by omega) g0
  refine ⟨fun hb => hc.exec_fail hn' (parse_start_wrong hn r0 hb), ?_⟩
  rintro rfl gE
  have rE := hc.read (by omega) gE
  refine ⟨fun hb => hc.exec_fail hn' (parse_end_wrong hn r0 rE hb), ?_⟩
  rintro rfl g7
  have r7 := hc.read (by omega) g7
  refine ⟨fun hb => hc.exec_fail hn' (parse_second_wrong hn r0 rE r7 hb), ?_⟩
  rintro rfl g9 hl
  exact hc.exec_fail hn' (parse_length_wrong hn r0 rE r7 (hc.read (by omega) g9) hl)

/-! ### The fault names the first absent byte -/

/-- ADDR_ENCODE faults on the first absent character (41_codec.md R97). -/
theorem exec_addrEncode_absent {s : State} {i : Nat} (hn : s.addrstrLen.toNat ≤ 12) (hi : i < s.addrstrLen.toNat)
    (hp : ∀ j < i, s.present .addrstr j) (ha : ¬ s.present .addrstr i) :
    exec .addrEncode s = .fault (.absentByte (0x700 + i)) := by
  have hr := bufPrefix_absent (show s.addrstrLen.toNat ≤ Buf.addrstr.size by simp only [Buf.size]; omega) hi hp ha
  rw [exec, execAddrEncode, if_neg (by omega), hr]
  rfl

/-- BUILD faults on the first absent payload byte (41_codec.md R98). -/
theorem exec_build_absent {s : State} {i : Nat} (hl : s.buildLen ≤ 255) (hi : i < s.plen.toNat)
    (hp : ∀ j < i, s.present .payload j) (ha : ¬ s.present .payload i) :
    exec .build s = .fault (.absentByte (0x100 + i)) := by
  have hr := bufPrefix_absent (Nat.le_of_lt s.plen.isLt : s.plen.toNat ≤ Buf.payload.size) hi hp ha
  rw [exec, execBuild, if_neg (by omega), hr]
  rfl

/-- A quiet cycle of FRAME_TX faults on the absent byte due on the line (42_transceiver.md R112, log 8). -/
theorem step_of_frameTx_absent {s : State} (hx : s.xstate = .frameTx) (hq : hostQuiet s.choice) (hi : s.txidx.toNat < 512)
    (ha : ¬ s.present .txbuf s.txidx.toNat) : step s = .fault (.absentByte (0x200 + s.txidx.toNat)) := by
  have hb : s.bufByte .txbuf s.txidx.toNat = .error (.absentByte (0x200 + s.txidx.toNat)) := bufByte_absent hi ha
  rw [step_of_hostQuiet hq, hx, commitPhase_not_codec (by simp [hx]), thenDo_next]
  simp only [State.linePhases, State.fsmPhase]
  rw [rxPhase_not_receiving rfl]
  show readThen (s.bufByte .txbuf s.txidx.toNat) _ = _
  rw [hb, readThen_error]

/-- A cycle with a host read of a buffer faults on its first absent byte (20_memory.md R50). -/
theorem step_of_read_absent {s : State} {off : BitVec 11} {size : Size} {b : Buf} {i : Nat} (hr : s.choice.rstN = true)
    (hacc : s.choice.access = some (.read off size)) (ht : target off size = some (.buf b off.toNat)) (hi : i < sizeBytes size)
    (hp : ∀ j < i, (s.mem.get (off.toNat + j)).isSome = true) (ha : s.mem.get (off.toNat + i) = none) :
    step s = .fault (.absentByte (off.toNat + i)) := by
  have hread : s.advance.hostRead off size = .fault (.absentByte (off.toNat + i)) := hostRead_absent ht hi hp ha
  rw [step_of_rstN_high hr, hacc, State.hostPhase, hread, thenDo_fault]

/-- Settles O17: a clause for each reader of buffer bytes; that of PARSE follows its checks in their order. -/
theorem absentBytesFault : Obligations.AbsentBytesFault := by
  intro s
  refine ⟨fun i hn hi hp ha => exec_addrEncode_absent hn hi hp ha, fun i hl hi hp ha => exec_build_absent hl hi hp ha, ?_,
    step_of_frameTx_absent, fun off size b i hr hacc ht hi hp ha => step_of_read_absent hr hacc ht hi hp ha⟩
  intro c b n (hc : s.parses c b n) hn hn'
  refine ⟨fun ha => hc.exec_fault hn' (parse_start_absent hn (hc.read_absent (by omega) ha)), fun g0 => ?_⟩
  have r0 : s.bufByte b 0 = .ok 0x68#8 := hc.read (by omega) g0
  refine ⟨fun ha => hc.exec_fault hn' (parse_end_absent hn r0 (hc.read_absent (by omega) ha)), fun gE => ?_⟩
  have rE := hc.read (by omega) gE
  refine ⟨fun ha => hc.exec_fault hn' (parse_second_absent hn r0 rE (hc.read_absent (by omega) ha)), fun g7 => ?_⟩
  have r7 := hc.read (by omega) g7
  refine ⟨fun ha => hc.exec_fault hn' (parse_length_absent hn r0 rE r7 (hc.read_absent (by omega) ha)), ?_⟩
  intro l i g9 hl hi hp ha
  have present : ∀ j < i, ∃ v, s.bufByte b j = .ok v := fun j hj =>
    bufByte_present (hc.size ▸ (by omega : j < 512)) (hp j hj)
  exact hc.exec_fault hn' (parse_body_absent hn r0 rE r7 (hc.read (by omega) g9) hl hi present (hc.read_absent (by omega) ha))

/-- Settles O20: a command answers or faults, and its fault names a byte that holds no value. -/
theorem commandsStopOnlyOnAbsentBytes : Obligations.CommandsStopOnlyOnAbsentBytes := by
  intro i s
  rcases exec_stops i s with ht | ⟨a, ha⟩
  · exact .inl ht
  · obtain ⟨a', he, hm, -⟩ := exec_fault_in ha
    cases he
    exact .inr ⟨a, ha, hm⟩

/-! ### What can stop a cycle -/

/-- A cycle answers, or stops on an ill-formed access of the host or on an absent byte. -/
theorem step_stops (s : State) :
    (∃ t, step s = .next t) ∨
    (∃ off size, step s = .fault (.busError off) ∧ target off size = none ∧
      (s.choice.access = some (.read off size) ∨ ∃ w, s.choice.access = some (.write off size w))) ∨
    ∃ a, step s = .fault (.absentByte a) := by
  have rest : ∀ t : State, (∃ v, (thenDo t.commitPhase fun u => u.linePhases s.xstate s.choice.rx) = .next v) ∨
      ∃ a, (thenDo t.commitPhase fun u => u.linePhases s.xstate s.choice.rx) = .fault (.absentByte a) := by
    intro t
    rcases commitPhase_stops t with ⟨u, hu⟩ | ⟨a, ha⟩
    · rw [hu]; exact linePhases_stops ..
    · rw [ha]; exact .inr ⟨a, rfl⟩
  cases hr : s.choice.rstN with
  | false => exact .inl ⟨_, step_of_rstN_low hr⟩
  | true =>
    rw [step_of_rstN_high hr]
    rcases hostPhase_cases s.advance s.choice.access s.choice.latDraw with
      ⟨t, ht, -⟩ | ⟨-, w, -, ht⟩ | ⟨off, size, ht, hbad, hacc⟩ | ⟨a, ht⟩ <;> rw [ht]
    · exact (rest t).imp_right .inr
    · rcases accept_stops (s.advance.answer none) w s.choice.latDraw with ⟨t, ha⟩ | ⟨a, ha⟩ <;> rw [ha]
      · exact (rest t).imp_right .inr
      · exact .inr (.inr ⟨a, rfl⟩)
    · exact .inr (.inl ⟨off, size, rfl, hbad, hacc⟩)
    · exact .inr (.inr ⟨a, rfl⟩)

/-- A command that commits in this cycle finds the operands of the start of the cycle. -/
theorem hostPhase_pending_operands {s t : State} {access : Option Access} {lat : Nat}
    (h : s.hostPhase access lat = .next t) (hx : t.xstate = .codec) :
    t.mem = s.mem ∧ t.plen = s.plen ∧ t.frameLen = s.frameLen ∧ t.rxLen = s.rxLen ∧ t.addrstrLen = s.addrstrLen := by
  rcases hostPhase_cases s access lat with ⟨u, hu, he⟩ | ⟨-, w, -, hu⟩ | ⟨_, _, hu, -⟩ | ⟨_, hu⟩ <;> rw [hu] at h
  · cases h
    have busy : s.xstate ≠ .idle := by
      rw [he.frame] at hx
      simp [show s.xstate = .codec from hx]
    rw [he.busy busy]
    exact ⟨rfl, rfl, rfl, rfl, rfl⟩
  · rcases accept_cases (s.answer none) w lat with ⟨-, ha⟩ | ⟨-, ha⟩ <;> rw [ha] at h
    · cases h; exact ⟨rfl, rfl, rfl, rfl, rfl⟩
    · rcases exec_cases (decodeWord w) (s.answer none).acceptClear with ⟨e, u, he, -⟩ | ⟨-, he, -⟩ | ⟨a, he⟩ <;> rw [he] at h
      · cases h; cases hx
      · cases h; cases hx
      · cases h
  · cases h
  · cases h

/-- The state machine faults in FRAME_TX only, on the byte due on the line: ACCUM parses bytes that its attempt received. -/
theorem fsmPhase_fault {s : State} {x0 : XState} {arr tick : Bool} {f : Fault} (h : s.Inv) (hx : s.xstate = x0)
    (hs : s.fsmPhase x0 arr tick = .fault f) : x0 = .frameTx ∧ s.bufByte .txbuf s.txidx.toNat = .error f := by
  cases x0 with
  | frameTx =>
    simp only [State.fsmPhase] at hs
    cases hb : s.bufByte .txbuf s.txidx.toNat with
    | ok v => rw [hb] at hs; cases hs
    | error g => rw [hb] at hs; cases hs; exact ⟨rfl, rfl⟩
  | accum =>
    obtain ⟨hlen, hpres⟩ := h.received (by rw [hx]; rfl)
    simp only [State.fsmPhase] at hs
    rcases accumStep_cases s arr tick with ⟨-, -, done⟩ | ⟨-, -, he⟩ | ⟨-, he⟩
    · rcases done with ⟨_, _, _, _, _, -, -, he⟩ | ⟨_, -, -, he⟩ | ⟨i, a, hi, hb, -⟩
      · rw [he] at hs; cases hs
      · rw [he] at hs; cases hs
      · have hi : i < s.rxLen.toNat := hi
        obtain ⟨v, hv⟩ := bufByte_present (show i < Buf.rxbuf.size by simp only [Buf.size]; omega) (hpres i hi)
        cases hv.symm.trans hb
    · rw [he] at hs; cases hs
    · rw [he] at hs; cases hs
  | _ => cases hs

theorem linePhases_fault {s : State} {rx : Option RxChar} {f : Fault} (h : s.Inv) (hs : s.linePhases s.xstate rx = .fault f) :
    s.xstate = .frameTx ∧ s.bufByte .txbuf s.txidx.toNat = .error f := by
  obtain ⟨hx, hb⟩ := fsmPhase_fault (inv_tick (inv_rx h rx)) (rxPhase_xstate s s.xstate rx) hs
  rw [rxPhase_not_receiving (by rw [hx]; rfl)] at hb
  exact ⟨hx, hb⟩

theorem thenDo_eq_fault {r : Result} {k : State → Result} {f : Fault} (h : thenDo r k = .fault f) :
    r = .fault f ∨ ∃ s, r = .next s ∧ k s = .fault f := by
  cases r with
  | next s => exact .inr ⟨s, rfl, h⟩
  | fault g => exact .inl h
  | refused g => cases h

/-- A commit faults only by the command that commits. -/
theorem commitPhase_fault {s : State} {f : Fault} (h : s.commitPhase = .fault f) :
    s.xstate = .codec ∧ exec (decodeWord s.pendWord) s = .fault f := by
  unfold State.commitPhase at h
  split at h
  · split at h
    · exact ⟨‹_›, h⟩
    · cases h
  · cases h

/-- Where a fault of a cycle comes from: the host's access, the command that commits, or the transmitter. -/
theorem step_fault_cases {s : State} {f : Fault} (h : s.Inv) (hs : step s = .fault f) :
    s.choice.rstN = true ∧
    (s.advance.hostPhase s.choice.access s.choice.latDraw = .fault f ∨
    (∃ u, s.advance.hostPhase s.choice.access s.choice.latDraw = .next u ∧ u.xstate = .codec ∧
      exec (decodeWord u.pendWord) u = .fault f) ∨
    (s.xstate = .frameTx ∧ s.bufByte .txbuf s.txidx.toNat = .error f)) := by
  cases hr : s.choice.rstN with
  | false => rw [step_of_rstN_low hr] at hs; cases hs
  | true =>
  refine ⟨rfl, ?_⟩
  cases hex : s.xstate.inExchange with
  | false =>
    rw [step_outside_exchange hex hr] at hs
    rcases thenDo_eq_fault hs with hhost | ⟨u, hu, hs⟩
    · exact .inl hhost
    · rcases thenDo_eq_fault hs with hcommit | ⟨v, -, hs⟩
      · exact .inr (.inl ⟨u, hu, commitPhase_fault hcommit⟩)
      · cases hs
  | true =>
    obtain ⟨hi, hc⟩ := (XState.inExchange_iff _).mp hex
    rw [step_of_rstN_high hr] at hs
    rcases thenDo_eq_fault hs with hhost | ⟨u, hu, hs⟩
    · exact .inl hhost
    · have hframe := (hostPhase_of_busy (s := s.advance) hi hu).busy hi
      have hux : u.xstate = s.xstate := by rw [hframe]; rfl
      rw [commitPhase_not_codec (by rw [hux]; exact hc), thenDo_next, ← hux] at hs
      obtain ⟨hx, hb⟩ := linePhases_fault (inv_hostPhase (inv_advance h) hu) hs
      rw [hframe] at hb
      exact .inr (.inr ⟨hux.symm.trans hx, hb⟩)

/-- The transmitter's index lies inside TXBUF (42_transceiver.md R108, R112). -/
theorem State.Inv.txidx_lt {s : State} (h : s.Inv) (hx : s.xstate = .frameTx) :
    s.txidx.toNat < s.frameLen.toNat ∧ s.frameLen.toNat ≤ 512 :=
  ⟨(h.inFrame hx).1, (h.exchange (by rw [hx]; rfl)).2.1⟩

/-- From a state of the invariant a byte that a fault of a cycle names lies in a buffer and holds no value. -/
theorem step_fault_in {s : State} {a : Nat} (h : s.Inv) (hs : step s = .fault (.absentByte a)) :
    AbsentIn s (.absentByte a) := by
  obtain ⟨-, hhost | ⟨u, hu, hc, he⟩ | ⟨hx, hb⟩⟩ := step_fault_cases h hs
  · exact (hostPhase_fault_in hhost).of_mem rfl
  · exact (exec_fault_in he).of_mem (hostPhase_pending_operands hu hc).1
  · obtain ⟨hlt, hle⟩ := h.txidx_lt hx
    exact bufByte_fault_in (show s.txidx.toNat < 512 by omega) hb

/-- Settles O58: each phase answers or stops on an absent byte, but for the host's ill-formed access. -/
theorem stepsStopOnlyForTheHostOrAbsentBytes : Obligations.StepsStopOnlyForTheHostOrAbsentBytes := by
  intro s
  refine ⟨fun r hr => ?_, fun off hoff => ?_, fun a h hs => ?_⟩
  · rcases step_stops s with ⟨t, ht⟩ | ⟨_, _, ht, -⟩ | ⟨_, ht⟩ <;> rw [ht] at hr <;> cases hr
  · rcases step_stops s with ⟨t, ht⟩ | ⟨o, size, ht, hbad, hacc⟩ | ⟨_, ht⟩ <;> rw [ht] at hoff <;> cases hoff
    exact ⟨size, hbad, hacc⟩
  · obtain ⟨_, he, hm, hb⟩ := step_fault_in h hs
    cases he
    exact ⟨hm, hb⟩

/-! ### Progress -/

/-- A PARSE of present bytes answers. -/
theorem parseBuf_answers {s : State} {b : Buf} {n : Nat} (hb : b.size = 512) (h : ∀ i < n, i < 512 → s.present b i) :
    ∃ t, s.parseBuf b n = .next t := by
  unfold State.parseBuf
  split
  · exact ⟨_, rfl⟩
  · rcases parse_cases (s.bufByte b) n with ⟨_, _, _, _, _, hp, -⟩ | ⟨_, hp, -⟩ | ⟨f, i, -, hi, hf⟩
    · rw [hp]; exact ⟨_, rfl⟩
    · rw [hp]; exact ⟨_, rfl⟩
    · obtain ⟨v, hv⟩ := bufByte_present (by omega) (h i hi (by omega))
      cases hv.symm.trans hf

/-- With its operands present every command answers. -/
theorem State.operandsPresent.exec_answers {s : State} (h : s.operandsPresent) (i : Instr) : ∃ t, exec i s = .next t := by
  cases i with
  | nop => exact ⟨_, rfl⟩
  | illegal w => exact ⟨_, rfl⟩
  | parseRx => exact parseBuf_answers rfl h.rxbuf
  | parseTx => exact parseBuf_answers rfl h.txbuf
  | exchange =>
    rcases exec_cases .exchange s with ⟨_, _, he, -⟩ | ⟨-, he, -⟩ | ⟨a, he⟩
    · exact ⟨_, he⟩
    · exact ⟨_, he⟩
    · simp only [exec, execExchange] at he
      split at he <;> (try split at he) <;> cases he
  | addrEncode =>
    simp only [exec, execAddrEncode]
    split
    · exact ⟨_, rfl⟩
    · have hn : s.addrstrLen.toNat ≤ Buf.addrstr.size := by simp only [Buf.size]; omega
      obtain ⟨cs, hr⟩ := State.bufPrefix_present hn fun i hi => h.addrstr i hi (by omega)
      rw [hr]
      exact ⟨_, rfl⟩
  | build =>
    simp only [exec, execBuild]
    split
    · exact ⟨_, rfl⟩
    · obtain ⟨p, hr⟩ := State.bufPrefix_present (Nat.le_of_lt s.plen.isLt : s.plen.toNat ≤ Buf.payload.size) h.payload
      rw [hr]
      exact ⟨_, rfl⟩

theorem State.operandsPresent.accept_answers {s : State} (h : s.operandsPresent) (w : Word) (lat : Nat) :
    ∃ t, s.accept w lat = .next t := by
  rcases accept_cases s w lat with ⟨-, he⟩ | ⟨-, he⟩ <;> rw [he]
  · exact ⟨_, rfl⟩
  · have present : s.acceptClear.operandsPresent := ⟨h.payload, h.txbuf, h.rxbuf, h.addrstr⟩
    exact present.exec_answers _

/-- A write to a target is answered: only a command it issues could stop. -/
theorem State.operandsPresent.hostWrite_answers {s : State} (h : s.operandsPresent) {off : BitVec 11} {size : Size}
    (ht : (target off size).isSome = true) (w : Word) (lat : Nat) : ∃ t, s.hostWrite off size w lat = .next t := by
  simp only [State.hostWrite]
  split
  · rename_i hnone
    simp [hnone] at ht
  · simp only [State.writeCmd]
    split
    · exact ⟨_, rfl⟩
    · exact h.accept_answers w lat
  · exact ⟨_, rfl⟩
  · exact ⟨_, rfl⟩

/-- A read whose bytes are present is answered. -/
theorem hostRead_answers {s : State} {off : BitVec 11} {size : Size} (h : s.accessOk (some (.read off size))) :
    ∃ t, s.hostRead off size = .next t := by
  cases ht : target off size with
  | none => simp [State.accessOk, ht] at h
  | some tg =>
    cases tg with
    | reg r => exact ⟨_, hostRead_of_target_reg s ht⟩
    | buf b a =>
      simp only [State.accessOk, ht] at h
      obtain ⟨bs, hr⟩ := readRange_present h
      exact ⟨s.answer (some (laneWord bs)), by simp [State.hostRead, ht, hr]⟩

/-- With the operands present, a host access that is no bus error and reads no absent byte is answered. -/
theorem State.operandsPresent.hostPhase_answers {s : State} (h : s.operandsPresent) {access : Option Access} (lat : Nat)
    (ha : s.accessOk access) : ∃ t, s.hostPhase access lat = .next t := by
  rcases access with _ | ⟨off, size⟩ | ⟨off, size, w⟩
  · exact ⟨_, rfl⟩
  · exact hostRead_answers ha
  · have present : (s.answer none).operandsPresent := ⟨h.payload, h.txbuf, h.rxbuf, h.addrstr⟩
    exact present.hostWrite_answers ha w lat

/-- Settles O57: with the operands present none of the sources of a fault is left. -/
theorem wellUsedMachineNeverStops : Obligations.WellUsedMachineNeverStops := by
  intro s h ho ha
  cases hs : step s with
  | next t => exact ⟨t, rfl⟩
  | refused r => exact absurd hs ((stepsStopOnlyForTheHostOrAbsentBytes s).1 r)
  | fault f =>
    exfalso
    have present : s.advance.operandsPresent := ⟨ho.payload, ho.txbuf, ho.rxbuf, ho.addrstr⟩
    obtain ⟨hr, hhost | ⟨u, hu, hc, he⟩ | ⟨hx, hb⟩⟩ := step_fault_cases h hs
    · obtain ⟨t, ht⟩ := present.hostPhase_answers s.choice.latDraw (ha hr)
      cases ht.symm.trans hhost
    · obtain ⟨hm, hp, hf, hl, hn⟩ := hostPhase_pending_operands hu hc
      have operands : u.operandsPresent := by
        constructor <;> simp only [State.present, hm, hp, hf, hl, hn]
        exacts [ho.payload, ho.txbuf, ho.rxbuf, ho.addrstr]
      obtain ⟨t, ht⟩ := operands.exec_answers (decodeWord u.pendWord)
      cases ht.symm.trans he
    · obtain ⟨hlt, hle⟩ := h.txidx_lt hx
      have hi : s.txidx.toNat < 512 := by omega
      obtain ⟨v, hv⟩ := bufByte_present (show s.txidx.toNat < Buf.txbuf.size from hi) (ho.txbuf _ hlt hi)
      cases hv.symm.trans hb

end Sys2Proof.Machine
end

section
/-! PROOF. The registers and ports of 10_state.md as the host sees them: STATUS, the fields of the writable registers, the
line. -/

namespace Sys2Proof.Machine

/-! ### STATUS and the ports -/

/-- A concatenation as a number: the high part counts in units of the low part's width. -/
theorem toNat_append_eq_add {m n : Nat} (x : BitVec m) (y : BitVec n) : (x ++ y).toNat = x.toNat * 2 ^ n + y.toNat := by
  rw [BitVec.toNat_append, ← Nat.shiftLeft_add_eq_or_of_lt y.isLt, Nat.shiftLeft_eq]

/-- BUSY is 0 exactly in IDLE (10_state.md R44). -/
theorem State.busy_toNat (s : State) : s.busy.toNat = if s.xstate = .idle then 0 else 1 := by
  by_cases hx : s.xstate = .idle <;> simp [State.busy, hx]

/-- Settles O35: STATUS is a concatenation of its fields, each of which stands at the sum of the widths below it. -/
theorem statusReadsItsFields : Obligations.StatusReadsItsFields := by
  refine ⟨fun s => ?_, rfl, rfl⟩
  simp only [State.statusWord, toNat_append_eq_add, BitVec.toNat_ofBool, BitVec.toNat_ofNat, State.busy_toNat]
  omega

theorem XState.transmitting_iff (x : XState) : x.transmitting = true ↔ x = .wakeTx ∨ x = .frameTx := by
  cases x <;> decide

/-- Settles O42: DE is on and the line carries a character exactly where the transmitter runs. -/
theorem portsIdleOutsideTransmission : Obligations.PortsIdleOutsideTransmission := by
  intro s
  refine ⟨fun hw hf => ?_, fun h => (XState.transmitting_iff _).mpr h, by simp [State.irq]⟩
  have off : s.xstate.transmitting = false := by simp [Bool.eq_false_iff, XState.transmitting_iff, hw, hf]
  simp [State.uartTxd, State.uartDe, off]

/-- Settles O36: STATUS takes writes BUSY or not, and its write is the clear of the W1C bits. -/
theorem statusWriteClearsItsOnes : Obligations.StatusWriteClearsItsOnes := by
  intro s w lat
  have taken : s.hostWrite 0x00C#11 .four w lat = .next (s.writeStatus w) := by
    show Host.Outcome.next (s.hostWriteReg w .status) = _
    simp [State.hostWriteReg, State.writeReg]
  rw [taken, State.writeStatus]
  cases w.getLsbD 1 <;> simp [State.acknowledge]

/-! ### The command the host fetches -/

/-- Encoding the command a word decodes to gives the word back (30_encoding.md R70, R71). -/
theorem encode_decodeWord (w : Word) : encode (decodeWord w) = w := by
  cases hw : illegalWord w with
  | true => rw [decodeWord_of_illegal hw]; rfl
  | false => rcases legalWord_cases hw with rfl | rfl | rfl | rfl | rfl | rfl <;> rfl

/-- A table word that decodes is laid out in byte lanes and read back whole (20_memory.md R50). -/
theorem decodeTableWord_eq_some {nbits w : Nat} {i : Instr} (h : decodeTableWord nbits w = some i) :
    i = decodeWord (tableWord nbits w) := by
  unfold decodeTableWord at h
  split at h
  · cases h
  · simpa [bytesLe, decodeBytes, eq_comm] using h

/-- Settles O24: `withFetchWord` puts the table word, which is the command's own, into the coming cycle. -/
theorem fetchWordIsTheNextCommandWrite : Obligations.FetchWordIsTheNextCommandWrite := by
  intro s nbits w i h
  obtain rfl := decodeTableWord_eq_some h
  rw [encode_decodeWord]
  exact ⟨rfl, ⟨rfl, rfl⟩, rfl⟩

/-! ### The fields of the writable registers -/

/-- A field of the low `k` bits reads back masked. -/
theorem setWidth_low_field (w : Word) {k : Nat} (hk : k ≤ 32) :
    (w.extractLsb' 0 k).setWidth 32 = w &&& BitVec.ofNat 32 (2 ^ k - 1) := by
  apply BitVec.eq_of_toNat_eq
  have hp : 2 ^ k ≤ 2 ^ 32 := Nat.pow_le_pow_right (by decide) hk
  have hm : (2 ^ k - 1) % 2 ^ 32 = 2 ^ k - 1 := Nat.mod_eq_of_lt (by omega)
  have hl : w.toNat % 2 ^ k < 2 ^ 32 := Nat.lt_of_lt_of_le (Nat.mod_lt _ (Nat.two_pow_pos k)) hp
  rw [BitVec.toNat_and, BitVec.toNat_ofNat, hm, Nat.and_two_pow_sub_one_eq_mod, BitVec.toNat_setWidth, BitVec.extractLsb'_toNat,
    Nat.shiftRight_zero, Nat.mod_eq_of_lt hl]

/-- A field of bit 0 as a field of one bit. -/
theorem ofBool_getLsbD_zero (w : Word) : BitVec.ofBool (w.getLsbD 0) = w.extractLsb' 0 1 :=
  BitVec.eq_of_getLsbD_eq (by simp)

/-- RETRY reads back its two fields (10_state.md R35). -/
theorem retry_fields (w : Word) : w.extractLsb' 16 16 ++ 0#12 ++ w.extractLsb' 0 4 = w &&& 0xFFFF000F#32 := by
  have lanes : w.extractLsb' 16 16 ++ w.extractLsb' 4 12 ++ w.extractLsb' 0 4 = w := by
    apply BitVec.eq_of_toNat_eq
    have hw := w.isLt
    simp only [toNat_append_eq_add, BitVec.extractLsb'_toNat, Nat.shiftRight_eq_div_pow]
    omega
  have masked : (w.extractLsb' 16 16 ++ w.extractLsb' 4 12 ++ w.extractLsb' 0 4) &&&
      (BitVec.allOnes 16 ++ 0#12 ++ BitVec.allOnes 4) = w.extractLsb' 16 16 ++ 0#12 ++ w.extractLsb' 0 4 := by
    rw [BitVec.and_append, BitVec.and_append, BitVec.and_allOnes, BitVec.and_allOnes, BitVec.and_zero]
  rw [← masked, lanes]
  rfl

/-- BUILD_CFG reads back its two fields (10_state.md R27). -/
theorem buildCfg_fields (w : Word) :
    0#16 ++ w.extractLsb' 8 8 ++ 0#7 ++ BitVec.ofBool (w.getLsbD 0) = w &&& 0x0000FF01#32 := by
  have lanes : w.extractLsb' 16 16 ++ w.extractLsb' 8 8 ++ w.extractLsb' 1 7 ++ w.extractLsb' 0 1 = w := by
    apply BitVec.eq_of_toNat_eq
    have hw := w.isLt
    simp only [toNat_append_eq_add, BitVec.extractLsb'_toNat, Nat.shiftRight_eq_div_pow]
    omega
  have masked : (w.extractLsb' 16 16 ++ w.extractLsb' 8 8 ++ w.extractLsb' 1 7 ++ w.extractLsb' 0 1) &&&
      (0#16 ++ BitVec.allOnes 8 ++ 0#7 ++ BitVec.allOnes 1) = 0#16 ++ w.extractLsb' 8 8 ++ 0#7 ++ w.extractLsb' 0 1 := by
    rw [BitVec.and_append, BitVec.and_append, BitVec.and_append, BitVec.and_allOnes, BitVec.and_allOnes, BitVec.and_zero,
      BitVec.and_zero]
  rw [ofBool_getLsbD_zero, ← masked, lanes]
  rfl

/-- The registers that read back what is written, with the bits of their fields (10_state.md R21, R24 to R29, R32 to R37). -/
theorem writable_register {off : BitVec 11} {m : Word}
    (h : (off, m) ∈ [(0x004#11, 0x00000001#32), (0x010#11, 0xFFFFFFFF#32), (0x014#11, 0x0000FFFF#32), (0x018#11, 0x000000FF#32),
      (0x01C#11, 0xFFFFFFFF#32), (0x020#11, 0x0000FF01#32), (0x024#11, 0x000003FF#32), (0x028#11, 0x000003FF#32),
      (0x034#11, 0x0000000F#32), (0x038#11, 0xFFFFFFFF#32), (0x03C#11, 0xFFFFFFFF#32), (0x040#11, 0xFFFF000F#32),
      (0x044#11, 0x0000FFFF#32), (0x048#11, 0xFFFFFFFF#32)]) :
    ∃ r, target off .four = some (.reg r) ∧ r ≠ .status ∧ r ≠ .cmd ∧ (r = .tickDiv ↔ off = 0x048#11) ∧
      ∀ (s : State) (w : Word), (s.writeReg w r).readReg r = w &&& m := by
  have whole : ∀ w : Word, w = w &&& 0xFFFFFFFF#32 := fun w => BitVec.and_allOnes.symm
  have halves : ∀ w : Word, w.extractLsb' 16 16 ++ w.extractLsb' 0 16 = w &&& 0xFFFFFFFF#32 :=
    fun w => BitVec.extractLsb'_append_extractLsb'.trans (whole w)
  simp only [List.mem_cons, Prod.mk.injEq, List.not_mem_nil, or_false] at h
  rcases h with ⟨rfl, rfl⟩ | ⟨rfl, rfl⟩ | ⟨rfl, rfl⟩ | ⟨rfl, rfl⟩ | ⟨rfl, rfl⟩ | ⟨rfl, rfl⟩ | ⟨rfl, rfl⟩ | ⟨rfl, rfl⟩ |
    ⟨rfl, rfl⟩ | ⟨rfl, rfl⟩ | ⟨rfl, rfl⟩ | ⟨rfl, rfl⟩ | ⟨rfl, rfl⟩ | ⟨rfl, rfl⟩ <;>
    refine ⟨_, rfl, by decide, by decide, by decide, fun s w => ?_⟩
  · exact (congrArg (BitVec.setWidth 32) (ofBool_getLsbD_zero w)).trans (setWidth_low_field w (k := 1) (by decide))
  · exact whole w
  · exact setWidth_low_field w (k := 16) (by decide)
  · exact setWidth_low_field w (k := 8) (by decide)
  · exact whole w
  · exact buildCfg_fields w
  · exact setWidth_low_field w (k := 10) (by decide)
  · exact setWidth_low_field w (k := 10) (by decide)
  · exact setWidth_low_field w (k := 4) (by decide)
  · exact halves w
  · exact halves w
  · exact retry_fields w
  · exact setWidth_low_field w (k := 16) (by decide)
  · exact whole w

/-! ### Host writes while nothing is in progress -/

/-- A host write to a register other than CMD. -/
theorem hostPhase_write_reg {off : BitVec 11} {size : Size} {r : Reg} (s : State) (w : Word) (lat : Nat)
    (ht : target off size = some (.reg r)) (hr : r ≠ .cmd) :
    s.hostPhase (some (.write off size w)) lat = .next ((s.answer none).hostWriteReg w r) := by
  simp only [State.hostPhase, State.hostWrite, ht]

/-- A host write to a buffer. -/
theorem hostPhase_write_buf {off : BitVec 11} {size : Size} {b : Buf} {a : Nat} (s : State) (w : Word) (lat : Nat)
    (ht : target off size = some (.buf b a)) :
    s.hostPhase (some (.write off size w)) lat = .next ((s.answer none).hostWriteBuf b a size w) := by
  simp only [State.hostPhase, State.hostWrite, ht]

theorem hostWriteReg_of_idle {s : State} (hx : s.xstate = .idle) (w : Word) (r : Reg) :
    s.hostWriteReg w r = s.writeReg w r := by
  simp [State.hostWriteReg, State.busy, hx]

theorem hostWriteBuf_of_idle {s : State} (hx : s.xstate = .idle) {b : Buf} (hb : b ≠ .rxdata) (a : Nat) (size : Size)
    (w : Word) :
    s.hostWriteBuf b a size w = { s with mem := s.mem.setBytes a ((bytesLe w).take (sizeBytes size)) } := by
  simp [State.hostWriteBuf, State.busy, hx, hb]

/-- In IDLE a cycle whose host access starts no command is that access and the tick. -/
theorem step_of_idle_access {s u : State} (hx : s.xstate = .idle) (hr : s.choice.rstN = true)
    (hu : s.advance.hostPhase s.choice.access s.choice.latDraw = .next u) (hux : u.xstate = .idle) :
    step s = .next u.tickPhase := by
  rw [step_of_idle hx hr, hu, thenDo_next, commitPhase_not_codec (by simp [hux]), thenDo_next]

/-- The byte lanes a write of each size stores (20_memory.md R50). -/
theorem bytesLe_take_getElem (w : Word) {size : Size} {i : Nat} (hi : i < sizeBytes size) :
    ∃ h, ((bytesLe w).take (sizeBytes size))[i]'h = w.extractLsb' (8 * i) 8 := by
  have h4 : i < 4 := by cases size <;> simp only [sizeBytes] at hi <;> omega
  refine ⟨by simp only [List.length_take, bytesLe_length]; omega, ?_⟩
  rw [List.getElem_take]
  interval_cases i <;> rfl

/-- Settles O31: the write is the lanes set at its offset, and the rest of the cycle is the tick. -/
theorem bufferWritesStoreTheirLanes : Obligations.BufferWritesStoreTheirLanes := by
  intro s off size w b hx hr hacc ht hb
  have hu := hostPhase_write_buf s.advance w s.choice.latDraw ht
  rw [hostWriteBuf_of_idle (by exact hx) hb, ← hacc] at hu
  have hlen : ((bytesLe w).take (sizeBytes size)).length = sizeBytes size := by cases size <;> rfl
  refine ⟨_, step_of_idle_access hx hr hu hx, by rw [tickPhase_eq]; rfl, fun i hi => ?_, fun a ha => ?_⟩
  · obtain ⟨hlt, hv⟩ := bytesLe_take_getElem w hi
    exact (Memory.get_setBytes_in _ _ _ hlt).trans (congrArg some hv)
  · exact Memory.get_setBytes_out _ _ _ (by rw [hlen]; exact ha)

/-- Of the registers whose fields a write reaches only TICK_DIV moves the prescaler, which it restarts (10_state.md R37). -/
theorem writeReg_prescaler (s : State) (w : Word) {r : Reg} (hr : r ≠ .status) :
    (s.writeReg w r).tickDiv = (if r = .tickDiv then w else s.tickDiv) ∧
      (s.writeReg w r).presc = if r = .tickDiv then 0#32 else s.presc := by
  rw [writeReg_frame s w hr]
  exact ⟨rfl, rfl⟩

/-- The prescaler of a cycle that writes a register counts from the written value of PRESC (10_state.md R37). -/
theorem writeReg_tickPhase_presc (s : State) (w : Word) {r : Reg} (hr : r ≠ .status) :
    (s.writeReg w r).tickPhase.presc =
      if r = .tickDiv then (if w = 0#32 then 0#32 else 1#32) else if s.presc = s.tickDiv then 0#32 else s.presc + 1#32 := by
  obtain ⟨hd, hp⟩ := writeReg_prescaler s w hr
  rw [tickPhase_eq, hd, hp]
  by_cases h : r = .tickDiv
  · simp only [if_pos h, eq_comm (a := 0#32)]
    split <;> rfl
  · simp only [if_neg h]

/-- Settles O32: the cycle is the write of the register's fields and the tick. -/
theorem registersReadBackTheirFields : Obligations.RegistersReadBackTheirFields := by
  intro s w off m hm hx hr hacc
  obtain ⟨r, ht, hstatus, hcmd, htick, hread⟩ := writable_register hm
  have hu := hostPhase_write_reg s.advance w s.choice.latDraw ht hcmd
  rw [hostWriteReg_of_idle (by exact hx), ← hacc] at hu
  have hframe := writeReg_frame (s.advance.answer none) w hstatus
  have hpresc : ((s.advance.answer none).writeReg w r).tickPhase.presc =
      if off = 0x048#11 then (if w = 0#32 then 0#32 else 1#32) else if s.presc = s.tickDiv then 0#32 else s.presc + 1#32 := by
    have h := writeReg_tickPhase_presc (s.advance.answer none) w hstatus
    simp only [htick] at h
    exact h
  refine ⟨_, step_of_idle_access hx hr hu (by rw [hframe]; exact hx), ?_, fun r' hr' => ?_, ?_⟩
  · rw [hostRead_of_target_reg _ ht, readReg_tickPhase, hread]
    rfl
  · have hne : r ≠ r' := fun h => hr' (h ▸ ht)
    rw [readReg_tickPhase, writeReg_readReg_ne hstatus hne, readReg_answer, readReg_advance]
  · rw [← hpresc, hframe]
    rfl

end Sys2Proof.Machine
end

section
/-! PROOF. What the host cannot disturb (10_state.md R48, R61), and what every cycle does to the prescaler, the sticky flags and
the received bytes (R23, R29, R37, R40). -/

namespace Sys2Proof.Machine

/-! ### Writes that amount to no access -/

/-- A cycle whose host access only turns `s` into `s'` is the cycle of `s'` without an access. -/
theorem step_eq_without_access {s s' : State} (hr : s.choice.rstN = true) (hc : s'.choice = s.choice)
    (hx : s'.xstate = s.xstate)
    (hh : s.advance.hostPhase s.choice.access s.choice.latDraw = .next (s'.advance.answer none)) :
    step s = step (s'.withChosenAccess none) := by
  rw [step_of_rstN_high hr, hh, thenDo_next, step_withChosenAccess_none (by rw [hc]; exact hr), hc, hx]

theorem State.busy_iff (s : State) : s.busy = true ↔ s.xstate ≠ .idle := by simp [State.busy]

theorem Reg.readOnly_iff (r : Reg) : r.readOnly = true ↔ r = .id ∨ r = .parseRes ∨ r = .rxDi := by
  cases r <;> decide

/-- A read-only register ignores writes, BUSY or not (10_state.md R19, R48). -/
theorem hostWriteReg_readOnly (s : State) (w : Word) {r : Reg} (hr : r.readOnly = true) : s.hostWriteReg w r = s := by
  simp only [State.hostWriteReg, hr, if_true]
  split
  · rfl
  · rcases (Reg.readOnly_iff r).mp hr with rfl | rfl | rfl <;> rfl

/-- CTRL and STATUS take writes, BUSY or not (10_state.md R48). -/
theorem hostWriteReg_ctrl_status (s : State) (w : Word) {r : Reg} (hr : r = .ctrl ∨ r = .status) :
    s.hostWriteReg w r = s.writeReg w r := by
  rcases hr with rfl | rfl <;> simp [State.hostWriteReg]

/-- While BUSY any other register loses the write and sets WERR (10_state.md R48). -/
theorem hostWriteReg_of_busy {s : State} (hx : s.xstate ≠ .idle) (w : Word) {r : Reg} (hc : r ≠ .ctrl) (hs : r ≠ .status)
    (hr : r.readOnly = false) : s.hostWriteReg w r = { s with werr := true } := by
  simp [State.hostWriteReg, s.busy_iff.mpr hx, hc, hs, hr]

/-- While BUSY a buffer loses the write and sets WERR (10_state.md R48, log 9). -/
theorem hostWriteBuf_of_busy {s : State} (hx : s.xstate ≠ .idle) (b : Buf) (a : Nat) (size : Size) (w : Word) :
    s.hostWriteBuf b a size w = { s with werr := true } := by
  rw [State.hostWriteBuf, if_pos (s.busy_iff.mpr hx)]

/-- RXDATA ignores writes while nothing is in progress (20_memory.md R56). -/
theorem hostWriteBuf_rxdata {s : State} (hx : s.xstate = .idle) (a : Nat) (size : Size) (w : Word) :
    s.hostWriteBuf .rxdata a size w = s := by
  simp [State.hostWriteBuf, State.busy, hx]

/-- A write to a read-only register does nothing to the cycle (20_memory.md R56). -/
theorem step_of_readOnly_write {s : State} {off : BitVec 11} {size : Size} {w : Word} {r : Reg} (hr : s.choice.rstN = true)
    (hacc : s.choice.access = some (.write off size w)) (ht : target off size = some (.reg r)) (hro : r.readOnly = true) :
    step s = step (s.withChosenAccess none) := by
  refine step_eq_without_access hr rfl rfl ?_
  rw [hacc, hostPhase_write_reg _ _ _ ht (by rintro rfl; cases hro), hostWriteReg_readOnly _ _ hro]

/-- Settles O27: the access sets REJ, and the phases after it do not see it. -/
theorem commandWhileBusyOnlySetsRej : Obligations.CommandWhileBusyOnlySetsRej := by
  intro s w hx hw
  refine step_eq_without_access (s' := { s with rej := true }) hw.1 rfl rfl ?_
  rw [hw.2]
  show (s.advance.answer none).writeCmd w _ = _
  rw [State.writeCmd, if_pos ((State.busy_iff _).mpr (by exact hx))]
  rfl

/-- Settles O33: the access changes nothing. -/
theorem readOnlyWritesAreIgnored : Obligations.ReadOnlyWritesAreIgnored := by
  intro s off size w hx hr hacc ht
  rcases ht with ht | ht | ht | ht
  · exact step_of_readOnly_write hr hacc ht rfl
  · exact step_of_readOnly_write hr hacc ht rfl
  · exact step_of_readOnly_write hr hacc ht rfl
  · refine step_eq_without_access hr rfl rfl ?_
    rw [hacc, hostPhase_write_buf _ _ _ ht, hostWriteBuf_rxdata (by exact hx)]

/-- The write of STATUS and the bookkeeping of the cycle do not touch the same fields. -/
theorem writeStatus_advance_answer (s : State) (w : Word) :
    (s.advance.answer none).writeStatus w = (s.writeStatus w).advance.answer none := by
  simp only [State.writeStatus]
  split <;> rfl

theorem writeStatus_choice (s : State) (w : Word) :
    (s.writeStatus w).choice = s.choice ∧ (s.writeStatus w).xstate = s.xstate := by
  simp only [State.writeStatus]
  split <;> exact ⟨rfl, rfl⟩

/-- Settles O34: the access changes `s` as each clause says, and the phases after it are those of a cycle without it. -/
theorem writesWhileBusyAreLost : Obligations.WritesWhileBusyAreLost := by
  intro s off size w hx hr hacc
  have busy : (s.advance.answer none).xstate ≠ .idle := hx
  refine ⟨fun ht => ?_, fun ht => ?_, fun ht => ?_, fun r ht hnot => ?_, fun b a ht => ?_⟩
  · refine step_eq_without_access (s' := { s with ctrlIe := w.getLsbD 0 }) hr rfl rfl ?_
    rw [hacc, hostPhase_write_reg _ _ _ ht (by decide), hostWriteReg_ctrl_status _ _ (.inl rfl)]
    rfl
  · obtain ⟨hc, hx'⟩ := writeStatus_choice s w
    refine step_eq_without_access hr hc hx' ?_
    rw [hacc, hostPhase_write_reg _ _ _ ht (by decide), hostWriteReg_ctrl_status _ _ (.inr rfl), ← writeStatus_advance_answer]
    rfl
  · rcases ht with ht | ht | ht <;> exact step_of_readOnly_write hr hacc ht rfl
  · simp only [List.mem_cons, List.not_mem_nil, or_false, not_or] at hnot
    obtain ⟨hctrl, hstatus, hcmd, hid, hparse, hdi⟩ := hnot
    have hro : r.readOnly = false := by simp [Bool.eq_false_iff, Reg.readOnly_iff, hid, hparse, hdi]
    refine step_eq_without_access (s' := { s with werr := true }) hr rfl rfl ?_
    rw [hacc, hostPhase_write_reg _ _ _ ht hcmd, hostWriteReg_of_busy busy w hctrl hstatus hro]
    rfl
  · refine step_eq_without_access (s' := { s with werr := true }) hr rfl rfl ?_
    rw [hacc, hostPhase_write_buf _ _ _ ht, hostWriteBuf_of_busy busy]
    rfl

/-! ### The prescaler -/

/-- The one access that addresses TICK_DIV. -/
theorem target_tickDiv {off : BitVec 11} {size : Size} (h : target off size = some (.reg .tickDiv)) :
    off = 0x048#11 ∧ size = .four := by
  obtain ⟨hsize, hlt, hal, hr⟩ := target_reg h
  have hn : off.toNat / 4 < 19 := by omega
  have hi : off.toNat / 4 = 18 := by
    generalize off.toNat / 4 = n at hr hn
    interval_cases n <;> first | rfl | cases hr
  refine ⟨BitVec.eq_of_toNat_eq ?_, hsize⟩
  rw [BitVec.toNat_ofNat]
  omega

/-- A read changes the bus answer only (20_memory.md R55). -/
theorem hostRead_eq_next {s t : State} {off : BitVec 11} {size : Size} (h : s.hostRead off size = .next t) :
    ∃ d, t = s.answer d := by
  unfold State.hostRead at h
  split at h
  · cases h
  · cases h; exact ⟨_, rfl⟩
  · cases hr : readRange s.mem.read ‹_› (sizeBytes size) with
    | ok bs => rw [hr] at h; cases h; exact ⟨_, rfl⟩
    | error f => rw [hr] at h; cases h

/-- Acceptance leaves the prescaler alone. -/
theorem accept_prescaler {s t : State} {w : Word} {lat : Nat} (h : s.accept w lat = .next t) :
    t.tickDiv = s.tickDiv ∧ t.presc = s.presc := by
  rcases accept_cases s w lat with ⟨-, he⟩ | ⟨-, he⟩ <;> rw [he] at h
  · cases h; exact ⟨rfl, rfl⟩
  · obtain ⟨-, -, hp, hd⟩ := exec_inputs h
    exact ⟨hd, hp⟩

/-- Of all registers only TICK_DIV moves the prescaler (10_state.md R37). -/
theorem hostWriteReg_prescaler (s : State) (w : Word) {r : Reg} (hr : r ≠ .tickDiv) :
    (s.hostWriteReg w r).tickDiv = s.tickDiv ∧ (s.hostWriteReg w r).presc = s.presc := by
  have hw : (s.writeReg w r).tickDiv = s.tickDiv ∧ (s.writeReg w r).presc = s.presc := by
    by_cases hs : r = .status
    · subst hs
      simp only [State.writeReg, State.writeStatus]
      split <;> exact ⟨rfl, rfl⟩
    · simpa only [if_neg hr] using writeReg_prescaler s w hs
  simp only [State.hostWriteReg]
  split
  · split <;> exact ⟨rfl, rfl⟩
  · exact hw

theorem hostWriteBuf_prescaler (s : State) (b : Buf) (a : Nat) (size : Size) (w : Word) :
    (s.hostWriteBuf b a size w).tickDiv = s.tickDiv ∧ (s.hostWriteBuf b a size w).presc = s.presc := by
  simp only [State.hostWriteBuf]
  split
  · exact ⟨rfl, rfl⟩
  · split <;> exact ⟨rfl, rfl⟩

/-- Without a write of TICK_DIV in IDLE the host access leaves the prescaler alone. -/
theorem hostPhase_keeps_prescaler {s t : State} {access : Option Access} {lat : Nat}
    (hn : s.xstate = .idle → ∀ w, access ≠ some (.write 0x048#11 .four w)) (h : s.hostPhase access lat = .next t) :
    t.tickDiv = s.tickDiv ∧ t.presc = s.presc := by
  by_cases hx : s.xstate = .idle
  · rcases access with _ | ⟨off, size⟩ | ⟨off, size, w⟩
    · cases h; exact ⟨rfl, rfl⟩
    · obtain ⟨d, rfl⟩ := hostRead_eq_next h
      exact ⟨rfl, rfl⟩
    · cases ht : target off size with
      | none => simp [State.hostPhase, State.hostWrite, ht] at h
      | some tg =>
        cases tg with
        | buf b a =>
          rw [hostPhase_write_buf s w lat ht] at h
          cases h
          exact hostWriteBuf_prescaler (s.answer none) b a size w
        | reg r =>
          by_cases hc : r = .cmd
          · subst hc
            obtain ⟨rfl, rfl⟩ := target_cmd ht
            have accepted : s.hostPhase (some (.write 0x008#11 .four w)) lat = (s.answer none).accept w lat := by
              show (s.answer none).writeCmd w lat = _
              simp [State.writeCmd, State.busy, hx]
            rw [accepted] at h
            exact accept_prescaler (s := s.answer none) h
          · rw [hostPhase_write_reg s w lat ht hc] at h
            cases h
            refine hostWriteReg_prescaler (s.answer none) w ?_
            rintro rfl
            obtain ⟨rfl, rfl⟩ := target_tickDiv ht
            exact hn hx w rfl
  · rw [(hostPhase_of_busy hx h).busy hx]
    exact ⟨rfl, rfl⟩

/-- After the host access a cycle counts the prescaler once, whatever it does else (42_transceiver.md R106). -/
theorem step_prescaler {s t : State} (hr : s.choice.rstN = true) (h : step s = .next t) :
    ∃ u, s.advance.hostPhase s.choice.access s.choice.latDraw = .next u ∧ t.tickDiv = u.tickDiv ∧
      t.presc = if u.presc = u.tickDiv then 0#32 else u.presc + 1#32 := by
  rw [step_of_rstN_high hr] at h
  obtain ⟨u, hu, h⟩ := thenDo_eq_next h
  obtain ⟨v, hv, h⟩ := thenDo_eq_next h
  obtain ⟨-, -, hp, hd⟩ := commitPhase_inputs hv
  obtain ⟨-, -, hd', hp'⟩ := linePhases_inputs h
  exact ⟨u, hu, hd'.trans hd, by rw [hp', hp, hd]⟩

/-- Settles O38: only the host access can restart the prescaler, and every cycle counts it. -/
theorem prescalerCountsEveryCycle : Obligations.PrescalerCountsEveryCycle := by
  intro s t hr hs
  obtain ⟨u, hu, hd, hp⟩ := step_prescaler hr hs
  refine ⟨fun hno => ?_, fun w hacc hx => ?_⟩
  · have kept : u.tickDiv = s.tickDiv ∧ u.presc = s.presc :=
      hostPhase_keeps_prescaler (s := s.advance) (fun hx => hno.resolve_right (fun hne => hne hx)) hu
    rw [hd, hp, kept.1, kept.2]
    exact ⟨rfl, rfl⟩
  · rw [hacc, hostPhase_write_reg (r := .tickDiv) _ _ _ rfl (by decide), hostWriteReg_of_idle (by exact hx)] at hu
    cases hu
    have restarted : t.presc = if 0#32 = w then 0#32 else 0#32 + 1#32 := hp
    refine ⟨hd, restarted.trans ?_⟩
    simp only [eq_comm (a := 0#32)]
    split <;> rfl

/-! ### Sticky flags and received characters -/

/-- A taken character records its parity and framing errors (42_transceiver.md R124). -/
theorem takeChar_errors (s : State) (c : RxChar) :
    (s.takeChar c).rxPerr = (s.rxPerr || c.perr) ∧ (s.takeChar c).rxFerr = (s.rxFerr || c.ferr) := by
  simp only [State.takeChar]
  split <;> exact ⟨rfl, rfl⟩

/-- A taken character is stored at RXBUF[RX_LEN] while there is room (42_transceiver.md R124). -/
theorem takeChar_mem (s : State) (c : RxChar) :
    (s.takeChar c).mem = if s.rxLen.toNat < 512 then s.mem.set (0x400 + s.rxLen.toNat) c.data else s.mem := by
  simp only [State.takeChar]
  split <;> rfl

theorem takeChar_rxOvf_of_room {s : State} (h : s.rxLen.toNat < 512) (c : RxChar) : (s.takeChar c).rxOvf = s.rxOvf := by
  simp only [State.takeChar, if_pos h]
  rfl

theorem takeChar_rxLen_of_full {s : State} (h : 512 ≤ s.rxLen.toNat) (c : RxChar) : (s.takeChar c).rxLen = s.rxLen := by
  simp only [State.takeChar, if_neg (Nat.not_lt.mpr h)]

theorem XState.receiving_iff (x : XState) : x.receiving = true ↔ x = .settle ∨ x = .postWait ∨ x = .accum := by
  cases x <;> decide

/-- A cycle of a receiving state in which a character completes: the host access, the character, and the line with its flags as
they are then. -/
theorem step_of_taken_char {s t : State} {c : RxChar} (hr : s.choice.rstN = true) (hx : s.xstate.receiving = true)
    (hc : s.choice.rx = some c) (hs : step s = .next t) :
    ∃ u, s.advance.hostPhase s.choice.access s.choice.latDraw = .next u ∧ u.rxLen = s.rxLen ∧
      (u.takeChar c).tickPhase.fsmPhase s.xstate true (u.takeChar c).tick = .next t ∧
      t.rxPerr = (u.takeChar c).rxPerr ∧ t.rxFerr = (u.takeChar c).rxFerr ∧ t.rxOvf = (u.takeChar c).rxOvf := by
  have hidle : s.xstate ≠ .idle := by intro h; rw [h] at hx; cases hx
  have hcodec : s.xstate ≠ .codec := by intro h; rw [h] at hx; cases hx
  obtain ⟨u, hu, hframe, -, hline⟩ := step_in_exchange hr hidle hcodec hs
  simp only [hc, State.rxPhase, arrived, hx, if_true, Option.isSome_some, Bool.and_true] at hline
  refine ⟨u, hu, by rw [hframe], hline, ?_⟩
  rw [(fsmPhase_effect hline).frame]
  exact ⟨rfl, rfl, rfl⟩

/-- A pending codec command whose latency has run out completes in its cycle, whatever the host does. -/
theorem step_of_commit_done {s t : State} (hr : s.choice.rstN = true) (hx : s.xstate = .codec) (hl : s.pendLat = 0)
    (hne : decodeWord s.pendWord ≠ .exchange) (hs : step s = .next t) : t.done = true := by
  rw [step_of_codec hx hr] at hs
  obtain ⟨u, hu, hs⟩ := thenDo_eq_next hs
  obtain ⟨v, hv, hs⟩ := thenDo_eq_next hs
  cases hs
  have hbusy : s.advance.xstate ≠ .idle := by simp [hx]
  have hframe := (hostPhase_of_busy hbusy hu).busy hbusy
  have ux : u.xstate = .codec := by rw [hframe]; exact hx
  have ul : u.pendLat = 0 := by rw [hframe]; exact hl
  have uw : u.pendWord = s.pendWord := by rw [hframe]; rfl
  rw [State.commitPhase, if_pos ux, if_pos ul, uw] at hv
  rcases exec_cases (decodeWord s.pendWord) u with ⟨e, z, he, -⟩ | ⟨hex, -⟩ | ⟨a, he⟩
  · rw [he] at hv; cases hv; rfl
  · exact absurd hex hne
  · rw [he] at hv; cases hv

/-- Settles O37: the host's clear comes before the character and the commit of the same cycle. -/
theorem engineSetWinsOverHostClear : Obligations.EngineSetWinsOverHostClear := by
  intro s t w c hr _ hs
  refine ⟨fun hx hc => ?_, fun hx hl hne => step_of_commit_done hr hx hl hne hs⟩
  obtain ⟨u, -, hlen, -, hperr, hferr, hovf⟩ := step_of_taken_char hr hx hc hs
  obtain ⟨eperr, eferr⟩ := takeChar_errors u c
  refine ⟨fun hp => ?_, fun hf => ?_, fun hfull => ?_⟩
  · rw [hperr, eperr, hp, Bool.or_true]
  · rw [hferr, eferr, hf, Bool.or_true]
  · rw [hovf, takeChar_rxOvf, hlen]
    exact .inr hfull

theorem attemptFailed_rxLen (s : State) (e : ErrCode) : (s.attemptFailed e).rxLen = s.rxLen := by
  simp only [State.attemptFailed]
  split <;> rfl

/-- The states that receive do not move RX_LEN but by the characters they take. -/
theorem fsmPhase_receiving_rxLen {s t : State} {x0 : XState} {arr tick : Bool} (hx : x0.receiving = true)
    (h : s.fsmPhase x0 arr tick = .next t) : t.rxLen = s.rxLen := by
  rcases (XState.receiving_iff x0).mp hx with rfl | rfl | rfl
  · cases h
    simp only [State.settleStep]
    split <;> rfl
  · cases h
    simp only [State.postWaitStep]
    split <;> rfl
  · simp only [State.fsmPhase] at h
    rcases accumStep_cases s arr tick with ⟨-, -, done⟩ | ⟨-, -, he⟩ | ⟨-, he⟩
    · rcases done with ⟨_, _, _, _, _, -, -, he⟩ | ⟨_, -, -, he⟩ | ⟨_, _, -, -, he⟩ <;> rw [he] at h
      · cases h; rfl
      · cases h; exact attemptFailed_rxLen ..
      · cases h
    · rw [he] at h; cases h; exact attemptFailed_rxLen ..
    · rw [he] at h; cases h; rfl

/-- The state machine writes RXDATA only (41_codec.md R100). -/
theorem LineEffect.mem_out {s t : State} (h : LineEffect s t) {a : Nat} (ha : a < 0x600 ∨ 0x700 ≤ a) :
    t.mem.get a = s.mem.get a := by
  rcases h.mem with hm | ⟨vs, hl, hm⟩
  · rw [hm]
  · rw [hm, Memory.get_setBytes_out _ _ _ (by omega)]

/-- Settles O41: the character is taken before the state machine, which leaves RXBUF, RX_LEN and the flags alone. -/
theorem takenCharactersAreStored : Obligations.TakenCharactersAreStored := by
  intro s t c hx hq hc hs
  have hrec := (XState.receiving_iff _).mpr hx
  obtain ⟨u, hu, -, hline, hperr, hferr, hovf⟩ := step_of_taken_char hq.1 hrec hc hs
  rw [hq.2] at hu
  cases hu
  generalize hv : (s.advance.answer none).takeChar c = v at hline hperr hferr hovf
  have len : t.rxLen = v.rxLen := fsmPhase_receiving_rxLen (s := v.tickPhase) hrec hline
  have bytes : ∀ i < 512, t.mem.get (0x400 + i) = v.mem.get (0x400 + i) := fun i hi =>
    (fsmPhase_effect hline).mem_out (by omega)
  subst hv
  have errors := takeChar_errors (s.advance.answer none) c
  have stored := takeChar_mem (s.advance.answer none) c
  refine ⟨fun room => ?_, fun full => ?_, hperr.trans errors.1, hferr.trans errors.2⟩
  · have room' : (s.advance.answer none).rxLen.toNat < 512 := room
    rw [if_pos room'] at stored
    refine ⟨?_, ?_, hovf.trans (takeChar_rxOvf_of_room room' c), fun i hi hne => ?_⟩
    · rw [bytes _ room, stored]
      exact Memory.get_set_same _ _ _
    · rw [len, takeChar_rxLen_toNat, if_pos room']
      rfl
    · rw [bytes _ hi, stored]
      refine Memory.get_set_ne _ _ ?_
      simp only [State.answer_rxLen, State.advance_rxLen]
      omega
  · have full' : 512 ≤ (s.advance.answer none).rxLen.toNat := full
    rw [if_neg (Nat.not_lt.mpr full')] at stored
    refine ⟨?_, len.trans (takeChar_rxLen_of_full full' c), fun i hi => ?_⟩
    · rw [hovf, takeChar_rxOvf]
      exact .inr full'
    · rw [bytes _ hi, stored]
      rfl

/-! ### The inputs of a command in progress -/

/-- `t` has the configuration registers of `s`, and its bytes outside the buffers the engine writes (10_state.md R61). -/
structure KeepsInputs (s t : State) : Prop where
  ctrlcode : t.ctrlcode = s.ctrlcode
  di : t.di = s.di
  hasDi : t.hasDi = s.hasDi
  plen : t.plen = s.plen
  addrstrLen : t.addrstrLen = s.addrstrLen
  tSettle : t.tSettle = s.tSettle
  tPostsend : t.tPostsend = s.tPostsend
  tInact : t.tInact = s.tInact
  tCeil : t.tCeil = s.tCeil
  maxAttempts : t.maxAttempts = s.maxAttempts
  tRetry : t.tRetry = s.tRetry
  baudDiv : t.baudDiv = s.baudDiv
  tickDiv : t.tickDiv = s.tickDiv
  /-- PAYLOAD and ADDRSTR are among these offsets. -/
  bytes : ∀ a, a < 0x200 ∨ 0x700 ≤ a → t.mem.get a = s.mem.get a

theorem KeepsInputs.trans {s t u : State} (h : KeepsInputs s t) (k : KeepsInputs t u) : KeepsInputs s u where
  ctrlcode := k.ctrlcode.trans h.ctrlcode
  di := k.di.trans h.di
  hasDi := k.hasDi.trans h.hasDi
  plen := k.plen.trans h.plen
  addrstrLen := k.addrstrLen.trans h.addrstrLen
  tSettle := k.tSettle.trans h.tSettle
  tPostsend := k.tPostsend.trans h.tPostsend
  tInact := k.tInact.trans h.tInact
  tCeil := k.tCeil.trans h.tCeil
  maxAttempts := k.maxAttempts.trans h.maxAttempts
  tRetry := k.tRetry.trans h.tRetry
  baudDiv := k.baudDiv.trans h.baudDiv
  tickDiv := k.tickDiv.trans h.tickDiv
  bytes := fun a ha => (k.bytes a ha).trans (h.bytes a ha)

/-- While BUSY the host changes no input. -/
theorem HostEffect.keepsInputs {s t : State} (h : HostEffect s t) (hx : s.xstate ≠ .idle) : KeepsInputs s t := by
  rw [h.busy hx]
  constructor <;> intros <;> rfl

/-- A command writes TXBUF and RXDATA only. -/
theorem CodecEffect.mem_out {s u : State} (h : CodecEffect s u) {a : Nat} (ha : a < 0x200 ∨ 0x700 ≤ a) :
    u.mem.get a = s.mem.get a := by
  rcases h.mem with hm | ⟨vs, hl, hm⟩ | ⟨vs, hl, hm⟩
  · rw [hm]
  · rw [hm, Memory.get_setBytes_out _ _ _ (by omega)]
  · rw [hm, Memory.get_setBytes_out _ _ _ (by omega)]

theorem CodecEffect.keepsInputs {s u : State} (h : CodecEffect s u) (e : ErrCode) : KeepsInputs s (u.complete e) := by
  have hout : ∀ a, a < 0x200 ∨ 0x700 ≤ a → (u.complete e).mem.get a = s.mem.get a := fun a ha => h.mem_out ha
  rw [h.frame] at hout ⊢
  exact ⟨rfl, rfl, rfl, rfl, rfl, rfl, rfl, rfl, rfl, rfl, rfl, rfl, rfl, hout⟩

theorem exec_keepsInputs {i : Instr} {s t : State} (h : exec i s = .next t) : KeepsInputs s t := by
  rcases exec_cases i s with ⟨e, u, he, hu⟩ | ⟨-, he, -⟩ | ⟨a, he⟩ <;> rw [he] at h
  · cases h; exact hu.keepsInputs e
  · cases h; constructor <;> intros <;> rfl
  · cases h

theorem commitPhase_keepsInputs {s t : State} (h : s.commitPhase = .next t) : KeepsInputs s t := by
  unfold State.commitPhase at h
  split at h
  · split at h
    · exact exec_keepsInputs h
    · cases h; constructor <;> intros <;> rfl
  · cases h; constructor <;> intros <;> rfl

/-- The line writes RXBUF and RXDATA only. -/
theorem linePhases_mem_out {s t : State} {x0 : XState} {rx : Option RxChar} (h : s.linePhases x0 rx = .next t) {a : Nat}
    (ha : a < 0x400 ∨ 0x700 ≤ a) : t.mem.get a = s.mem.get a := by
  have line : t.mem.get a = (s.rxPhase x0 rx).mem.get a := (fsmPhase_effect h).mem_out (by omega)
  rw [line, rxPhase_mem_out s x0 rx (by omega)]

theorem linePhases_keepsInputs {s t : State} {x0 : XState} {rx : Option RxChar} (h : s.linePhases x0 rx = .next t) :
    KeepsInputs s t := by
  have hout : ∀ a, a < 0x200 ∨ 0x700 ≤ a → t.mem.get a = s.mem.get a := fun a ha => linePhases_mem_out h (by omega)
  have hframe := (fsmPhase_effect h).frame
  rw [rxPhase_frame] at hframe
  rw [hframe] at hout ⊢
  exact ⟨rfl, rfl, rfl, rfl, rfl, rfl, rfl, rfl, rfl, rfl, rfl, rfl, rfl, hout⟩

/-- The line does not write the address and FRAME_LEN. -/
theorem linePhases_address {s t : State} {x0 : XState} {rx : Option RxChar} (h : s.linePhases x0 rx = .next t) :
    t.addrLo = s.addrLo ∧ t.addrHi = s.addrHi ∧ t.frameLen = s.frameLen := by
  rw [(fsmPhase_effect h).frame, rxPhase_frame]
  exact ⟨rfl, rfl, rfl⟩

/-- Settles O59: each phase of a busy cycle keeps the inputs, and what it may write depends on the command in progress. -/
theorem inputsAreFixedWhileBusy : Obligations.InputsAreFixedWhileBusy := by
  intro s t hx hr hs
  have hbusy : s.advance.xstate ≠ .idle := hx
  rw [step_of_rstN_high hr] at hs
  obtain ⟨u, hu, hs⟩ := thenDo_eq_next hs
  obtain ⟨v, hv, hline⟩ := thenDo_eq_next hs
  have host := hostPhase_of_busy hbusy hu
  have hframe := host.busy hbusy
  refine ⟨?_, fun hex => ?_, fun hc hl => ?_⟩
  · have kept := ((host.keepsInputs hbusy).trans (commitPhase_keepsInputs hv)).trans (linePhases_keepsInputs hline)
    exact ⟨kept.ctrlcode, kept.di, kept.hasDi, kept.plen, kept.addrstrLen, kept.tSettle, kept.tPostsend, kept.tInact,
      kept.tCeil, kept.maxAttempts, kept.tRetry, kept.baudDiv, kept.tickDiv, fun i hi => kept.bytes _ (by omega),
      fun i hi => kept.bytes _ (by omega)⟩
  · have notCodec : u.xstate ≠ .codec := by rw [hframe]; exact ((XState.inExchange_iff _).mp hex).2
    rw [commitPhase_not_codec notCodec] at hv
    cases hv
    obtain ⟨hlo, hhi, hlen⟩ := linePhases_address hline
    rw [hlo, hhi, hlen]
    refine ⟨by rw [hframe]; rfl, by rw [hframe]; rfl, by rw [hframe]; rfl, fun i hi => ?_⟩
    rw [linePhases_mem_out hline (by omega), hframe]
    rfl
  · rw [hframe, commitPhase_waits (by exact hc) (by exact hl)] at hv
    cases hv
    rw [hc, linePhases_codec] at hline
    cases hline
    exact ⟨rfl, rfl, rfl, rfl, rfl, hc, rfl, rfl⟩

end Sys2Proof.Machine
end

section
/-! PROOF. The command words of 30_encoding.md as byte lanes: the decoder undoes the encoder. -/

namespace Sys2Proof

/-- The decoder reads the byte lanes of a word whole and leaves the bytes after them (20_memory.md R50). -/
theorem decodeBytes_bytesLe (w : Word) (rest : List Byte) :
    decodeBytes (bytesLe w ++ rest) = .ok (decodeWord w, rest) := by
  simp [bytesLe, decodeBytes]

/-- The word of a well-formed command decodes to it (30_encoding.md R70, R71). -/
theorem decodeWord_encode {i : Instr} (h : i.wellFormed = true) : decodeWord (encode i) = i := by
  cases i with
  | illegal w => exact decodeWord_of_illegal ((Laws.EncodesLegality.illegal w h).mpr ⟨w, rfl⟩)
  | _ => rfl

/-- Settles O3: the lanes give the command's word back, and the word its command. -/
theorem decodeOfEncodedBytes : Obligations.DecodeOfEncodedBytes := by
  intro i rest h
  rw [encodeBytes, decodeBytes_bytesLe, decodeWord_encode h]

end Sys2Proof
end

section
/-! PROOF. The host window of 20_memory.md: which accesses are bus errors, and that a read changes nothing but the bus
answer. -/

namespace Sys2Proof.Machine

/-! ### Bus errors -/

/-- Every multiple of 4 below 0x04C is a register (10_state.md R18). -/
theorem Reg.exists_ofIndex {n : Nat} (h : n < 19) : ∃ r, Reg.ofIndex n = some r := by
  interval_cases n <;> exact ⟨_, rfl⟩

/-- No buffer lies below 0x100 or from 0x710 on (10_state.md R18). -/
theorem bufAt_eq_none_iff (off : Nat) : bufAt off = none ↔ off < 0x100 ∨ 0x710 ≤ off := by
  refine ⟨fun h => ?_, fun h => ?_⟩
  · by_contra hin
    have := bufAt_some (a := off) (by omega)
    rw [h] at this
    cases this
  · cases hb : bufAt off with
    | none => rfl
    | some b =>
      obtain ⟨hlo, hhi⟩ := bufAt_range hb
      cases b <;> simp only [Buf.base, Buf.size] at hlo hhi <;> omega

theorem sizeBytes_eq_four_iff (size : Size) : sizeBytes size = 4 ↔ size = .four := by cases size <;> decide

/-- The ill-formed accesses (20_memory.md R51 to R53), region by region. -/
theorem target_eq_none_iff (off : BitVec 11) (size : Size) :
    target off size = none ↔
      (off.toNat < 0x4C ∧ (sizeBytes size ≠ 4 ∨ off.toNat % 4 ≠ 0)) ∨ (0x4C ≤ off.toNat ∧ off.toNat < 0x100) ∨
        (0x100 ≤ off.toNat ∧ off.toNat < 0x710 ∧ off.toNat % sizeBytes size ≠ 0) ∨ 0x710 ≤ off.toNat := by
  have hsize := sizeBytes_eq_four_iff size
  unfold target
  by_cases hreg : off.toNat < 0x4C
  · obtain ⟨r, hr⟩ := Reg.exists_ofIndex (n := off.toNat / 4) (by omega)
    rw [if_pos hreg, hr]
    by_cases hform : size = .four ∧ off.toNat % 4 = 0
    · simp only [if_pos hform, Option.map_some, reduceCtorEq, false_iff]
      rw [← hsize] at hform
      omega
    · simp only [if_neg hform, true_iff]
      rw [← hsize] at hform
      omega
  · rw [if_neg hreg]
    have hbuf := bufAt_eq_none_iff off.toNat
    cases hb : bufAt off.toNat with
    | none =>
      have := hbuf.mp hb
      simp only [true_iff]
      omega
    | some b =>
      have hin : ¬ (off.toNat < 0x100 ∨ 0x710 ≤ off.toNat) := by rw [← hbuf, hb]; simp
      simp only [ite_eq_right_iff, reduceCtorEq, imp_false]
      omega

/-- A cycle with an ill-formed access stops with the bus error that names its offset (20_memory.md R54). -/
theorem step_of_ill_formed_access {s : State} {off : BitVec 11} {size : Size} (hr : s.choice.rstN = true)
    (hacc : s.choice.access = some (.read off size) ∨ ∃ w, s.choice.access = some (.write off size w))
    (ht : target off size = none) : step s = .fault (.busError off) := by
  rw [step_of_rstN_high hr]
  rcases hacc with hacc | ⟨w, hacc⟩ <;> rw [hacc]
  · simp [State.hostPhase, State.hostRead, ht]
  · simp [State.hostPhase, State.hostWrite, ht]

/-- A bus error of a cycle comes from its access, which is ill-formed (20_memory.md R54). -/
theorem target_of_busError {s : State} {off off' : BitVec 11} {size : Size}
    (hacc : s.choice.access = some (.read off size) ∨ ∃ w, s.choice.access = some (.write off size w))
    (hs : step s = .fault (.busError off')) : target off size = none := by
  rcases step_stops s with ⟨t, ht⟩ | ⟨o, n, -, hbad, hacc'⟩ | ⟨a, ha⟩
  · rw [ht] at hs; cases hs
  · have same : off = o ∧ size = n := by rcases hacc with hacc | ⟨w, hacc⟩ <;> simpa [hacc] using hacc'
    rw [same.1, same.2]
    exact hbad
  · rw [ha] at hs; cases hs

/-- Settles O28: the listed accesses are those without a target, and these alone are bus errors. -/
theorem busErrorsExactlyOnIllFormedAccesses : Obligations.BusErrorsExactlyOnIllFormedAccesses := by
  intro s off size hr hacc o n bad
  have hbad : target off size = none ↔ bad := target_eq_none_iff off size
  exact ⟨fun h => step_of_ill_formed_access hr hacc (hbad.mpr h), fun h off' hs => h (hbad.mp (target_of_busError hacc hs))⟩

/-! ### The bus answer is read by no phase -/

/-- The outcome `r` with the bus answer `d` put in its next state. -/
def withAnswer (d : Option Word) (r : Result) : Result := thenDo r fun t => .next (t.answer d)

@[simp] theorem withAnswer_next (d : Option Word) (s : State) : withAnswer d (.next s) = .next (s.answer d) := rfl

/-- If both parts of a sequence carry the answer along, the sequence does. -/
theorem withAnswer_thenDo {d : Option Word} {r : Result} {k : State → Result}
    (hk : ∀ t : State, k (t.answer d) = withAnswer d (k t)) : thenDo (withAnswer d r) k = withAnswer d (thenDo r k) := by
  cases r with
  | next t => exact hk t
  | fault f => rfl
  | refused f => rfl

/-- If what follows a read carries the answer along, the read with it does. -/
theorem withAnswer_readThen {α : Type} {d : Option Word} (r : Except Fault α) {k k' : α → Result}
    (hk : ∀ a, k' a = withAnswer d (k a)) : readThen r k' = withAnswer d (readThen r k) := by
  cases r with
  | ok a => exact hk a
  | error f => rfl

/-- A choice carries the answer along if both its branches do. -/
theorem withAnswer_ite {d : Option Word} (c : Prop) [Decidable c] {a b a' b' : Result} (ha : a' = withAnswer d a)
    (hb : b' = withAnswer d b) : (if c then a' else b') = withAnswer d (if c then a else b) := by
  split <;> assumption

/-- As `withAnswer_ite`, for a choice of the next state itself. -/
theorem answer_ite {d : Option Word} (c : Prop) [Decidable c] {a b a' b' : State} (ha : a' = a.answer d)
    (hb : b' = b.answer d) : (if c then a' else b') = (if c then a else b).answer d := by
  split <;> assumption

/-- With room in RXBUF a character is stored (42_transceiver.md R124). -/
theorem takeChar_of_room {s : State} (h : s.rxLen.toNat < 512) (c : RxChar) :
    s.takeChar c = { s.setBufByte .rxbuf s.rxLen.toNat c.data with
      rxLen := s.rxLen + 1#10, rxPerr := s.rxPerr || c.perr, rxFerr := s.rxFerr || c.ferr } := by
  simp only [State.takeChar, if_pos h]
  rfl

/-- With RXBUF full a character is lost and RX_OVF set (42_transceiver.md R124). -/
theorem takeChar_of_full {s : State} (h : ¬ s.rxLen.toNat < 512) (c : RxChar) :
    s.takeChar c = { s with rxOvf := true, rxPerr := s.rxPerr || c.perr, rxFerr := s.rxFerr || c.ferr } := by
  simp only [State.takeChar, if_neg h]

section CarriesAnswer

variable (s : State) (d : Option Word)

theorem encodeAddress_answer (cs : List Byte) : (s.answer d).encodeAddress cs = (s.encodeAddress cs).answer d :=
  answer_ite _ rfl rfl

theorem applyParse_answer (r : ParseOutcome) : (s.answer d).applyParse r = (s.applyParse r).answer d := by
  cases r <;> rfl

theorem parseBuf_answer (b : Buf) (n : Nat) : (s.answer d).parseBuf b n = withAnswer d (s.parseBuf b n) := by
  refine withAnswer_ite _ rfl (withAnswer_readThen _ fun r => ?_)
  rw [applyParse_answer]
  rfl

/-- No command reads the bus answer. -/
theorem exec_answer (i : Instr) : exec i (s.answer d) = withAnswer d (exec i s) := by
  cases i with
  | nop => rfl
  | addrEncode =>
    refine withAnswer_ite _ rfl (withAnswer_readThen _ fun cs => ?_)
    rw [encodeAddress_answer]
    rfl
  | build => exact withAnswer_ite _ rfl (withAnswer_readThen _ fun p => rfl)
  | parseRx => exact parseBuf_answer ..
  | parseTx => exact parseBuf_answer ..
  | exchange => exact withAnswer_ite _ rfl (withAnswer_ite _ rfl rfl)
  | illegal w => rfl

theorem commitPhase_answer : (s.answer d).commitPhase = withAnswer d s.commitPhase :=
  withAnswer_ite _ (withAnswer_ite _ (exec_answer s d _) rfl) rfl

theorem takeChar_answer (c : RxChar) : (s.answer d).takeChar c = (s.takeChar c).answer d := by
  by_cases hroom : s.rxLen.toNat < 512
  · rw [takeChar_of_room hroom, takeChar_of_room (s := s.answer d) hroom]
    rfl
  · rw [takeChar_of_full hroom, takeChar_of_full (s := s.answer d) hroom]
    rfl

theorem rxPhase_answer (x0 : XState) (rx : Option RxChar) : (s.answer d).rxPhase x0 rx = (s.rxPhase x0 rx).answer d := by
  cases rx with
  | none => rfl
  | some c => exact answer_ite _ (takeChar_answer s d c) rfl

theorem txAdvance_answer (last : Nat) {f : State → State} (hf : ∀ t : State, f (t.answer d) = (f t).answer d) :
    (s.answer d).txAdvance last f = (s.txAdvance last f).answer d :=
  answer_ite _ rfl (answer_ite _ rfl (answer_ite _ rfl (hf { s with txcyc := 0#16, txbit := 0#4, txidx := 0#10 })))

theorem settleStep_answer (tick : Bool) : (s.answer d).settleStep tick = (s.settleStep tick).answer d :=
  answer_ite _ rfl rfl

theorem postWaitStep_answer (tick : Bool) : (s.answer d).postWaitStep tick = (s.postWaitStep tick).answer d :=
  answer_ite _ rfl rfl

theorem retryWaitStep_answer (tick : Bool) : (s.answer d).retryWaitStep tick = (s.retryWaitStep tick).answer d :=
  answer_ite _ rfl rfl

theorem attemptFailed_answer (e : ErrCode) : (s.answer d).attemptFailed e = (s.attemptFailed e).answer d :=
  answer_ite _ rfl rfl

theorem respond_answer (r : ParseOutcome) : (s.answer d).respond r = (s.respond r).answer d := by
  cases r with
  | ok => rfl
  | fail e => exact attemptFailed_answer s d e

theorem accumStep_answer (arr tick : Bool) : (s.answer d).accumStep arr tick = withAnswer d (s.accumStep arr tick) := by
  refine withAnswer_ite _ (withAnswer_readThen _ fun r => ?_) (withAnswer_ite _ ?_ rfl)
  · exact congrArg _ (respond_answer (s.accumCount arr tick) d r)
  · exact congrArg _ (attemptFailed_answer (s.accumCount arr tick) d _)

/-- No state of the transceiver reads the bus answer. -/
theorem fsmPhase_answer (x0 : XState) (arr tick : Bool) :
    (s.answer d).fsmPhase x0 arr tick = withAnswer d (s.fsmPhase x0 arr tick) := by
  cases x0 with
  | idle => rfl
  | codec => rfl
  | wakeTx => exact congrArg _ (txAdvance_answer s d _ fun _ => rfl)
  | settle => exact congrArg _ (settleStep_answer s d tick)
  | frameTx => exact withAnswer_readThen _ fun _ => congrArg _ (txAdvance_answer s d _ fun _ => rfl)
  | postWait => exact congrArg _ (postWaitStep_answer s d tick)
  | accum => exact accumStep_answer s d arr tick
  | retryWait => exact congrArg _ (retryWaitStep_answer s d tick)

theorem linePhases_answer (x0 : XState) (rx : Option RxChar) :
    (s.answer d).linePhases x0 rx = withAnswer d (s.linePhases x0 rx) := by
  rw [State.linePhases, rxPhase_answer]
  exact fsmPhase_answer (s.rxPhase x0 rx).tickPhase d x0 _ _

/-- The phases after the host access carry its answer along and do not see it (00_scope.md R11, log 11). -/
theorem afterAccess_answer (x0 : XState) (rx : Option RxChar) :
    (thenDo (s.answer d).commitPhase fun u => u.linePhases x0 rx) =
      withAnswer d (thenDo s.commitPhase fun u => u.linePhases x0 rx) := by
  rw [commitPhase_answer]
  exact withAnswer_thenDo fun u => linePhases_answer u d x0 rx

end CarriesAnswer

/-! ### Reads -/

/-- A cycle with a read that answers: the read's answer `d` stands in the next state, and the rest of the cycle goes as without
the access (20_memory.md R55). -/
theorem step_of_read {s t : State} {off : BitVec 11} {size : Size} (hr : s.choice.rstN = true)
    (hacc : s.choice.access = some (.read off size)) (hs : step s = .next t) :
    ∃ d, s.advance.hostRead off size = .next (s.advance.answer d) ∧ t.rdata = d ∧
      step (s.withChosenAccess none) = .next (t.answer none) := by
  rw [step_of_rstN_high hr, hacc] at hs
  obtain ⟨u, hu, hs⟩ := thenDo_eq_next hs
  obtain ⟨d, rfl⟩ := hostRead_eq_next hu
  have carried := afterAccess_answer (s.advance.answer d) d s.xstate s.choice.rx
  have without := afterAccess_answer (s.advance.answer d) none s.xstate s.choice.rx
  rw [hs, withAnswer_next] at carried without
  refine ⟨d, hu, ?_, (step_withChosenAccess_none hr).trans without⟩
  have ht : t = t.answer d := Host.Outcome.next.inj (hs.symm.trans carried)
  rw [ht, State.answer_rdata]

/-- Settles O29: the answer of the read is all that the cycle without it lacks, and a register's answer is its value at the
start of the cycle. -/
theorem readsHaveNoSideEffect : Obligations.ReadsHaveNoSideEffect := by
  intro s t off size hr hacc hs
  obtain ⟨d, hd, rfl, without⟩ := step_of_read hr hacc hs
  have answered : ∀ r, target off size = some (.reg r) → t.rdata = some (s.readReg r) := by
    intro r ht
    rw [hostRead_of_target_reg _ ht, readReg_advance] at hd
    exact (congrArg State.rdata (Host.Outcome.next.inj hd)).symm
  exact ⟨without, answered, answered .cmd⟩

/-- A host read of a buffer whose bytes hold values answers them as byte lanes (20_memory.md R50). -/
theorem hostRead_of_target_buf {s : State} {off : BitVec 11} {size : Size} {b : Buf} {bs : List Byte}
    (ht : target off size = some (.buf b off.toNat)) (hl : bs.length = sizeBytes size)
    (hm : ∀ i (h : i < bs.length), s.mem.get (off.toNat + i) = some bs[i]) :
    s.hostRead off size = .next (s.answer (some (laneWord bs))) := by
  have hread := readRange_ok fun i hi => Memory.read_eq_ok.mpr (hm i hi)
  rw [hl] at hread
  simp [State.hostRead, ht, hread]

/-- Settles O30: the answer is the little-endian number of the lanes, an absent lane counting 0. -/
theorem bufferReadsAreLittleEndian : Obligations.BufferReadsAreLittleEndian :=
  fun _ _ _ _ _ ht hl hm => ⟨_, hostRead_of_target_buf ht hl hm, le32_toNat ..⟩

end Sys2Proof.Machine
end

section
/-! PROOF. Runs with no host access: a codec command that waits for its commit (40_commands.md R88, R89) and the frame on the
line (42_transceiver.md R112). -/

namespace Sys2Proof.Machine

/-! ### The latency of a codec command -/

/-- What `j` quiet cycles of waiting for the commit leave of `s`; `p` is the prescaler then (40_commands.md R89). -/
def State.afterWaiting (s : State) (j : Nat) (p : Word) : State :=
  { s with
    pendLat := s.pendLat - j, presc := p, rdata := if j = 0 then s.rdata else none
    inputs := s.inputs.drop j, cycle := s.cycle + j }

theorem afterWaiting_zero (s : State) : s.afterWaiting 0 s.presc = s := by
  simp [State.afterWaiting]

/-- A quiet cycle in which a pending codec command waits (40_commands.md R89). -/
theorem step_of_codec_waiting {s : State} (hx : s.xstate = .codec) (hl : 0 < s.pendLat) (hq : hostQuiet s.choice) :
    step s = .next ({ s.advance.answer none with pendLat := s.pendLat - 1 } : State).tickPhase := by
  rw [step_of_codec hx hq.1, hq.2, State.hostPhase, thenDo_next, commitPhase_waits (by exact hx) (by exact hl)]
  rfl

/-- A quiet cycle in which a pending codec command commits (40_commands.md R89). -/
theorem step_of_codec_due {s : State} (hx : s.xstate = .codec) (hl : s.pendLat = 0) (hq : hostQuiet s.choice) :
    step s = thenDo (exec (decodeWord s.pendWord) (s.advance.answer none)) fun u => .next u.tickPhase := by
  rw [step_of_codec hx hq.1, hq.2, State.hostPhase, thenDo_next, State.commitPhase, if_pos (by exact hx), if_pos (by exact hl)]
  rfl

/-- One more cycle of waiting. -/
theorem step_afterWaiting {s : State} {j : Nat} {p : Word} (hx : s.xstate = .codec) (hj : j < s.pendLat)
    (hq : hostQuiet (s.choiceAt j)) : ∃ p', step (s.afterWaiting j p) = .next (s.afterWaiting (j + 1) p') := by
  have hc : (s.afterWaiting j p).choice = s.choiceAt j := choice_drop rfl rfl
  rw [step_of_codec_waiting (s := s.afterWaiting j p) hx (Nat.sub_pos_of_lt hj) (by rw [hc]; exact hq)]
  refine ⟨(s.afterWaiting j p).tickPhase.presc, congrArg Host.Outcome.next ?_⟩
  simp [State.afterWaiting, State.advance, State.answer, State.tickPhase, State.tick, Nat.sub_sub, Nat.add_assoc]

/-- A run within the latency only waits. -/
theorem runFor_within_latency {s : State} (hx : s.xstate = .codec) {j : Nat} (hj : j ≤ s.pendLat)
    (hq : ∀ k < j, hostQuiet (s.choiceAt k)) : ∃ p, runFor j s = .next (s.afterWaiting j p) := by
  induction j with
  | zero => exact ⟨s.presc, by rw [afterWaiting_zero]; rfl⟩
  | succ j ih =>
    obtain ⟨p, hp⟩ := ih (by omega) fun k hk => hq k (by omega)
    rw [runFor_snoc hp]
    exact step_afterWaiting hx (by omega) (hq j (by omega))

/-- Settles O25: by induction the cycles of the latency only wait; in the one after them the latency has run out. -/
theorem pendingCommandCommitsAfterItsLatency : Obligations.PendingCommandCommitsAfterItsLatency := by
  rintro s n hx rfl hq
  have waits : ∀ j ≤ s.pendLat, ∃ p, runFor j s = .next (s.afterWaiting j p) := fun j hj =>
    runFor_within_latency hx hj fun k hk => hq k (by omega)
  refine ⟨fun j hj => ?_, ?_⟩
  · obtain ⟨p, hp⟩ := waits j hj
    exact ⟨_, hp, rfl⟩
  · obtain ⟨p, hp⟩ := waits s.pendLat le_rfl
    refine ⟨_, hp, ?_⟩
    have hc := choice_runFor hp
    rw [runFor_snoc hp]
    exact step_of_codec_due (s := s.afterWaiting s.pendLat p) hx (Nat.sub_self _) (by rw [hc]; exact hq _ le_rfl)

/-! ### The frame on the line -/

theorem Keeps.holds {s t : State} (h : Keeps s t) {b : Buf} {f : List Byte} (hf : s.holds b f) : t.holds b f :=
  fun i hi => by rw [h.mem]; exact hf i hi

/-- In FRAME_TX the line carries the bit of the frame due `j` cycles after its first bit (42_transceiver.md R112, R120). -/
theorem uartTxd_of_frameTx {t : State} {B j : Nat} {f : List Byte} (hx : t.xstate = .frameTx) (hp : TxPos t B j)
    (hf : t.holds .txbuf f) (hl : f.length ≤ 512) (hj : j < 11 * f.length * B) :
    t.uartTxd = .ok (charBit (f.getD (j / (11 * B)) 0) (j / B % 11)) := by
  obtain ⟨-, hbit, hidx⟩ := hp
  rw [Nat.div_div_eq_div_mul, Nat.mul_comm B 11] at hidx
  have hlt : j / (11 * B) < f.length := Nat.div_lt_of_lt_mul (by rw [Nat.mul_right_comm]; exact hj)
  rw [State.uartTxd, State.txByte, hx, hidx, hbit, State.holds_bufByte hl hf hlt]
  rfl

/-- Settles O44: the run of the transmitter over the bytes of TXBUF, all of which are present. -/
theorem frameTakes11BitTimesAByte : Obligations.FrameTakes11BitTimesAByte := by
  intro s B f hx hidx hbit hcyc hB hB1 hl hl1 hl512 hf hq
  have cycle : ∀ u : State, Keeps s u → u.xstate = .frameTx → u.txidx.toNat < f.length → hostQuiet u.choice →
      step u = .next ((u.advance.answer none).tickPhase.txAdvance (f.length - 1) fun t =>
        { t with wcnt := 0#16, xstate := .postWait }) := by
    intro u hk hux hi hqu
    rw [step_of_frameTx hux hqu (State.holds_bufByte hl512 (hk.holds hf) hi), hk.frameLen, hl]
  obtain ⟨during, t, ht, -, -⟩ := transmit_run hl1 (by omega) hB1 s cycle hx (TxPos.start hidx hbit hcyc) hB hq
  refine ⟨fun j hj => ?_, _, ht, rfl, rfl⟩
  obtain ⟨t, ht, htx, hp, hk, -⟩ := during j hj
  exact ⟨t, ht, htx, by rw [State.uartDe, htx]; rfl, uartTxd_of_frameTx htx hp (hk.holds hf) hl512 hj⟩

end Sys2Proof.Machine
end

section
/-! PROOF. The opcode map of 30_encoding.md: which words are illegal (R71), that every word is the encoding of the command it
decodes to, and the six words of R70. -/

namespace Sys2Proof

/-- A word decodes to an illegal command exactly if it meets R71's test. -/
theorem decodeWord_eq_illegal_iff (w : Word) : decodeWord w = .illegal w ↔ illegalWord w = true := by
  refine ⟨fun h => ?_, decodeWord_of_illegal⟩
  cases hw : illegalWord w with
  | true => rfl
  | false => rcases legalWord_cases hw with rfl | rfl | rfl | rfl | rfl | rfl <;> cases h

/-- No word of the opcode map is illegal (30_encoding.md R70). -/
theorem illegalWord_of_mem_legalWords : ∀ w ∈ legalWords, illegalWord w = false := by
  simp only [legalWords, List.forall_mem_cons]
  exact ⟨rfl, rfl, rfl, rfl, rfl, rfl, List.forall_mem_nil _⟩

/-- What a word decodes to is a well-formed command: an illegal command keeps a word outside the opcode map. -/
theorem decodeWord_wellFormed (w : Word) : (decodeWord w).wellFormed = true := by
  cases hw : illegalWord w with
  | true =>
    have outside : w ∉ legalWords := fun hm => by simp [illegalWord_of_mem_legalWords w hm] at hw
    rw [decodeWord_of_illegal hw]
    simpa [Instr.wellFormed] using outside
  | false => rcases legalWord_cases hw with rfl | rfl | rfl | rfl | rfl | rfl <;> rfl

/-- Fewer than four bytes are no command word (30_encoding.md R69). -/
theorem decodeBytes_truncated {bs : List Byte} (h : bs.length < 4) : decodeBytes bs = .error .truncated := by
  match bs, h with
  | [], _ => rfl
  | [_], _ => rfl
  | [_, _], _ => rfl
  | [_, _, _], _ => rfl
  | _ :: _ :: _ :: _ :: _, h => simp only [List.length_cons] at h; omega

/-- Settles O2: a word decodes to an illegal command exactly if it meets R71's test, which reads as these conditions on the word
as a number. -/
theorem illegalWordIffOpcodeReservedOrSource : Obligations.IllegalWordIffOpcodeReservedOrSource := by
  intro w
  rw [decodeWord_eq_illegal_iff, illegalWord_eq, or_assoc]

/-- Settles O4: encoding undoes decoding on every word, and shorter byte sequences end before a word is complete. -/
theorem encodeOfDecodedWord : Obligations.EncodeOfDecodedWord :=
  ⟨fun w => ⟨decodeWord_wellFormed w, Machine.encode_decodeWord w⟩, fun _ => decodeBytes_truncated⟩

/-- Settles O1: the bytes written out are the lanes of the commands' encodings, which decode back with nothing left over. -/
theorem opcodeMapWordsDecode : Obligations.OpcodeMapWordsDecode :=
  ⟨decodeOfEncodedBytes .nop [] rfl, decodeOfEncodedBytes .addrEncode [] rfl, decodeOfEncodedBytes .build [] rfl,
    decodeOfEncodedBytes .parseRx [] rfl, decodeOfEncodedBytes .parseTx [] rfl, decodeOfEncodedBytes .exchange [] rfl,
    decodeOfEncodedBytes (.illegal 0x00000005#32) [] rfl⟩

end Sys2Proof
end

section
/-! PROOF. The character on the line (30_encoding.md R81), the wake preamble made of it (42_transceiver.md R110), and the cycle
in which a command word is accepted (40_commands.md R85, R88). -/

namespace Sys2Proof.Machine

/-! ### The character and its parity -/

/-- How many elements meet a test is odd exactly if the xor of the tests is true. -/
theorem countP_mod_two {α : Type} (p : α → Bool) (l : List α) :
    l.countP p % 2 = ((l.map p).foldr (· ^^ ·) false).toNat := by
  induction l with
  | nil => rfl
  | cons x l ih =>
    rw [List.countP_cons, List.map_cons, List.foldr_cons, Nat.add_mod, ih]
    cases p x <;> cases (l.map p).foldr (· ^^ ·) false <;> rfl

/-- Bits 1 to 8 of a character are the data bits, least significant first (30_encoding.md R81). -/
theorem charBit_data (b : Byte) {k : Nat} (hk : k < 8) : charBit b (k + 1) = b.getLsbD k := by
  rw [charBit, if_neg (Nat.succ_ne_zero k), if_pos (by omega), Nat.add_sub_cancel]

/-- The data bits and the parity bit cancel (30_encoding.md R81). -/
theorem charBit_xor (b : Byte) : ((List.range 9).map fun k => charBit b (k + 1)).foldr (· ^^ ·) false = false := by
  have bits : ((List.range 9).map fun k => charBit b (k + 1)) = (List.range 8).map b.getLsbD ++ [parityBit b] := by
    rw [List.range_succ, List.map_append, List.map_congr_left fun k hk => charBit_data b (List.mem_range.mp hk)]
    rfl
  have data : ((List.range 8).map b.getLsbD).foldr (· ^^ ·) (parityBit b) = (parityBit b ^^ parityBit b) := by
    simp only [List.range, List.range.loop, List.map_cons, List.map_nil, List.foldr_cons, List.foldr_nil, ← Bool.xor_assoc]
    rfl
  rw [bits, List.foldr_append, List.foldr_cons, List.foldr_nil, Bool.xor_false, data, Bool.xor_self]

/-- Settles O9: the number of 1s in bits 1 to 9 is even since their xor is false; the characters of R82 are computed. -/
theorem characterBitsAndEvenParity : Obligations.CharacterBitsAndEvenParity := by
  refine ⟨fun b => ⟨rfl, rfl, fun k hk => charBit_data b hk, ?_⟩, by decide, by decide, by decide, by decide⟩
  rw [countP_mod_two, charBit_xor]
  rfl

/-! ### The preamble on the line -/

/-- In WAKE_TX the line carries a bit of 0xFE (42_transceiver.md R110, R120). -/
theorem uartTxd_of_wakeTx {t : State} (hx : t.xstate = .wakeTx) : t.uartTxd = .ok (charBit 0xFE#8 t.txbit.toNat) := by
  rw [State.uartTxd, State.txByte, hx]
  rfl

/-- Settles O43: the run of the transmitter over the four characters of the preamble. -/
theorem preambleTakes44BitTimes : Obligations.PreambleTakes44BitTimes := by
  intro s B hx hidx hbit hcyc hB hB1 hq
  obtain ⟨during, t, ht, -, -⟩ := transmit_run (N := 4) (by decide) (by decide) hB1 s
    (fun u _ hux _ hqu => step_of_wakeTx hux hqu) hx (TxPos.start hidx hbit hcyc) hB hq
  refine ⟨fun j hj => ?_, _, ht, rfl, rfl⟩
  obtain ⟨t, ht, htx, ⟨-, hpos, -⟩, -, -⟩ := during j hj
  exact ⟨t, ht, htx, by rw [State.uartDe, htx]; rfl, by rw [uartTxd_of_wakeTx htx, hpos]⟩

/-! ### The acceptance of a command word -/

theorem isCodec_eq_false_iff (i : Instr) : isCodec i = false ↔ (∃ v, i = .illegal v) ∨ i = .exchange := by
  cases i <;> simp [isCodec]

theorem isCodec_eq_true_iff (i : Instr) :
    isCodec i = true ↔ i = .nop ∨ i = .addrEncode ∨ i = .build ∨ i = .parseRx ∨ i = .parseTx := by
  cases i <;> simp [isCodec]

/-- A pending codec command's word is the word that was written (40_commands.md R88). -/
theorem pendWord_codecStart {w : Word} (h : isCodec (decodeWord w) = true) (s : State) (n : Nat) :
    (s.codecStart w n).pendWord = w := by
  rw [State.pendWord, State.codecStart_pendSrc, State.codecStart_pendOp]
  cases hw : illegalWord w with
  | true => rw [decodeWord_of_illegal hw] at h; cases h
  | false => rcases legalWord_cases hw with rfl | rfl | rfl | rfl | rfl | rfl <;> decide

/-- A command that runs at once leaves the commit of its cycle nothing to do (40_commands.md R89). -/
theorem thenDo_exec_commitPhase (i : Instr) (s : State) (k : State → Result) :
    (thenDo (exec i s) fun t => thenDo t.commitPhase k) = thenDo (exec i s) k := by
  cases h : exec i s with
  | next t => rw [thenDo_next, commitPhase_of_exec h, thenDo_next]
  | fault f => rfl
  | refused r => rfl

/-- The cycle that accepts EXCHANGE or an illegal word runs it (40_commands.md R85). -/
theorem step_accepts_at_once {s : State} {w : Word} (hx : s.xstate = .idle) (hw : s.writesCmd w)
    (hc : isCodec (decodeWord w) = false) :
    step s = thenDo (exec (decodeWord w) (s.advance.answer none).acceptClear) fun t => .next t.tickPhase := by
  rw [step_of_writesCmd hx hw, State.accept, hc, if_neg Bool.false_ne_true, thenDo_exec_commitPhase]

/-- The cycle that accepts a codec command makes it pending with the drawn latency, and its commit phase counts that down or
runs the command (40_commands.md R88, R89). -/
theorem step_accepts_codec {s : State} {w : Word} (hx : s.xstate = .idle) (hw : s.writesCmd w)
    (hc : isCodec (decodeWord w) = true) :
    step s = thenDo ((s.advance.answer none).acceptClear.codecStart w
      (drawnLatency s.choice.latDraw Config.codecMaxLat)).commitPhase fun u => .next u.tickPhase := by
  rw [step_of_writesCmd hx hw, State.accept, if_pos hc, thenDo_next]

/-- The commit phase runs a codec command accepted with latency 0. -/
theorem commitPhase_codecStart_zero {w : Word} (hc : isCodec (decodeWord w) = true) (s : State) :
    (s.codecStart w 0).commitPhase = exec (decodeWord w) (s.codecStart w 0) := by
  rw [State.commitPhase, if_pos (State.codecStart_xstate ..), if_pos (State.codecStart_pendLat ..), pendWord_codecStart hc]

/-- Settles O23: a command that is no codec command runs at acceptance; a codec command is left to the commit phase, which meets
the written word and the drawn latency. -/
theorem stepRunsTheDecodedCommand : Obligations.StepRunsTheDecodedCommand := by
  intro s w hx hw i a lat
  refine ⟨decodeBytes_bytesLe w [], fun hi => ?_, fun hi => ?_⟩
  · exact step_accepts_at_once hx hw ((isCodec_eq_false_iff i).mpr hi)
  · have hc : isCodec (decodeWord w) = true := (isCodec_eq_true_iff i).mpr hi
    have hstep : step s = thenDo (a.codecStart w lat).commitPhase fun u => .next u.tickPhase := step_accepts_codec hx hw hc
    refine ⟨fun h0 => ?_, fun hpos => ?_, ?_⟩
    · rw [hstep, h0, commitPhase_codecStart_zero hc]
    · rw [hstep, commitPhase_waits rfl (by exact hpos)]
      rfl
    · rw [pendWord_codecStart hc]

end Sys2Proof.Machine
end

section
/-! PROOF. The shared functions of 40_commands.md: masking (R92), the checksum (R93), hex digits (R94) and the byte order of
words (R95). -/

namespace Sys2Proof.Machine

/-! ### Masking -/

/-- Masking adds 0x33 modulo 256 (R92). -/
theorem mask_toNat (b : Byte) : (mask b).toNat = (b.toNat + 0x33) % 256 := by
  rw [mask, BitVec.toNat_add, BitVec.toNat_ofNat]

/-- Unmasking adds 0xCD, which is -0x33 modulo 256 (R92). -/
theorem unmask_toNat (b : Byte) : (unmask b).toNat = (b.toNat + 0xCD) % 256 := by
  rw [unmask, BitVec.toNat_sub, BitVec.toNat_ofNat, Nat.add_comm]

@[simp] theorem unmask_mask (b : Byte) : unmask (mask b) = b := BitVec.add_sub_cancel b _

@[simp] theorem mask_unmask (b : Byte) : mask (unmask b) = b := BitVec.sub_add_cancel b _

/-- Settles O5: addition and subtraction of 0x33 cancel, byte by byte on a sequence. -/
theorem maskingAddsAndUndoes33 : Obligations.MaskingAddsAndUndoes33 := by
  have unmask_left : Function.LeftInverse unmask mask := unmask_mask
  have mask_left : Function.LeftInverse mask unmask := mask_unmask
  exact ⟨fun b => ⟨mask_toNat b, unmask_toNat b, unmask_mask b, mask_unmask b⟩,
    fun bs => ⟨unmask_left.list_map bs, mask_left.list_map bs⟩, rfl, rfl, rfl, rfl, rfl, rfl⟩

/-! ### The checksum -/

/-- The checksum of a sequence put together from two is the sum of theirs (R93). -/
theorem checksum_append (xs ys : List Byte) : checksum (xs ++ ys) = checksum xs + checksum ys := by
  rw [checksum, List.map_append, List.sum_append, BitVec.ofNat_add]
  rfl

theorem checksum_singleton (b : Byte) : checksum [b] = b := by
  simp [checksum]

theorem checksum_cons (b : Byte) (bs : List Byte) : checksum (b :: bs) = b + checksum bs := by
  rw [← List.singleton_append, checksum_append, checksum_singleton]

/-- A byte of a sequence is the only one that gives its checksum (R93). -/
theorem checksum_replace_iff (xs ys : List Byte) (b b' : Byte) :
    checksum (xs ++ b :: ys) = checksum (xs ++ b' :: ys) ↔ b = b' := by
  simp only [checksum_append, checksum_cons, BitVec.add_right_inj, BitVec.add_left_inj]

/-- Settles O6: the checksum turns concatenation into addition modulo 256, in which each byte can be cancelled. -/
theorem checksumDetectsOneChangedByte : Obligations.ChecksumDetectsOneChangedByte :=
  ⟨rfl, fun _ => BitVec.toNat_ofNat _ _, fun bs b => by rw [checksum_append, checksum_singleton], checksum_replace_iff⟩

/-! ### Hex digits -/

theorem isHex_iff (c : Byte) :
    isHex c = true ↔ (0x30 ≤ c.toNat ∧ c.toNat ≤ 0x39) ∨ (0x41 ≤ c.toNat ∧ c.toNat ≤ 0x46) ∨
      (0x61 ≤ c.toNat ∧ c.toNat ≤ 0x66) := by
  simp only [isHex, Bool.or_eq_true, Bool.and_eq_true, decide_eq_true_eq, or_assoc]

/-- Settles O7: the three ranges of digits are tested, and the value counts from the start of the range. -/
theorem hexDigitsAndValues : Obligations.HexDigitsAndValues := by
  intro c
  refine ⟨fun h => ⟨(isHex_iff c).mpr (.inl h), ?_⟩, fun h => ⟨(isHex_iff c).mpr (.inr (.inl h)), ?_⟩,
    fun h => ⟨(isHex_iff c).mpr (.inr (.inr h)), ?_⟩, fun h => ?_⟩
  · rw [hexVal, if_pos h.2]
  · rw [hexVal, if_neg (by omega), if_pos h.2]
  · rw [hexVal, if_neg (by omega), if_neg (by omega)]
  · rw [Bool.eq_false_iff, Ne, isHex_iff]
    omega

end Sys2Proof.Machine

namespace Sys2Proof

/-! ### The byte order of words -/

/-- A word assembled from bytes is the or of the bytes shifted to their places (R95). -/
theorem le32_eq_or_shiftLeft (b0 b1 b2 b3 : Byte) :
    le32 b0 b1 b2 b3 =
      b0.setWidth 32 ||| (b1.setWidth 32 <<< 8) ||| (b2.setWidth 32 <<< 16) ||| (b3.setWidth 32 <<< 24) := by
  calc le32 b0 b1 b2 b3
    _ = (b3 ++ b2 ++ b1 ++ b0).setWidth 32 := (BitVec.setWidth_eq _).symm
    _ = b3.setWidth 32 <<< 24 ||| b2.setWidth 32 <<< 16 ||| b1.setWidth 32 <<< 8 ||| b0.setWidth 32 :=
      BitVec.setWidth_append_append_append_eq_shiftLeft_setWidth_or
    _ = _ := by
      rw [BitVec.or_comm, BitVec.or_comm (_ ||| _), BitVec.or_comm (b3.setWidth 32 <<< 24), BitVec.or_assoc, BitVec.or_assoc]

/-- Settles O8: a word is the concatenation of its four lanes, and the outer lanes are its remainder and quotient. -/
theorem le32AndBytesLeAreInverse : Obligations.Le32AndBytesLeAreInverse := by
  refine ⟨le32_eq_or_shiftLeft, bytesLe_le32, fun v => ⟨_, _, _, _, rfl, le32_lanes v, ?_, ?_⟩⟩
  · rw [lane_toNat, pow_zero, Nat.div_one]
  · have := v.isLt
    rw [lane_toNat]
    omega

end Sys2Proof
end

section
/-! PROOF. The commands of 40_commands.md that only complete (R87, R91), what a completion and its acknowledgement do to IRQ (R90,
60_exceptions.md R133 to R135), and how the sequencer moves (R88, R90, 42_transceiver.md R118). -/

namespace Sys2Proof.Machine

/-! ### NOP and illegal commands -/

theorem exec_nop (s : State) : exec .nop s = .next (s.complete .ok) := rfl

theorem exec_illegal (w : Word) (s : State) : exec (.illegal w) s = .next (s.complete .badCommand) := rfl

/-- A completion raises IRQ if CTRL.IE is 1 (60_exceptions.md R133). -/
theorem complete_irq (s : State) (e : ErrCode) : (s.complete e).irq = s.ctrlIe := by
  rw [State.irq, State.complete_ctrlIe, State.complete_done, Bool.and_true]

/-- A command that has completed is no longer BUSY (10_state.md R44). -/
theorem complete_busy (s : State) (e : ErrCode) : (s.complete e).busy = false := by
  simp [State.busy]

/-- Settles O10: NOP is the completion with OK. -/
theorem nopOnlyCompletes : Obligations.NopOnlyCompletes :=
  fun s => ⟨s.complete .ok, exec_nop s, rfl, complete_irq s .ok⟩

/-- Settles O11: an illegal command is the completion with BadCommand, whatever its word. -/
theorem illegalCommandOnlyCompletes : Obligations.IllegalCommandOnlyCompletes := exec_illegal

/-- Where nothing is in progress a completion writes ERRCODE and DONE only (R90). -/
theorem complete_of_idle {s : State} (hx : s.xstate = .idle) (hop : s.pendOp = 0#4) (hlat : s.pendLat = 0) (e : ErrCode) :
    s.complete e = { s with errcode := e, done := true } := by
  rw [State.complete, ← hx, ← hop, ← hlat]

/-- The cycle that accepts an illegal word completes it with BadCommand (R87). -/
theorem step_accepts_illegal {s : State} {w : Word} (hx : s.xstate = .idle) (hw : s.writesCmd w) (hi : illegalWord w = true) :
    step s = .next ((s.advance.answer none).acceptClear.complete .badCommand).tickPhase := by
  have hd : decodeWord w = .illegal w := decodeWord_of_illegal hi
  rw [step_accepts_at_once hx hw (by rw [hd]; rfl), hd, exec_illegal, thenDo_next]

/-- Settles O26: the completion writes no other field that a state of the invariant in IDLE does not hold already. -/
theorem illegalWordCompletesInItsCycle : Obligations.IllegalWordCompletesInItsCycle := by
  intro s w h hx hw hi
  obtain ⟨hop, hlat⟩ := h.nonePending (by simp [hx])
  have illegal : illegalWord w = true := by rw [illegalWord_eq, or_assoc]; exact hi
  refine ⟨_, step_accepts_illegal hx hw illegal, ?_, ?_, ?_⟩
  · rw [complete_of_idle (by exact hx) (by exact hop) (by exact hlat), tickPhase_eq]
    rfl
  · simp [State.uartDe, hx]
  · simp [State.uartTxd, hx, XState.transmitting]

/-! ### IRQ and the acknowledgement -/

theorem irq_of_not_done {s : State} (h : s.done = false) : s.irq = false := by
  rw [State.irq, h, Bool.and_false]

/-- In IDLE the host's acknowledgement lowers IRQ and leaves ERRCODE (60_exceptions.md R135). -/
theorem step_of_acknowledge {s : State} (hx : s.xstate = .idle) (hr : s.choice.rstN = true)
    (hacc : s.choice.access = some (.write 0x00C#11 .four 0x00000002#32)) :
    step s = .next ((s.advance.answer none).writeStatus 0x00000002#32).tickPhase := by
  have status : target 0x00C#11 .four = some (.reg .status) := rfl
  have hu := hostPhase_write_reg s.advance 0x00000002#32 s.choice.latDraw status (by decide)
  rw [hostWriteReg_ctrl_status _ _ (.inr rfl), ← hacc] at hu
  exact step_of_idle_access hx hr hu hx

/-- EXCHANGE with a configuration that passes its checks starts its first attempt (42_transceiver.md R108). -/
theorem exec_exchange_starts {s : State} (hf : 1 ≤ s.frameLen.toNat) (hf' : s.frameLen.toNat ≤ 512)
    (hb : 1 ≤ s.baudDiv.toNat) (hm : 1 ≤ s.maxAttempts.toNat) : exec .exchange s = .next s.clearExchange.startAttempt := by
  have pos : ∀ {n : Nat} (x : BitVec n), 1 ≤ x.toNat → x ≠ 0#n := by
    rintro n x h rfl
    simp at h
  show execExchange s = _
  rw [execExchange, if_neg (not_or.mpr ⟨pos _ hf, by omega⟩), if_neg (not_or.mpr ⟨pos _ hb, pos _ hm⟩)]

theorem wellFormed_of_isCodec {i : Instr} (h : isCodec i = true) : i.wellFormed = true := by
  cases i with
  | illegal w => cases h
  | _ => rfl

/-- The cycle that accepts a codec command with a latency above 0 leaves it pending (R88, R89). -/
theorem step_accepts_pending {s : State} {w : Word} (hx : s.xstate = .idle) (hw : s.writesCmd w)
    (hc : isCodec (decodeWord w) = true) (hl : 0 < drawnLatency s.choice.latDraw Config.codecMaxLat) :
    step s = .next ((s.advance.answer none).acceptClear.codecStart w
      (drawnLatency s.choice.latDraw Config.codecMaxLat - 1)).tickPhase := by
  rw [step_accepts_codec hx hw hc, commitPhase_waits rfl hl]
  rfl

/-- Settles O60: the completion sets DONE; the acknowledgement and an acceptance clear it, and neither a started EXCHANGE nor a
pending codec command sets it in the same cycle. -/
theorem completionRaisesAndAcknowledgeLowersIrq : Obligations.CompletionRaisesAndAcknowledgeLowersIrq := by
  refine ⟨fun s e => ⟨complete_irq s e, rfl, complete_busy s e⟩, fun s t hx hr hacc hs => ?_,
    fun s t hx hw hf hf' hb hm hs => ?_, fun s t i hi hx hw hl hs => ?_⟩
  · rw [step_of_acknowledge hx hr hacc] at hs
    cases hs
    exact ⟨irq_of_not_done rfl, rfl⟩
  · have hd : decodeWord (encode .exchange) = .exchange := decodeWord_encode rfl
    rw [step_accepts_at_once hx hw rfl, hd, exec_exchange_starts (by exact hf) (by exact hf') (by exact hb) (by exact hm),
      thenDo_next] at hs
    cases hs
    exact ⟨irq_of_not_done rfl, rfl⟩
  · have hc : isCodec i = true := (isCodec_eq_true_iff i).mpr (by simpa using hi)
    have hd : decodeWord (encode i) = i := decodeWord_encode (wellFormed_of_isCodec hc)
    rw [step_accepts_pending hx hw (hd.symm ▸ hc) hl] at hs
    cases hs
    exact ⟨irq_of_not_done rfl, rfl⟩

/-! ### The transitions of the sequencer -/

/-- The states the sequencer may be in one cycle later: the table of 42_transceiver.md R118, and the acceptance and commit of a
codec command (R88, R90). -/
def XState.successors : XState → List XState
  | .idle      => [.idle, .wakeTx, .codec]
  | .codec     => [.codec, .idle]
  | .wakeTx    => [.wakeTx, .settle]
  | .settle    => [.settle, .frameTx]
  | .frameTx   => [.frameTx, .postWait]
  | .postWait  => [.postWait, .accum]
  | .accum     => [.accum, .retryWait, .idle]
  | .retryWait => [.retryWait, .wakeTx]

theorem XState.mem_successors_self (x : XState) : x ∈ x.successors := by
  cases x <;> decide

/-- A command leaves the sequencer in IDLE, except an EXCHANGE that starts. -/
theorem exec_xstate {i : Instr} {s t : State} (h : exec i s = .next t) :
    t.xstate = .idle ∨ (i = .exchange ∧ t.xstate = .wakeTx) := by
  rcases exec_cases i s with ⟨e, u, he, -⟩ | ⟨hi, he, -⟩ | ⟨a, he⟩ <;> rw [he] at h <;> cases h
  · exact .inl rfl
  · exact .inr ⟨hi, rfl⟩

/-- The host access moves the sequencer only out of IDLE, by the acceptance of a command (R85). -/
theorem hostPhase_xstate {s t : State} {access : Option Access} {lat : Nat} (h : s.hostPhase access lat = .next t) :
    t.xstate = s.xstate ∨ (s.xstate = .idle ∧ t.xstate ∈ XState.idle.successors) := by
  rcases hostPhase_cases s access lat with ⟨u, hu, he⟩ | ⟨hx, w, -, hu⟩ | ⟨_, _, hu, -⟩ | ⟨_, hu⟩ <;> rw [hu] at h
  · cases h
    rw [he.frame]
    exact .inl rfl
  · refine .inr ⟨hx, ?_⟩
    rcases accept_cases (s.answer none) w lat with ⟨-, ha⟩ | ⟨-, ha⟩ <;> rw [ha] at h
    · cases h
      rw [State.codecStart_xstate]
      decide
    · rcases exec_xstate h with ht | ⟨-, ht⟩ <;> rw [ht] <;> decide
  · cases h
  · cases h

/-- From a state of the invariant the commit moves the sequencer only from CODEC to IDLE: the pending command is no EXCHANGE
(R88, R90). -/
theorem commitPhase_xstate {s t : State} (h : s.Inv) (hs : s.commitPhase = .next t) :
    t.xstate = s.xstate ∨ (s.xstate = .codec ∧ t.xstate = .idle) := by
  by_cases hx : s.xstate = .codec
  · rcases Nat.eq_zero_or_pos s.pendLat with h0 | hpos
    · rw [State.commitPhase, if_pos hx, if_pos h0] at hs
      rcases exec_xstate hs with ht | ⟨hi, -⟩
      · exact .inr ⟨hx, ht⟩
      · have hop := (h.pending hx).1
        rw [← opField_pendWord, opField_of_exchange hi] at hop
        exact absurd hop (by decide)
    · rw [commitPhase_waits hx hpos] at hs
      cases hs
      exact .inl rfl
  · rw [commitPhase_not_codec hx] at hs
    cases hs
    exact .inl rfl

/-- One cycle of the transmitter leaves the sequencer where it is, or ends the run (42_transceiver.md R120). -/
theorem txAdvance_xstate (s : State) (last : Nat) (y : XState) :
    (s.txAdvance last fun t => { t with wcnt := 0#16, xstate := y }).xstate ∈ [s.xstate, y] := by
  rcases txAdvance_cases s last fun t => { t with wcnt := 0#16, xstate := y } with ⟨c, b, i, h⟩ | h <;> rw [h] <;> simp

/-- A failed attempt leads to the retry wait or ends the EXCHANGE (42_transceiver.md R116). -/
theorem attemptFailed_xstate (s : State) (e : ErrCode) : (s.attemptFailed e).xstate ∈ [XState.retryWait, .idle] := by
  rcases Nat.lt_or_ge s.attempt.toNat s.maxAttempts.toNat with h | h
  · simp [attemptFailed_retry e h]
  · simp [attemptFailed_last e h]

/-- How ACCUM goes on (42_transceiver.md R114 to R116). -/
theorem accumStep_xstate {s t : State} {arr tick : Bool} (hx : s.xstate = .accum) (h : s.accumStep arr tick = .next t) :
    t.xstate ∈ XState.accum.successors := by
  rcases accumStep_cases s arr tick with ⟨-, -, done⟩ | ⟨-, -, he⟩ | ⟨-, he⟩
  · rcases done with ⟨_, _, _, _, _, -, -, he⟩ | ⟨_, -, -, he⟩ | ⟨_, _, -, -, he⟩ <;> rw [he] at h <;> cases h
    · rw [State.complete_xstate]
      decide
    · exact List.mem_cons_of_mem _ (attemptFailed_xstate _ _)
  · rw [he] at h
    cases h
    exact List.mem_cons_of_mem _ (attemptFailed_xstate _ _)
  · rw [he] at h
    cases h
    simp [hx, XState.successors]

/-- The state machine moves the sequencer along the table (42_transceiver.md R118). -/
theorem fsmPhase_xstate {s t : State} {x0 : XState} {arr tick : Bool} (hx : s.xstate = x0)
    (h : s.fsmPhase x0 arr tick = .next t) : t.xstate ∈ x0.successors := by
  cases x0 with
  | idle => cases h; rw [hx]; decide
  | codec => cases h; rw [hx]; decide
  | wakeTx =>
    cases h
    have := txAdvance_xstate s 3 .settle
    rwa [hx] at this
  | settle =>
    cases h
    simp only [State.settleStep]
    split <;> simp [hx, XState.successors]
  | frameTx =>
    simp only [State.fsmPhase] at h
    cases hb : s.bufByte .txbuf s.txidx.toNat with
    | error f => rw [hb] at h; cases h
    | ok v =>
      rw [hb] at h
      cases h
      have := txAdvance_xstate s (s.frameLen.toNat - 1) .postWait
      rwa [hx] at this
  | postWait =>
    cases h
    simp only [State.postWaitStep]
    split <;> simp [hx, XState.successors]
  | accum => exact accumStep_xstate hx h
  | retryWait =>
    cases h
    simp only [State.retryWaitStep]
    split <;> simp [hx, XState.successors]

/-- Every cycle out of reset moves the sequencer to a successor of the state it started in. -/
theorem step_xstate {s t : State} (h : s.Inv) (hr : s.choice.rstN = true) (hs : step s = .next t) :
    t.xstate ∈ s.xstate.successors := by
  by_cases hx : s.xstate.inExchange = true
  · obtain ⟨hi, hc⟩ := (XState.inExchange_iff _).mp hx
    obtain ⟨u, -, hframe, -, hline⟩ := step_in_exchange hr hi hc hs
    have hux : u.xstate = s.xstate := by rw [hframe]
    exact fsmPhase_xstate (by simp [hux]) hline
  · rw [step_outside_exchange (by simpa using hx) hr] at hs
    obtain ⟨u, hu, hs⟩ := thenDo_eq_next hs
    obtain ⟨v, hv, hs⟩ := thenDo_eq_next hs
    cases hs
    have host : u.xstate = s.xstate ∨ (s.xstate = .idle ∧ u.xstate ∈ XState.idle.successors) :=
      hostPhase_xstate (s := s.advance) hu
    rcases commitPhase_xstate (inv_hostPhase (inv_advance h) hu) hv with kept | ⟨huc, hvi⟩
    · rw [State.tickPhase_xstate, kept]
      rcases host with hux | ⟨hsi, hux⟩
      · rw [hux]
        exact XState.mem_successors_self _
      · rwa [hsi]
    · rw [State.tickPhase_xstate, hvi]
      rcases host with hux | ⟨hsi, -⟩
      · rw [← hux, huc]
        decide
      · rw [hsi]
        decide

/-- Settles O50: the host access, the commit and the state machine each move the sequencer along the table, and no two of them
in one cycle but the acceptance and commit of a codec command without latency. -/
theorem onlyTheTransitionsOfTheTable : Obligations.OnlyTheTransitionsOfTheTable := by
  intro s t h hr hs
  have hy := step_xstate h hr hs
  generalize s.xstate = x at hy ⊢
  generalize t.xstate = y at hy ⊢
  revert y
  cases x <;> decide

end Sys2Proof.Machine
end

section
/-! PROOF. A frame that BUILD makes passes every check of PARSE (41_codec.md R98, R99), and with one byte changed it fails the check
of that byte (R103). -/

namespace Sys2Proof.Machine

/-! ### Frames that pass every check -/

/-- A byte sequence that passes the checks of the parse (41_codec.md R99). -/
structure GoodFrame (f : List Byte) : Prop where
  length : 12 ≤ f.length
  start : f.getD 0 0 = 0x68#8
  endMarker : f.getD (f.length - 1) 0 = 0x16#8
  secondStart : f.getD 7 0 = 0x68#8
  dataLength : (f.getD 9 0).toNat = f.length - 12
  checksum : checksum (f.take (f.length - 2)) = f.getD (f.length - 2) 0

/-- The bytes of a frame before its checksum (30_encoding.md R73). -/
def frameBody (addr : List Byte) (c : Byte) (d : List Byte) : List Byte :=
  [0x68#8] ++ addr ++ [0x68#8] ++ [c] ++ [BitVec.ofNat 8 d.length] ++ d.map mask

theorem frameOf_eq_frameBody (addr : List Byte) (c : Byte) (d : List Byte) :
    frameOf addr c d = frameBody addr c d ++ [checksum (frameBody addr c d), 0x16#8] := by
  simp [frameOf, frameBody]

/-- The frame of an address of six bytes and at most 255 data bytes passes every check (41_codec.md R98, R99). -/
theorem goodFrame_frameOf {addr : List Byte} (c : Byte) {d : List Byte} (ha : addr.length = 6) (hd : d.length ≤ 255) :
    GoodFrame (frameOf addr c d) := by
  have body : (frameBody addr c d).length = 10 + d.length := by simp [frameBody, ha]; omega
  have len : (frameOf addr c d).length = 12 + d.length := by rw [frameOf_length, ha]; omega
  have header : (frameOf addr c d).getD 0 0 = 0x68#8 ∧ (frameOf addr c d).getD 7 0 = 0x68#8 ∧
      (frameOf addr c d).getD 9 0 = BitVec.ofNat 8 d.length := by
    match addr, ha with
    | [_, _, _, _, _, _], _ => exact ⟨rfl, rfl, rfl⟩
  have trailer : ∀ k, (frameOf addr c d).getD (10 + d.length + k) 0 = [checksum (frameBody addr c d), 0x16#8].getD k 0 := by
    intro k
    rw [frameOf_eq_frameBody, List.getD_append_right _ _ _ _ (by omega), body, Nat.add_sub_cancel_left]
  obtain ⟨start, second, dataLength⟩ := header
  refine ⟨by omega, start, ?_, second, ?_, ?_⟩
  · rw [len, show 12 + d.length - 1 = 10 + d.length + 1 by omega, trailer]
    rfl
  · rw [dataLength, len, BitVec.toNat_ofNat]
    omega
  · rw [len, show 12 + d.length - 2 = 10 + d.length + 0 by omega, trailer, Nat.add_zero, frameOf_eq_frameBody,
      List.take_left' body]
    rfl

/-! ### One changed byte -/

/-- Replacing a byte changes the checksum exactly if the byte changes (40_commands.md R93). -/
theorem checksum_set_iff {l : List Byte} {i : Nat} (hi : i < l.length) (v : Byte) :
    checksum (l.set i v) = checksum l ↔ v = l.getD i 0 := by
  have split : l = l.take i ++ l.getD i 0 :: l.drop (i + 1) := by
    rw [List.getD_eq_getElem _ _ hi, List.getElem_cons_drop, List.take_append_drop]
  rw [List.set_eq_take_append_cons_drop, if_pos hi]
  nth_rw 3 [split]
  exact checksum_replace_iff _ _ _ _

theorem getD_set_self {l : List Byte} {i : Nat} (hi : i < l.length) (v : Byte) : (l.set i v).getD i 0 = v := by
  simp [List.getD, hi]

theorem getD_set_ne {l : List Byte} {i j : Nat} (h : j ≠ i) (v : Byte) : (l.set i v).getD j 0 = l.getD j 0 := by
  simp [List.getD, List.getElem?_set_ne h.symm]

/-- The check of the parse that byte `i` of a frame of `n` bytes falls under (41_codec.md R99, R103). -/
def byteCheck (n i : Nat) : ErrCode :=
  if i = 0 ∨ i = n - 1 then .invalidFrameMarkers
  else if i = 7 then .invalidSecondStart
  else if i = 9 then .lengthMismatch
  else .checksumMismatch

/-- A good frame with one byte changed fails the check of that byte (R103): every check before it is on other bytes. -/
theorem GoodFrame.parseList_set {f : List Byte} (h : GoodFrame f) {i : Nat} (hi : i < f.length) {v : Byte}
    (hv : v ≠ f.getD i 0) : parseList (f.set i v) = .fail (byteCheck f.length i) := by
  have hn := h.length
  have other : ∀ {j}, j ≠ i → (f.set i v).getD j 0 = f.getD j 0 := fun hj => getD_set_ne hj v
  simp only [parseList, List.length_set, if_neg (Nat.not_lt.mpr hn), byteCheck]
  by_cases h0 : i = 0
  · subst h0
    rw [getD_set_self hi, if_pos (h.start ▸ hv), if_pos (.inl rfl)]
  rw [other (Ne.symm h0), if_neg (not_not.mpr h.start)]
  by_cases hE : i = f.length - 1
  · subst hE
    rw [getD_set_self hi, if_pos (h.endMarker ▸ hv), if_pos (.inr rfl)]
  rw [other (Ne.symm hE), if_neg (not_not.mpr h.endMarker), if_neg (not_or.mpr ⟨h0, hE⟩)]
  by_cases h7 : i = 7
  · subst h7
    rw [getD_set_self hi, if_pos (h.secondStart ▸ hv), if_pos rfl]
  rw [other (Ne.symm h7), if_neg (not_not.mpr h.secondStart), if_neg h7]
  by_cases h9 : i = 9
  · subst h9
    have changed : v.toNat ≠ f.length - 12 := fun he => hv (BitVec.eq_of_toNat_eq (he.trans h.dataLength.symm))
    rw [getD_set_self hi, if_pos changed, if_pos rfl]
  rw [other (Ne.symm h9), if_neg (not_not.mpr h.dataLength), if_neg h9, if_pos]
  by_cases hC : i = f.length - 2
  · subst hC
    rw [getD_set_self hi, List.take_set, List.set_eq_of_length_le (by simp), h.checksum]
    exact hv.symm
  · have inBody : i < (f.take (f.length - 2)).length := by rw [List.length_take]; omega
    have same : (f.take (f.length - 2)).getD i 0 = f.getD i 0 := by
      rw [List.getD_eq_getElem _ _ inBody, List.getElem_take, List.getD_eq_getElem _ _ hi]
    rw [other (Ne.symm hC), List.take_set, ← h.checksum, Ne, checksum_set_iff inBody, same]
    exact hv

/-! ### BUILD, a flipped bit, PARSE -/

/-- What a BUILD that completes with OK has done: the frame of its operands stands in TXBUF (41_codec.md R98). -/
theorem exec_build_ok {s t : State} (h : exec .build s = .next t) (he : t.errcode = .ok) :
    s.buildLen ≤ 255 ∧ ∃ p : List Byte, p.length = s.plen.toNat ∧ s.holds .payload p ∧
      t = ({ s.setBuf .txbuf (frameOf s.addrBytes s.ctrlcode (s.diBytes ++ p)) with
        frameLen := BitVec.ofNat 10 (12 + s.buildLen) } : State).complete .ok := by
  simp only [exec, execBuild] at h
  split at h
  · cases h
    cases he
  · rename_i hl
    cases hp : s.bufPrefix .payload s.plen.toNat with
    | error f => rw [hp] at h; cases h
    | ok p =>
      rw [hp] at h
      cases h
      obtain ⟨len, held⟩ := State.bufPrefix_inv (Nat.le_of_lt s.plen.isLt : s.plen.toNat ≤ Buf.payload.size) hp
      exact ⟨by omega, p, len, held, rfl⟩

/-- The data field of BUILD has the length L (41_codec.md R98). -/
theorem diBytes_append_length {s : State} {p : List Byte} (hp : p.length = s.plen.toNat) :
    (s.diBytes ++ p).length = s.buildLen := by
  rw [List.length_append, State.diBytes_length, hp, State.buildLen]

/-- After a BUILD that completes with OK, TXBUF holds a good frame of FRAME_LEN bytes (41_codec.md R98). -/
theorem exec_build_goodFrame {s t : State} (h : exec .build s = .next t) (he : t.errcode = .ok) :
    ∃ f, GoodFrame f ∧ f.length = 12 + s.buildLen ∧ f.length ≤ 267 ∧ t.frameLen.toNat = f.length ∧ t.holds .txbuf f := by
  obtain ⟨hl, p, hp, -, rfl⟩ := exec_build_ok h he
  have hd := diBytes_append_length hp
  have len : (frameOf s.addrBytes s.ctrlcode (s.diBytes ++ p)).length = 12 + s.buildLen := by
    rw [frameOf_length, hd, s.addrBytes_length]
    omega
  refine ⟨_, goodFrame_frameOf s.ctrlcode s.addrBytes_length (hd ▸ hl), len, by omega, ?_, State.setBuf_holds s .txbuf _⟩
  rw [len, State.complete_frameLen, BitVec.toNat_ofNat]
  omega

/-- PARSE of a buffer that holds the bytes `f` applies the parse of `f` (41_codec.md R99 to R101). -/
theorem State.parses.exec_holds {s : State} {i : Instr} {b : Buf} {f : List Byte} (h : s.parses i b f.length)
    (hl : f.length ≤ 512) (hf : s.holds b f) :
    exec i s = .next ((s.applyParse (parseList f)).complete (parseList f).errCode) := by
  rw [h.exec_eq, State.parseBuf, if_neg (by omega), parse_holds (h.size ▸ hl) hf, readThen_ok]

/-- A buffer in which one of the bytes `f` is overwritten holds `f` with that byte replaced. -/
theorem State.holds_set {s t : State} {b : Buf} {f : List Byte} {i : Nat} {v : Byte} (h : s.holds b f)
    (hm : t.mem = s.mem.set (b.base + i) v) : t.holds b (f.set i v) := by
  intro j hj
  rw [hm, Memory.get_set, List.getElem_set]
  by_cases hji : j = i
  · rw [if_pos (by omega), if_pos hji.symm]
  · rw [if_neg (by omega), if_neg (Ne.symm hji)]
    exact h j _

/-- A byte with one bit flipped is another byte. -/
theorem xor_bit_ne (v : Byte) {k : Nat} (hk : k < 8) : v ^^^ (1#8 <<< k) ≠ v := by
  intro he
  have zero : 1#8 <<< k = 0#8 := by
    rw [← BitVec.zero_xor (x := 1#8 <<< k), ← BitVec.xor_self (x := v), BitVec.xor_assoc, he]
  interval_cases k <;> revert zero <;> decide

/-- Settles O22: BUILD leaves a good frame, the flipped bit changes one of its bytes, and PARSE TX fails the check of that
byte. -/
theorem oneFlippedBitIsRejected : Obligations.OneFlippedBitIsRejected := by
  intro s t t' i k v hb he len hi hk hv hfl hm
  obtain ⟨f, good, hlen, hle, hft, held⟩ := exec_build_goodFrame hb he
  have len_eq : f.length = 12 + len := hlen
  have hif : i < f.length := by omega
  obtain rfl : v = f.getD i 0 := by
    have hfi : t.mem.get (0x200 + i) = some f[i] := held i hif
    rw [hv, Option.some.injEq] at hfi
    rw [hfi, List.getD_eq_getElem _ _ hif]
  have parses : t'.parses .parseTx .txbuf (f.set i (f.getD i 0 ^^^ (1#8 <<< k))).length :=
    .inr ⟨rfl, rfl, by rw [List.length_set, hfl, hft]⟩
  refine ⟨_, parses.exec_holds (by rw [List.length_set]; omega) (State.holds_set held hm), ?_⟩
  rw [State.complete_errcode, good.parseList_set hif (xor_bit_ne _ hk), len_eq, ParseOutcome.errCode, byteCheck,
    show 12 + len - 1 = 11 + len by omega]

end Sys2Proof.Machine
end

section
/-! PROOF. ADDR_ENCODE and BUILD (41_codec.md R97, R98): what they store when their operands are present. -/

namespace Sys2Proof.Machine

/-! ### ADDR_ENCODE -/

/-- The number a pair of characters of a digit string stands for (30_encoding.md R76). -/
def digitPair (p : List Byte) (k : Nat) : Nat := 16 * hexVal (p.getD (2 * k) 0) + hexVal (p.getD (2 * k + 1) 0)

/-- The digit string of ADDR_ENCODE: the characters padded on the left with '0' to twelve (41_codec.md R97). -/
def paddedAddress (cs : List Byte) : List Byte := List.replicate (12 - cs.length) 0x30#8 ++ cs

theorem paddedAddress_length {cs : List Byte} (h : cs.length ≤ 12) : (paddedAddress cs).length = 12 := by
  rw [paddedAddress, List.length_append, List.length_replicate]
  omega

/-- The pairs of a digit string, in order, by induction on its pairs. -/
theorem digitPairs_eq_map (p : List Byte) :
    digitPairs p = (List.range (p.length / 2)).map fun k => BitVec.ofNat 8 (digitPair p k) := by
  induction p using digitPairs.induct with
  | case1 hi lo cs ih =>
    rw [digitPairs, ih, List.length_cons, List.length_cons, Nat.add_assoc, Nat.add_div_right _ (by decide),
      List.range_succ_eq_map, List.map_cons, List.map_map]
    rfl
  | case2 p h =>
    match p, h with
    | [], _ => rfl
    | [_], _ => simp [digitPairs]
    | hi :: lo :: cs, h => exact absurd rfl (h hi lo cs)

/-- The wire address of twelve characters has the last pair first (30_encoding.md R76). -/
theorem wireAddress_of_length {p : List Byte} (h : p.length = 12) :
    wireAddress p = [5, 4, 3, 2, 1, 0].map fun k => BitVec.ofNat 8 (digitPair p k) := by
  rw [wireAddress, digitPairs_eq_map, h, ← List.map_reverse]
  rfl

/-- A pair of hex digits is a byte. -/
theorem digitPair_lt {p : List Byte} (hp : ∀ c ∈ p, isHex c = true) {k : Nat} (hk : 2 * k + 1 < p.length) :
    digitPair p k < 256 := by
  have digit : ∀ {j}, j < p.length → hexVal (p.getD j 0) < 16 := fun hj => by
    rw [List.getD_eq_getElem _ _ hj]
    exact hexVal_lt (hp _ (List.getElem_mem hj))
  have h1 := digit (show 2 * k < p.length by omega)
  have h2 := digit hk
  rw [digitPair]
  omega

/-- A word assembled from the bytes of four numbers (40_commands.md R95). -/
theorem le32_ofNat {a b c : Nat} (d : Nat) (ha : a < 256) (hb : b < 256) (hc : c < 256) :
    le32 (BitVec.ofNat 8 a) (BitVec.ofNat 8 b) (BitVec.ofNat 8 c) (BitVec.ofNat 8 d) =
      BitVec.ofNat 32 (a + 256 * b + 65536 * c + 16777216 * d) := by
  apply BitVec.eq_of_toNat_eq
  simp only [le32_toNat, BitVec.toNat_ofNat]
  omega

/-- A half word assembled from the bytes of two numbers. -/
theorem append_ofNat {a : Nat} (b : Nat) (ha : a < 256) :
    BitVec.ofNat 8 b ++ BitVec.ofNat 8 a = BitVec.ofNat 16 (a + 256 * b) := by
  apply BitVec.eq_of_toNat_eq
  simp only [toNat_append_eq_add, BitVec.toNat_ofNat]
  omega

/-- A character that is no hex digit ends ADDR_ENCODE with InvalidAddress (41_codec.md R97). -/
theorem encodeAddress_of_not_hex (s : State) {cs : List Byte} (h : ∃ c ∈ paddedAddress cs, isHex c = false) :
    s.encodeAddress cs = s.complete .invalidAddress := by
  have notAll : ¬ (paddedAddress cs).all isHex = true := by simpa using h
  exact if_neg notAll

/-- ADDR_ENCODE of at most twelve hex digits stores their pairs, the last in the lowest byte (41_codec.md R97). -/
theorem encodeAddress_of_hex (s : State) {cs : List Byte} (hl : cs.length ≤ 12)
    (h : ∀ c ∈ paddedAddress cs, isHex c = true) :
    s.encodeAddress cs = ({ s with
      addrLo := BitVec.ofNat 32 (digitPair (paddedAddress cs) 5 + 256 * digitPair (paddedAddress cs) 4 +
        65536 * digitPair (paddedAddress cs) 3 + 16777216 * digitPair (paddedAddress cs) 2)
      addrHi := BitVec.ofNat 16 (digitPair (paddedAddress cs) 1 + 256 * digitPair (paddedAddress cs) 0) } : State).complete
        .ok := by
  have len := paddedAddress_length hl
  have byte : ∀ k < 6, digitPair (paddedAddress cs) k < 256 := fun k hk => digitPair_lt h (by omega)
  have wire := wireAddress_of_length len
  rw [← le32_ofNat _ (byte 5 (by decide)) (byte 4 (by decide)) (byte 3 (by decide)),
    ← append_ofNat _ (byte 1 (by decide))]
  refine (if_pos (List.all_eq_true.mpr h)).trans ?_
  rw [paddedAddress] at wire
  rw [wire]
  rfl

/-- ADDR_ENCODE of characters that are present (41_codec.md R97). -/
theorem exec_addrEncode_holds {s : State} {cs : List Byte} (hn : cs.length = s.addrstrLen.toNat) (hl : cs.length ≤ 12)
    (hf : s.holds .addrstr cs) : exec .addrEncode s = .next (s.encodeAddress cs) := by
  have read := State.bufPrefix_holds (show cs.length ≤ Buf.addrstr.size by simp only [Buf.size]; omega) hf
  rw [exec, execAddrEncode, if_neg (by omega), ← hn, read, readThen_ok]

/-- Settles O12: the length check, then the check of the padded characters, decide between the two completions. -/
theorem addrEncodeReversesDigitPairs : Obligations.AddrEncodeReversesDigitPairs := by
  refine ⟨decodeWord_encode (i := .addrEncode) rfl, fun s => ⟨fun hn => if_pos hn, fun cs hn hl hf => ?_⟩⟩
  rw [exec_addrEncode_holds hn hl hf]
  exact ⟨fun h => congrArg _ (encodeAddress_of_not_hex s h), fun h => congrArg _ (encodeAddress_of_hex s hl h)⟩

/-! ### BUILD -/

/-- BUILD of a payload that is present makes the frame of its operands in TXBUF (41_codec.md R98). -/
theorem exec_build_holds {s : State} {p : List Byte} (hl : s.buildLen ≤ 255) (hp : p.length = s.plen.toNat)
    (hf : s.holds .payload p) :
    exec .build s = .next (({ s.setBuf .txbuf (frameOf s.addrBytes s.ctrlcode (s.diBytes ++ p)) with
      frameLen := BitVec.ofNat 10 (12 + s.buildLen) } : State).complete .ok) := by
  have read := State.bufPrefix_holds (show p.length ≤ Buf.payload.size by have := s.plen.isLt; simp only [Buf.size]; omega) hf
  rw [exec, execBuild, if_neg (by omega), ← hp, read, readThen_ok]

/-- The frame BUILD makes is 12 bytes longer than its data field (41_codec.md R98). -/
theorem buildFrame_length {s : State} {p : List Byte} (hp : p.length = s.plen.toNat) :
    (frameOf s.addrBytes s.ctrlcode (s.diBytes ++ p)).length = 12 + s.buildLen := by
  rw [frameOf_length, diBytes_append_length hp, s.addrBytes_length]
  omega

/-- Settles O13: TXBUF is written with the frame from its first byte on, and nothing outside it. -/
theorem buildMakesTheFrame : Obligations.BuildMakesTheFrame := by
  refine ⟨decodeWord_encode (i := .build) rfl, fun s => ?_⟩
  intro len
  refine ⟨fun hl => if_pos hl, fun p hl hp hf => ?_⟩
  intro d body
  have frame : frameOf s.addrBytes s.ctrlcode (s.diBytes ++ p) =
      body ++ [BitVec.ofNat 8 (body.map BitVec.toNat).sum, 0x16#8] := by
    have hbody : frameBody s.addrBytes s.ctrlcode (s.diBytes ++ p) = body := by
      rw [frameBody, diBytes_append_length hp]
      rfl
    rw [frameOf_eq_frameBody, hbody]
    rfl
  refine ⟨_, exec_build_holds hl hp hf, rfl, ?_, fun a ha => Memory.get_setBytes_out _ _ _ ?_⟩
  · rw [← frame]
    exact State.setBuf_holds s .txbuf _
  · have stop : Buf.txbuf.base + (12 + s.buildLen) = 0x200 + 12 + len := (Nat.add_assoc 0x200 12 len).symm
    rw [buildFrame_length hp, stop]
    exact ha

end Sys2Proof.Machine
end

section
/-! PROOF. PARSE of bytes that are present (41_codec.md R99 to R101, R131): the fields of a good frame, the first check that fails,
and the frame that BUILD made (R102). -/

namespace Sys2Proof.Machine

/-! ### A good frame -/

/-- The data field is split into an identifier, if it has four bytes, and the payload (41_codec.md R99). -/
theorem parsedData_eq (c l : Byte) (d : List Byte) :
    parsedData c l d = .ok c l (decide (4 ≤ d.length))
      (if 4 ≤ d.length then le32 (d.getD 0 0) (d.getD 1 0) (d.getD 2 0) (d.getD 3 0) else 0#32)
      (if 4 ≤ d.length then d.drop 4 else d) := by
  match d with
  | [] | [_] | [_, _] | [_, _, _] => rfl
  | d0 :: d1 :: d2 :: d3 :: p => simp [parsedData]

/-- A good frame parses to its fields and its unmasked data (41_codec.md R99). -/
theorem GoodFrame.parseList_eq {f : List Byte} (h : GoodFrame f) :
    parseList f = parsedData (f.getD 8 0) (f.getD 9 0) (((f.drop 10).take (f.length - 12)).map unmask) := by
  have data : (f.take (f.length - 2)).drop 10 = (f.drop 10).take (f.length - 12) := by
    rw [List.drop_take, Nat.sub_sub]
  simp only [parseList, Nat.not_lt.mpr h.length, h.start, h.endMarker, h.secondStart, h.dataLength, h.checksum, data,
    if_false, ne_eq, not_true_eq_false]

/-- The checksum of a byte list against a byte, as numbers (40_commands.md R93). -/
theorem checksum_eq_iff (bs : List Byte) (b : Byte) : checksum bs = b ↔ (bs.map BitVec.toNat).sum % 256 = b.toNat := by
  rw [← BitVec.toNat_inj, checksum, BitVec.toNat_ofNat]

/-- A PARSE whose parse succeeds stores the fields and, in RXDATA, the payload, and changes nothing else (41_codec.md R100,
R101). -/
theorem State.parses.exec_of_ok {s : State} {i : Instr} {b : Buf} {f : List Byte} (h : s.parses i b f.length)
    (hn : f.length ≤ 512) (hf : s.holds b f) {c l : Byte} {hasDi : Bool} {di : Word} {p : List Byte}
    (hp : parseList f = .ok c l hasDi di p) :
    ∃ t, exec i s = .next t ∧
      t = { s with
        mem := t.mem, rxCtrl := c, rxL := l, rxHasDi := hasDi, rxPlen := BitVec.ofNat 8 p.length, rxDi := di
        done := true, errcode := .ok, xstate := .idle, pendOp := 0#4, pendLat := 0 } ∧
      t.holds .rxdata p ∧ ∀ a, a < 0x600 ∨ 0x600 + p.length ≤ a → t.mem.get a = s.mem.get a := by
  refine ⟨_, h.exec_holds hn hf, ?_⟩
  rw [hp]
  exact ⟨rfl, State.setBuf_holds s .rxdata p, fun a ha => Memory.get_setBytes_out _ _ _ ha⟩

/-- Settles O14: the checks pass, so the parse of the bytes is the split of their data, which the command applies. -/
theorem parseAcceptsAGoodFrame : Obligations.ParseAcceptsAGoodFrame := by
  intro s i b n f (hc : s.parses i b n) hlen hn hn' hf h0 hE h7 h9 hsum
  subst hlen
  have good : GoodFrame f := ⟨hn, h0, hE, h7, h9, (checksum_eq_iff _ _).mpr hsum⟩
  exact hc.exec_of_ok hn' hf (good.parseList_eq.trans (parsedData_eq _ _ _))

/-! ### The first check that fails -/

/-- Fewer than 12 bytes fail without a read (41_codec.md R99). -/
theorem parse_short (rd : Nat → Except Fault Byte) {n : Nat} (hn : n < 12) : parse rd n = .ok (.fail .frameTooShort) :=
  if_pos hn

/-- A wrong checksum is found once every check before it has passed (41_codec.md R99). -/
theorem parseList_checksum_wrong {f : List Byte} (hn : 12 ≤ f.length) (h0 : f.getD 0 0 = 0x68#8)
    (hE : f.getD (f.length - 1) 0 = 0x16#8) (h7 : f.getD 7 0 = 0x68#8) (h9 : (f.getD 9 0).toNat = f.length - 12)
    (hsum : checksum (f.take (f.length - 2)) ≠ f.getD (f.length - 2) 0) : parseList f = .fail .checksumMismatch := by
  simp only [parseList, Nat.not_lt.mpr hn, h0, hE, h7, h9, hsum, if_false, if_true, ne_eq, not_true_eq_false,
    not_false_eq_true]

/-- A PARSE whose parse fails clears the parse results and completes with the code of the failure (41_codec.md R100, R101). -/
theorem State.parses.exec_of_fail {s : State} {i : Instr} {b : Buf} {n : Nat} {e : ErrCode} (h : s.parses i b n)
    (hn : n ≤ 512) (hp : parse (s.bufByte b) n = .ok (.fail e)) : exec i s = .next (s.clearParse.complete e) := by
  rw [h.exec_eq, State.parseBuf, if_neg (by omega), hp]
  rfl

/-- Settles O15: each clause names the check that fails, the checks before it having passed. -/
theorem parseReportsTheFirstFailure : Obligations.ParseReportsTheFirstFailure := by
  intro s i b n (hc : s.parses i b n) failed
  refine ⟨fun hn => ?_, fun hn => hc.exec_of_fail (by omega) (parse_short _ hn), fun f hlen hn hn' hf => ?_⟩
  · rw [hc.exec_eq]
    exact if_pos hn
  subst hlen
  have size : f.length ≤ b.size := hc.size ▸ hn'
  have read : ∀ {k}, k < f.length → s.bufByte b k = .ok (f.getD k 0) := fun hk => State.holds_bufByte size hf hk
  have r0 := read (show 0 < f.length by omega)
  have rE := read (show f.length - 1 < f.length by omega)
  have r7 := read (show 7 < f.length by omega)
  have r9 := read (show 9 < f.length by omega)
  refine ⟨fun hm => hc.exec_of_fail hn' ?_, fun h0 hE => ?_⟩
  · by_cases h0 : f.getD 0 0 = 0x68#8
    · exact parse_end_wrong hn (h0 ▸ r0) rE (hm.resolve_left (not_not.mpr h0))
    · exact parse_start_wrong hn r0 h0
  rw [h0] at r0
  rw [hE] at rE
  refine ⟨fun h7 => hc.exec_of_fail hn' (parse_second_wrong hn r0 rE r7 h7), fun h7 => ?_⟩
  rw [h7] at r7
  refine ⟨fun h9 => hc.exec_of_fail hn' (parse_length_wrong hn r0 rE r7 r9 h9), fun h9 hsum => ?_⟩
  have wrong := parseList_checksum_wrong hn h0 hE h7 h9 (mt (checksum_eq_iff _ _).mp hsum)
  exact hc.exec_of_fail hn' ((parse_holds size hf).trans (congrArg _ wrong))

/-! ### BUILD, then PARSE -/

/-- A frame of an address of six bytes and at most 255 data bytes parses to its control byte, its length and its data: unmasking
undoes the mask (41_codec.md R102). -/
theorem parseList_frameOf {addr : List Byte} (c : Byte) {d : List Byte} (ha : addr.length = 6) (hd : d.length ≤ 255) :
    parseList (frameOf addr c d) = parsedData c (BitVec.ofNat 8 d.length) d := by
  have header : (frameOf addr c d).getD 8 0 = c ∧ (frameOf addr c d).getD 9 0 = BitVec.ofNat 8 d.length ∧
      (frameOf addr c d).drop 10 = d.map mask ++ [checksum (frameBody addr c d), 0x16#8] := by
    rw [frameOf_eq_frameBody]
    match addr, ha with
    | [_, _, _, _, _, _], _ => exact ⟨rfl, rfl, rfl⟩
  obtain ⟨control, length, data⟩ := header
  have size : (frameOf addr c d).length - 12 = (d.map mask).length := by
    rw [frameOf_length, ha, List.length_map]
    omega
  rw [(goodFrame_frameOf c ha hd).parseList_eq, control, length, data, size, List.take_left,
    Function.LeftInverse.list_map unmask_mask]

/-- After a BUILD that completes with OK, PARSE TX finds a frame that parses to BUILD's control byte, length and data field
(41_codec.md R102). -/
theorem parses_after_build {s t t' : State} (h : exec .build s = .next t) (he : t.errcode = .ok) (hm : t'.mem = t.mem)
    (hl : t'.frameLen = t.frameLen) :
    s.buildLen ≤ 255 ∧ ∃ p : List Byte, p.length = s.plen.toNat ∧ s.holds .payload p ∧
      ∃ f : List Byte, f.length ≤ 512 ∧ t'.holds .txbuf f ∧ t'.parses .parseTx .txbuf f.length ∧
        parseList f = parsedData s.ctrlcode (BitVec.ofNat 8 s.buildLen) (s.diBytes ++ p) := by
  obtain ⟨hL, p, hp, payload, rfl⟩ := exec_build_ok h he
  have len := buildFrame_length hp
  have data := diBytes_append_length hp
  refine ⟨hL, p, hp, payload, frameOf s.addrBytes s.ctrlcode (s.diBytes ++ p), by omega, ?_, .inr ⟨rfl, rfl, ?_⟩, ?_⟩
  · unfold State.holds
    rw [hm]
    exact State.setBuf_holds s .txbuf _
  · rw [hl, len, State.complete_frameLen, BitVec.toNat_ofNat]
    omega
  · rw [parseList_frameOf _ s.addrBytes_length (by omega), data]

/-- An identifier in BUILD's data field is split off again (41_codec.md R102). -/
theorem parsedData_of_hasDi {s : State} (h : s.hasDi = true) (c l : Byte) (p : List Byte) :
    parsedData c l (s.diBytes ++ p) = .ok c l true s.di p := by
  rw [State.diBytes, if_pos h]
  nth_rw 2 [← le32_lanes s.di]
  rfl

/-- A byte lane of a word assembled from the first four bytes of a list. -/
theorem lane_le32_getD (p : List Byte) {k : Nat} (hk : k < 4) :
    (le32 (p.getD 0 0) (p.getD 1 0) (p.getD 2 0) (p.getD 3 0)).extractLsb' (8 * k) 8 = p.getD k 0 := by
  have lanes := bytesLe_le32 (p.getD 0 0) (p.getD 1 0) (p.getD 2 0) (p.getD 3 0)
  simp only [bytesLe, List.cons.injEq, and_true] at lanes
  obtain ⟨h0, h1, h2, h3⟩ := lanes
  match k, hk with
  | 0, _ => exact h0
  | 1, _ => exact h1
  | 2, _ => exact h2
  | 3, _ => exact h3

/-- Settles O21: the frame parses to BUILD's data field, which is split by whether BUILD put an identifier in front and by the
length of the payload. -/
theorem buildThenParseRecoversTheFields : Obligations.BuildThenParseRecoversTheFields := by
  intro s t t' hb he hm hl
  obtain ⟨hL, p, hp, payload, f, hf, held, parses, parsed⟩ := parses_after_build hb he hm hl
  have length : (BitVec.ofNat 8 s.buildLen).toNat = (if s.hasDi then 4 else 0) + s.plen.toNat := by
    rw [BitVec.toNat_ofNat, Nat.mod_eq_of_lt (by omega), State.buildLen]
  have plen : BitVec.ofNat 8 p.length = s.plen := by rw [hp, BitVec.ofNat_toNat, BitVec.setWidth_eq]
  cases hd : s.hasDi with
  | true =>
    obtain ⟨u, hu, frame, rxdata, -⟩ := parses.exec_of_ok hf held (parsed.trans (parsedData_of_hasDi hd _ _ p))
    refine ⟨u, hu, by rw [frame], by rw [frame], by rw [frame, length, hd], fun _ => ⟨by rw [frame], by rw [frame], ?_, ?_⟩,
      nofun, nofun⟩
    · rw [frame, plen]
    · exact fun i hi => (rxdata i (hp ▸ hi)).trans (payload i (hp ▸ hi)).symm
  | false =>
    have noDi : s.diBytes = [] := by rw [State.diBytes, hd]; rfl
    rw [noDi, List.nil_append, parsedData_eq] at parsed
    rcases Nat.lt_or_ge p.length 4 with short | long
    · simp only [Nat.not_le.mpr short, decide_false, if_false] at parsed
      obtain ⟨u, hu, frame, rxdata, -⟩ := parses.exec_of_ok hf held parsed
      refine ⟨u, hu, by rw [frame], by rw [frame], by rw [frame, length, hd], nofun,
        fun _ _ => ⟨by rw [frame], by rw [frame], ?_, ?_⟩, fun _ hlong => absurd hlong (by omega)⟩
      · rw [frame, plen]
      · exact fun i hi => (rxdata i (hp ▸ hi)).trans (payload i (hp ▸ hi)).symm
    · simp only [long, decide_true, if_true] at parsed
      obtain ⟨u, hu, frame, rxdata, -⟩ := parses.exec_of_ok hf held parsed
      refine ⟨u, hu, by rw [frame], by rw [frame], by rw [frame, length, hd], nofun,
        fun _ hshort => absurd hshort (by omega), fun _ _ => ⟨by rw [frame], fun k hk => ?_, ?_, fun i hi => ?_⟩⟩
      · rw [frame, lane_le32_getD p hk, List.getD_eq_getElem _ _ (by omega)]
        exact payload k (by omega)
      · rw [frame, List.length_drop, BitVec.toNat_ofNat]
        omega
      · have stored := rxdata i (by rw [List.length_drop]; omega)
        rw [List.getElem_drop] at stored
        rw [show 0x104 + i = 0x100 + (4 + i) by omega]
        exact stored.trans (payload (4 + i) (by omega)).symm

end Sys2Proof.Machine
end

section
/-! PROOF. One cycle of ACCUM (42_transceiver.md R114 to R116): what it decides on, and how a failed attempt ends. -/

namespace Sys2Proof.Machine

/-! ### The character and the counts of a cycle -/

/-- The wait count of a cycle as R96 and R114 write it: a tick counts unless the counter is full. -/
theorem waitCount_eq (tick : Bool) (n : BitVec 16) :
    waitCount tick n = if tick = true ∧ n ≠ 0xFFFF#16 then n + 1#16 else n := by
  cases tick with
  | false => rfl
  | true =>
    rw [waitCount, sat16, if_pos rfl]
    by_cases hn : n = 0xFFFF#16
    · rw [if_pos hn, if_neg (not_and_not_right.mpr fun _ => hn)]
    · rw [if_neg hn, if_pos ⟨rfl, hn⟩]

/-- The choices of the outside do not bear on a taken character. -/
theorem takeChar_advance (s : State) (c : RxChar) : s.advance.takeChar c = (s.takeChar c).advance := by
  by_cases hroom : s.rxLen.toNat < 512
  · rw [takeChar_of_room hroom, takeChar_of_room (s := s.advance) hroom]
    rfl
  · rw [takeChar_of_full hroom, takeChar_of_full (s := s.advance) hroom]
    rfl

theorem rxPhase_advance (s : State) (x0 : XState) (rx : Option RxChar) :
    s.advance.rxPhase x0 rx = (s.rxPhase x0 rx).advance := by
  cases rx with
  | none => rfl
  | some c =>
    simp only [State.rxPhase, takeChar_advance]
    split <;> rfl

/-- The state a quiet cycle of ACCUM decides on: the character taken, the tick counted (00_scope.md R11, 42_transceiver.md
R114). -/
def State.accumFront (s : State) : State :=
  ((s.rxPhase .accum s.choice.rx).advance.answer none).tickPhase.accumCount s.choice.rx.isSome s.tick

/-- A received character leaves the prescaler. -/
theorem rxPhase_tick (s : State) (x0 : XState) (rx : Option RxChar) : (s.rxPhase x0 rx).tick = s.tick := by
  rw [rxPhase_frame]
  rfl

/-- The deciding state against the state after the cycle's character, and against the start of the cycle. -/
theorem accumFront_frame (s : State) :
    s.accumFront = { s with
      rxLen := (s.rxPhase .accum s.choice.rx).rxLen, rxOvf := (s.rxPhase .accum s.choice.rx).rxOvf
      rxPerr := (s.rxPhase .accum s.choice.rx).rxPerr, rxFerr := (s.rxPhase .accum s.choice.rx).rxFerr
      mem := (s.rxPhase .accum s.choice.rx).mem, presc := s.tickPhase.presc
      icnt := if s.choice.rx.isSome then 0#16 else waitCount s.tick s.icnt
      ccnt := waitCount s.tick s.ccnt, rdata := none, inputs := s.inputs.tail, cycle := s.cycle + 1 } := by
  rw [State.accumFront, rxPhase_frame]
  rfl

/-- The deciding state holds the bytes received up to this cycle's character. -/
theorem accumFront_bufByte (s : State) : s.accumFront.bufByte = (s.rxPhase .accum s.choice.rx).bufByte := by
  rw [accumFront_frame]
  funext b i
  simp only [State.bufByte]

/-- What a quiet cycle of ACCUM decides (42_transceiver.md R114, R115). -/
theorem step_of_accum {s : State} (hx : s.xstate = .accum) (hq : hostQuiet s.choice) :
    step s =
      if (s.rxPhase .accum s.choice.rx).rxLen ≠ 0#10 ∧ s.tInact.toNat ≤ s.accumFront.icnt.toNat then
        readThen (parse ((s.rxPhase .accum s.choice.rx).bufByte .rxbuf) (s.rxPhase .accum s.choice.rx).rxLen.toNat) fun r =>
          .next (s.accumFront.respond r)
      else if (s.rxPhase .accum s.choice.rx).rxLen = 0#10 ∧ s.tCeil.toNat ≤ s.accumFront.ccnt.toNat then
        .next (s.accumFront.attemptFailed .noResponse)
      else .next s.accumFront := by
  have rxLen : (s.rxPhase .accum s.choice.rx).rxLen = s.accumFront.rxLen := by rw [accumFront_frame]
  have tInact : s.tInact = s.accumFront.tInact := by rw [accumFront_frame]
  have tCeil : s.tCeil = s.accumFront.tCeil := by rw [accumFront_frame]
  rw [rxLen, tInact, tCeil, ← accumFront_bufByte, step_of_hostQuiet hq, hx, commitPhase_not_codec (by simp [hx]), thenDo_next,
    State.linePhases, rxPhase_answer, rxPhase_advance, State.accumFront, ← rxPhase_tick s .accum s.choice.rx]
  rfl

/-! ### How the cycle ends -/

/-- A PARSE RX whose parse answers applies it. -/
theorem exec_parseRx_of_parse {u : State} {r : ParseOutcome} (hn : u.rxLen.toNat ≤ 512)
    (hp : parse (u.bufByte .rxbuf) u.rxLen.toNat = .ok r) :
    exec .parseRx u = .next ((u.applyParse r).complete r.errCode) := by
  rw [exec, execParseRx, State.parseBuf, if_neg (by omega), hp, readThen_ok]

/-- What the end of an attempt with code `e` leaves (42_transceiver.md R116), when it started the cycle in `s` and received up to
`u`. -/
def AttemptFailed (s u t : State) (e : ErrCode) : Prop :=
  t.lastErr = e ∧ t.rxLen = u.rxLen ∧ t.mem = u.mem ∧
  (s.attempt.toNat < s.maxAttempts.toNat →
    t.xstate = .retryWait ∧ t.wcnt = 0#16 ∧ t.done = false ∧ t.rxCtrl = s.rxCtrl ∧ t.rxL = s.rxL ∧
    t.rxHasDi = s.rxHasDi ∧ t.rxPlen = s.rxPlen ∧ t.rxDi = s.rxDi) ∧
  (s.maxAttempts.toNat ≤ s.attempt.toNat →
    t.xstate = .idle ∧ t.done = true ∧ t.errcode = .noResponse ∧ t.rxCtrl = 0#8 ∧ t.rxL = 0#8 ∧
    t.rxHasDi = false ∧ t.rxPlen = 0#8 ∧ t.rxDi = 0#32)

/-- A failure that the cycle decides on ends the attempt as R116 says: nothing between the character and the decision bears on
it. -/
theorem attemptFailed_accumFront {s : State} (hd : s.done = false) (e : ErrCode) :
    AttemptFailed s (s.rxPhase .accum s.choice.rx) (s.accumFront.attemptFailed e) e := by
  rw [accumFront_frame]
  rcases Nat.lt_or_ge s.attempt.toNat s.maxAttempts.toNat with h | h
  · rw [attemptFailed_retry e (by exact h)]
    exact ⟨rfl, rfl, rfl, fun _ => ⟨rfl, rfl, hd, rfl, rfl, rfl, rfl, rfl⟩, fun hl => absurd h (Nat.not_lt.mpr hl)⟩
  · rw [attemptFailed_last e (by exact h)]
    exact ⟨rfl, rfl, rfl, fun hl => absurd hl (Nat.not_lt.mpr h), fun _ => ⟨rfl, rfl, rfl, rfl, rfl, rfl, rfl, rfl⟩⟩

theorem attemptFailed_attempt (s : State) (e : ErrCode) : (s.attemptFailed e).attempt = s.attempt := by
  simp only [State.attemptFailed]
  split <;> rfl

theorem respond_attempt (s : State) (r : ParseOutcome) : (s.respond r).attempt = s.attempt := by
  cases r with
  | ok => rfl
  | fail e => exact attemptFailed_attempt s e

/-- A parse whose bytes can all be read answers. -/
theorem parse_answers {rd : Nat → Except Fault Byte} {n : Nat} (h : ∀ i < n, ∃ v, rd i = .ok v) :
    ∃ r, parse rd n = .ok r := by
  rcases parse_cases rd n with ⟨_, _, _, _, _, hp, -⟩ | ⟨_, hp, -⟩ | ⟨f, i, -, hi, hf⟩
  · exact ⟨_, hp⟩
  · exact ⟨_, hp⟩
  · obtain ⟨v, hv⟩ := h i hi
    cases hv.symm.trans hf

/-- A parse that fails has a code other than OK. -/
theorem parse_fail_ne_ok {rd : Nat → Except Fault Byte} {n : Nat} {e : ErrCode} (h : parse rd n = .ok (.fail e)) :
    e ≠ .ok := by
  rcases parse_cases rd n with ⟨_, _, _, _, _, hp, -⟩ | ⟨e', hp, hm⟩ | ⟨_, _, hp, -⟩ <;> rw [hp] at h <;> cases h
  rintro rfl
  exact absurd hm (by decide)

/-- Settles O47: the cycle decides on the counts after its tick; from a state of the invariant the bytes the parse reads are
present. -/
theorem accumulationEndsBySilenceOrCeiling : Obligations.AccumulationEndsBySilenceOrCeiling := by
  intro s h hx hq
  have hd : s.done = false := (h.busyNotDone (by simp [hx])).1
  have hu : (s.rxPhase .accum s.choice.rx).Inv := by rw [← hx]; exact inv_rx h s.choice.rx
  obtain ⟨room, received⟩ := hu.received (by rw [rxPhase_xstate, hx]; rfl)
  have failure := attemptFailed_accumFront hd
  have front := accumFront_frame s
  intro u tk ic cc failed
  have icnt : s.accumFront.icnt = ic := by
    rw [front]
    simp only [waitCount_eq, ic, tk, State.tick, beq_iff_eq, decide_eq_true_eq]
  have ccnt : s.accumFront.ccnt = cc := by
    rw [front]
    simp only [waitCount_eq, cc, tk, State.tick, beq_iff_eq, decide_eq_true_eq]
  rw [step_of_accum hx hq, icnt, ccnt]
  by_cases silence : u.rxLen ≠ 0#10 ∧ s.tInact.toNat ≤ ic.toNat
  · rw [if_pos silence]
    obtain ⟨r, hr⟩ := parse_answers fun i hi => bufByte_present (show i < 512 by omega) (received i hi)
    rw [hr, readThen_ok]
    refine ⟨_, rfl, ?_, fun _ _ => ⟨_, exec_parseRx_of_parse room hr, ?_⟩, fun hz => absurd hz silence.1, ?_⟩
    · rw [respond_attempt, front]
    · cases r with
      | ok c l hasDi di p =>
        rw [front]
        exact ⟨fun _ => ⟨rfl, rfl, rfl, rfl, rfl, rfl, rfl, rfl, rfl, rfl, rfl⟩, fun hne => absurd rfl hne⟩
      | fail e => exact ⟨fun he => absurd he (parse_fail_ne_ok hr), fun _ => failure e⟩
    · rintro (⟨-, hi⟩ | ⟨hz, -⟩)
      · omega
      · exact absurd hz silence.1
  rw [if_neg silence]
  by_cases ceiling : u.rxLen = 0#10 ∧ s.tCeil.toNat ≤ cc.toNat
  · rw [if_pos ceiling]
    refine ⟨_, rfl, ?_, fun hz => absurd ceiling.1 hz, fun _ _ => failure .noResponse, ?_⟩
    · rw [attemptFailed_attempt, front]
    · rintro (⟨hz, -⟩ | ⟨-, hc⟩)
      · exact absurd ceiling.1 hz
      · omega
  · rw [if_neg ceiling]
    refine ⟨_, rfl, by rw [front], fun hz hi => absurd ⟨hz, hi⟩ silence, fun hz hc => absurd ⟨hz, hc⟩ ceiling, fun _ => ?_⟩
    exact ⟨by rw [front, hx], icnt, ccnt, by rw [front], by rw [front], by rw [front]⟩

end Sys2Proof.Machine
end

section
/-! PROOF. EXCHANGE at its ends: its two rejections and its start (42_transceiver.md R108, R109), and the completion it ends with
(R116, 60_exceptions.md R126). -/

namespace Sys2Proof.Machine

/-! ### Acceptance -/

/-- EXCHANGE checks the frame length first (42_transceiver.md R108). -/
theorem exec_exchange_badFrameLength {s : State} (h : s.frameLen.toNat = 0 ∨ 512 < s.frameLen.toNat) :
    exec .exchange s = .next (s.complete .badFrameLength) := by
  have bad : s.frameLen = 0#10 ∨ 512 < s.frameLen.toNat := h.imp_left fun h0 => BitVec.eq_of_toNat_eq h0
  rw [exec, execExchange, if_pos bad]

/-- With the frame length in range EXCHANGE checks the configuration (42_transceiver.md R108). -/
theorem exec_exchange_badConfig {s : State} (hf : 1 ≤ s.frameLen.toNat) (hf' : s.frameLen.toNat ≤ 512)
    (h : s.baudDiv.toNat = 0 ∨ s.maxAttempts.toNat = 0) : exec .exchange s = .next (s.complete .badConfig) := by
  have inRange : ¬(s.frameLen = 0#10 ∨ 512 < s.frameLen.toNat) := by
    rintro (h0 | h0)
    · simp [h0] at hf
    · omega
  have bad : s.baudDiv = 0#16 ∨ s.maxAttempts = 0#4 :=
    h.imp (fun h0 => BitVec.eq_of_toNat_eq h0) fun h0 => BitVec.eq_of_toNat_eq h0
  rw [exec, execExchange, if_neg inRange, if_pos bad]

/-- Settles O18: the two rejections complete and do nothing else; otherwise the first attempt starts. -/
theorem exchangeStartsItsFirstAttempt : Obligations.ExchangeStartsItsFirstAttempt := by
  refine fun s => ⟨fun h => ?_, fun hf hf' h => ?_, fun hf hf' hb hm => ?_⟩
  · rw [exec_exchange_badFrameLength h]
    rfl
  · rw [exec_exchange_badConfig hf hf' h]
    rfl
  · rw [exec_exchange_starts hf hf' hb hm]
    rfl

/-! ### The end -/

/-- Of the states of an EXCHANGE only ACCUM leads to IDLE (42_transceiver.md R118). -/
theorem XState.eq_accum_of_idle_mem_successors {x : XState} (hx : x.inExchange = true) (h : XState.idle ∈ x.successors) :
    x = .accum := by
  revert hx h
  cases x <;> decide

/-- How an EXCHANGE may have ended in `t`, its attempts counted in `s` (42_transceiver.md R116, 60_exceptions.md R126). -/
def EndsExchange (s t : State) : Prop :=
  t.done = true ∧ t.attempt = s.attempt ∧
  (t.errcode = .ok ∨
    (t.errcode = .noResponse ∧ t.attempt = t.maxAttempts ∧ t.lastErr ∈ [ErrCode.frameTooShort, .invalidFrameMarkers,
      .invalidSecondStart, .lengthMismatch, .checksumMismatch, .noResponse]))

/-- A failed attempt that leads to IDLE was the last one, and ends the EXCHANGE with NoResponse (42_transceiver.md R116). -/
theorem endsExchange_attemptFailed {s : State} {e : ErrCode} (ha : s.attempt.toNat ≤ s.maxAttempts.toNat)
    (he : e ∈ [ErrCode.frameTooShort, .invalidFrameMarkers, .invalidSecondStart, .lengthMismatch, .checksumMismatch,
      .noResponse]) (hi : (s.attemptFailed e).xstate = .idle) : EndsExchange s (s.attemptFailed e) := by
  rcases Nat.lt_or_ge s.attempt.toNat s.maxAttempts.toNat with h | h
  · rw [attemptFailed_retry e h] at hi
    cases hi
  · rw [attemptFailed_last e h]
    exact ⟨rfl, rfl, .inr ⟨rfl, BitVec.eq_of_toNat_eq (Nat.le_antisymm ha h), he⟩⟩

/-- ACCUM ends an EXCHANGE by a response that parses, or by the failure of the last attempt (42_transceiver.md R114 to R116). -/
theorem accumStep_endsExchange {s t : State} {arr tick : Bool} (hx : s.xstate = .accum)
    (ha : s.attempt.toNat ≤ s.maxAttempts.toNat) (hs : s.accumStep arr tick = .next t) (ht : t.xstate = .idle) :
    EndsExchange s t := by
  rcases accumStep_cases s arr tick with ⟨-, -, done⟩ | ⟨-, -, he⟩ | ⟨-, he⟩
  · rcases done with ⟨c, l, hd, di, p, -, -, he⟩ | ⟨e, -, hm, he⟩ | ⟨_, _, -, -, he⟩ <;> rw [he] at hs <;> cases hs
    · exact ⟨rfl, rfl, .inl rfl⟩
    · exact endsExchange_attemptFailed (s := s.accumCount arr tick) ha (List.mem_append_left [ErrCode.noResponse] hm) ht
  · rw [he] at hs
    cases hs
    exact endsExchange_attemptFailed (s := s.accumCount arr tick) ha (by decide) ht
  · rw [he] at hs
    cases hs
    rw [State.accumCount_xstate, hx] at ht
    cases ht

/-- A received character does not bear on the attempt count. -/
theorem rxPhase_attempt (s : State) (x0 : XState) (rx : Option RxChar) : (s.rxPhase x0 rx).attempt = s.attempt := by
  rw [rxPhase_frame]

theorem rxPhase_maxAttempts (s : State) (x0 : XState) (rx : Option RxChar) :
    (s.rxPhase x0 rx).maxAttempts = s.maxAttempts := by
  rw [rxPhase_frame]

/-- Settles O51: only ACCUM leads to IDLE, and what it does there does not depend on the host's access of the cycle. -/
theorem exchangeEndsWithOkOrNoResponse : Obligations.ExchangeEndsWithOkOrNoResponse := by
  intro s t h hin hr hs ht
  have hx : s.xstate = .accum := XState.eq_accum_of_idle_mem_successors hin (ht ▸ step_xstate h hr hs)
  obtain ⟨-, -, -, -, within⟩ := h.exchange hin
  obtain ⟨u, -, hframe, -, hline⟩ := step_in_exchange hr (by simp [hx]) (by simp [hx]) hs
  rw [hx] at hline
  generalize hv : (u.rxPhase .accum s.choice.rx).tickPhase = v at hline
  have xstate : v.xstate = .accum := by rw [← hv, State.tickPhase_xstate, rxPhase_xstate, hframe, hx]
  have attempt : v.attempt = s.attempt := by rw [← hv, State.tickPhase_attempt, rxPhase_attempt, hframe]
  have maxAttempts : v.maxAttempts = s.maxAttempts := by rw [← hv, State.tickPhase_maxAttempts, rxPhase_maxAttempts, hframe]
  obtain ⟨done, kept, code⟩ := accumStep_endsExchange xstate (by rw [attempt, maxAttempts]; exact within) hline ht
  exact ⟨done, kept.trans attempt, code⟩

end Sys2Proof.Machine
end

section
/-! PROOF. The time base, cycle by cycle (42_transceiver.md R106), and the characters that no state takes (R123). -/

namespace Sys2Proof.Machine

/-! ### The tick's period -/

/-- The state before the last cycle of a run. -/
theorem runFor_succ_eq_next {k : Nat} {s t : State} (h : runFor (k + 1) s = .next t) :
    ∃ u, runFor k s = .next u ∧ step u = .next t := by
  have split := h
  rw [runFor_add] at split
  obtain ⟨u, hu, -⟩ := thenDo_eq_next split
  exact ⟨u, hu, runFor_snoc hu ▸ h⟩

/-- A cycle without host access counts the prescaler and leaves TICK_DIV (42_transceiver.md R106). -/
theorem step_quiet_prescaler {s t : State} (hq : hostQuiet s.choice) (hs : step s = .next t) :
    t.tickDiv = s.tickDiv ∧ t.presc = s.tickPhase.presc := by
  rw [tickPhase_eq]
  exact (prescalerCountsEveryCycle s t hq.1 hs).1 (.inl fun w hw => by rw [hq.2] at hw; cases hw)

/-- The tick strobe, on numbers (42_transceiver.md R106). -/
theorem tick_iff (s : State) : s.tick = true ↔ s.presc.toNat = s.tickDiv.toNat := by
  rw [State.tick, beq_iff_eq, BitVec.toNat_inj]

/-- Up to the tick the prescaler is the number of cycles since it was 0. -/
theorem runFor_presc {s t : State} {j : Nat} (h0 : s.presc = 0#32) (hj : j ≤ s.tickDiv.toNat)
    (hq : ∀ i < j, hostQuiet (s.choiceAt i)) (ht : runFor j s = .next t) : t.presc.toNat = j ∧ t.tickDiv = s.tickDiv := by
  induction j generalizing t with
  | zero =>
    cases ht
    exact ⟨by rw [h0]; rfl, rfl⟩
  | succ j ih =>
    obtain ⟨u, hu, ht⟩ := runFor_succ_eq_next ht
    obtain ⟨presc, tickDiv⟩ := ih (by omega) (fun i hi => hq i (by omega)) hu
    obtain ⟨htd, htp⟩ := step_quiet_prescaler (choice_runFor hu ▸ hq j (Nat.lt_succ_self j)) ht
    have running : ¬ u.presc = u.tickDiv := fun h => by rw [← BitVec.toNat_inj, presc, tickDiv] at h; omega
    rw [htd, htp, tickPhase_presc_toNat (by rw [presc, tickDiv]; omega), if_neg running, presc]
    exact ⟨rfl, tickDiv⟩

/-- Settles O39: by induction the prescaler counts the cycles up to TICK_DIV, and the cycle that ticks clears it. -/
theorem ticksComeEveryPeriod : Obligations.TicksComeEveryPeriod := by
  intro s h0 hq
  have during : ∀ j ≤ s.tickDiv.toNat, ∀ t, runFor j s = .next t → t.presc.toNat = j ∧ t.tickDiv = s.tickDiv :=
    fun j hj t ht => runFor_presc h0 hj (fun i hi => hq i (by omega)) ht
  refine ⟨fun j hj t ht => ?_, fun t ht => ?_⟩
  · obtain ⟨presc, tickDiv⟩ := during j hj t ht
    exact ⟨presc, tickDiv, by rw [tick_iff, presc, tickDiv]⟩
  · obtain ⟨u, hu, ht⟩ := runFor_succ_eq_next ht
    obtain ⟨presc, tickDiv⟩ := during _ le_rfl u hu
    obtain ⟨htd, htp⟩ := step_quiet_prescaler (choice_runFor hu ▸ hq _ le_rfl) ht
    have due : u.presc = u.tickDiv := BitVec.eq_of_toNat_eq (by rw [presc, tickDiv])
    rw [htd, htp, tickPhase_eq, if_pos due]
    exact ⟨rfl, tickDiv⟩

/-! ### Discarded characters -/

/-- Outside the receiving states the line phases do not depend on the character (42_transceiver.md R123). -/
theorem linePhases_not_receiving {x0 : XState} (h : x0.receiving = false) (s : State) (rx : Option RxChar) :
    s.linePhases x0 rx = s.linePhases x0 none := by
  simp only [State.linePhases, rxPhase_not_receiving h, arrived, h, Bool.false_and]

/-- Settles O40: the character enters a cycle in its line phases only. -/
theorem charactersOutsideReceptionAreDiscarded : Obligations.CharactersOutsideReceptionAreDiscarded := by
  intro s rx hsettle hpost haccum
  have deaf : s.xstate.receiving = false := by
    rw [Bool.eq_false_iff, ne_eq, XState.receiving_iff]
    tauto
  cases hr : s.choice.rstN with
  | false =>
    rw [step_of_rstN_low (s := s.withChosenChar rx) hr, step_of_rstN_low (s := s.withChosenChar none) hr]
    rfl
  | true =>
    rw [step_of_rstN_high (s := s.withChosenChar rx) hr, step_of_rstN_high (s := s.withChosenChar none) hr]
    have discarded : ∀ u : State, u.linePhases s.xstate rx = u.linePhases s.xstate none :=
      fun u => linePhases_not_receiving deaf u rx
    exact congrArg (fun k => thenDo (s.advance.hostPhase s.choice.access s.choice.latDraw) fun t => thenDo t.commitPhase k)
      (funext discarded)

end Sys2Proof.Machine
end

section
/-! PROOF. The three waits of an attempt (42_transceiver.md R111, R113, R117) and a silent ACCUM (R114): one cycle, and how long they
last (R125). -/

namespace Sys2Proof.Machine

/-! ### One cycle of a wait -/

/-- SETTLE, POST_WAIT and RETRY_WAIT. -/
def XState.waits : XState → Bool
  | .settle    => true
  | .postWait  => true
  | .retryWait => true
  | _          => false

/-- The field that the wait in a state counts up to (42_transceiver.md R111, R113, R117). -/
def State.waitField (s : State) : XState → BitVec 16
  | .settle    => s.tSettle
  | .postWait  => s.tPostsend
  | .retryWait => s.tRetry
  | _          => 0#16

/-- What the end of the wait in a state does (42_transceiver.md R111, R113, R117). -/
def State.endWait (s : State) : XState → State
  | .settle    => { s with txidx := 0#10, txbit := 0#4, txcyc := 0#16, xstate := .frameTx }
  | .postWait  => { s with icnt := 0#16, ccnt := 0#16, xstate := .accum }
  | .retryWait => s.startAttempt
  | _          => s

/-- The wait counter after this cycle's tick. -/
def State.countWait (s : State) (tick : Bool) : State := { s with wcnt := waitCount tick s.wcnt }

/-- The state machine in a wait: the count takes the tick, and the wait ends once it has reached its field. -/
theorem fsmPhase_of_waits {x : XState} (hw : x.waits = true) (s : State) (arr tick : Bool) :
    s.fsmPhase x arr tick = .next (if (s.waitField x).toNat ≤ (s.countWait tick).wcnt.toNat then
      (s.countWait tick).endWait x else s.countWait tick) := by
  cases x with
  | settle => rfl
  | postWait => rfl
  | retryWait => rfl
  | _ => cases hw

/-- The state a quiet cycle of a wait decides on: the character taken where one is, the tick counted (00_scope.md R11). -/
def State.waitFront (s : State) : State :=
  ((s.rxPhase s.xstate s.choice.rx).advance.answer none).tickPhase.countWait s.tick

theorem waitFront_frame (s : State) :
    s.waitFront = { s with
      rxLen := (s.rxPhase s.xstate s.choice.rx).rxLen, rxOvf := (s.rxPhase s.xstate s.choice.rx).rxOvf
      rxPerr := (s.rxPhase s.xstate s.choice.rx).rxPerr, rxFerr := (s.rxPhase s.xstate s.choice.rx).rxFerr
      mem := (s.rxPhase s.xstate s.choice.rx).mem, presc := s.tickPhase.presc, wcnt := waitCount s.tick s.wcnt
      rdata := none, inputs := s.inputs.tail, cycle := s.cycle + 1 } := by
  rw [State.waitFront, rxPhase_frame]
  rfl

@[simp] theorem waitFront_xstate (s : State) : s.waitFront.xstate = s.xstate := by rw [waitFront_frame]
@[simp] theorem waitFront_wcnt (s : State) : s.waitFront.wcnt = waitCount s.tick s.wcnt := by rw [waitFront_frame]
@[simp] theorem waitFront_attempt (s : State) : s.waitFront.attempt = s.attempt := by rw [waitFront_frame]
@[simp] theorem waitFront_tickDiv (s : State) : s.waitFront.tickDiv = s.tickDiv := by rw [waitFront_frame]
@[simp] theorem waitFront_presc (s : State) : s.waitFront.presc = s.tickPhase.presc := by rw [waitFront_frame]

@[simp] theorem waitFront_waitField (s : State) (x : XState) : s.waitFront.waitField x = s.waitField x := by
  rw [waitFront_frame]
  cases x <;> rfl

/-- In a wait that takes no character the bytes stay. -/
theorem waitFront_mem_of_not_receiving {s : State} (h : s.xstate.receiving = false) : s.waitFront.mem = s.mem := by
  rw [waitFront_frame, rxPhase_not_receiving h]

/-- A quiet cycle of a wait: it ends if the count has reached its field, and else goes on (42_transceiver.md R111, R113, R117). -/
theorem step_of_waits {s : State} (hw : s.xstate.waits = true) (hq : hostQuiet s.choice) :
    ∃ t, step s = .next t ∧
      ((s.waitField s.xstate).toNat ≤ (waitCount s.tick s.wcnt).toNat → t = s.waitFront.endWait s.xstate) ∧
      ((waitCount s.tick s.wcnt).toNat < (s.waitField s.xstate).toNat → t = s.waitFront) := by
  have codec : s.xstate ≠ .codec := by
    intro h
    rw [h] at hw
    cases hw
  have hs : step s = .next (if (s.waitField s.xstate).toNat ≤ (waitCount s.tick s.wcnt).toNat then
      s.waitFront.endWait s.xstate else s.waitFront) := by
    rw [step_of_hostQuiet hq, commitPhase_not_codec (by exact codec), thenDo_next, State.linePhases, rxPhase_answer,
      rxPhase_advance]
    show State.fsmPhase _ s.xstate _ (s.rxPhase s.xstate s.choice.rx).tick = _
    rw [rxPhase_tick, fsmPhase_of_waits hw, ← waitFront_waitField s, ← waitFront_wcnt s]
    rfl
  refine ⟨_, hs, fun h => if_pos h, fun h => if_neg (Nat.not_le.mpr h)⟩

/-- Settles O45: the wait's end is what its state's rule says, on the count after the cycle's tick. -/
theorem waitsEndAtTheirCount : Obligations.WaitsEndAtTheirCount := by
  intro s hq n
  have count : waitCount s.tick s.wcnt = n := by
    simp only [waitCount_eq, State.tick, beq_iff_eq, n]
  have cycle : s.xstate.waits = true → ∃ t, step s = .next t ∧
      ((s.waitField s.xstate).toNat ≤ n.toNat → t = s.waitFront.endWait s.xstate) ∧
      (n.toNat < (s.waitField s.xstate).toNat → t.xstate = s.xstate ∧ t.wcnt = n) := by
    intro hw
    obtain ⟨t, hs, ends, goesOn⟩ := step_of_waits hw hq
    rw [count] at ends goesOn
    refine ⟨t, hs, ends, fun h => ?_⟩
    rw [goesOn h]
    exact ⟨waitFront_xstate s, (waitFront_wcnt s).trans count⟩
  refine ⟨fun hx => ?_, fun hx => ?_, fun hx => ?_⟩ <;> rw [hx] at cycle <;> obtain ⟨t, hs, ends, goesOn⟩ := cycle rfl
  · exact ⟨t, hs, fun h => ends h ▸ ⟨rfl, rfl, rfl, rfl⟩, goesOn⟩
  · exact ⟨t, hs, fun h => ends h ▸ ⟨rfl, rfl, rfl⟩, goesOn⟩
  · have attempt : (s.waitFront.endWait .retryWait).attempt = s.attempt + 1#4 := congrArg (· + 1#4) (waitFront_attempt s)
    have mem : s.waitFront.mem = s.mem := waitFront_mem_of_not_receiving (by rw [hx]; rfl)
    exact ⟨t, hs, fun h => ends h ▸ ⟨rfl, attempt, rfl, rfl, rfl, rfl, mem⟩, goesOn⟩

/-! ### How long a count takes -/

/-- The cycles that `T` ticks take at TICK_DIV `D` from prescaler `p`; a count to 0 takes one (42_transceiver.md R106, R125). -/
def ticksLength (T D p : Nat) : Nat := if T = 0 then 1 else (T - 1) * (D + 1) + (D + 1 - p)

theorem ticksLength_le (T D p : Nat) : ticksLength T D p ≤ (T + 1) * (D + 1) := by
  rw [ticksLength]
  split
  · exact Nat.le_trans (Nat.le_add_left 1 D) (Nat.le_mul_of_pos_left _ (Nat.succ_pos T))
  · have below : (T - 1) * (D + 1) + (D + 1) ≤ (T + 1) * (D + 1) := by
      rw [← Nat.succ_mul]
      exact Nat.mul_le_mul_right _ (by omega)
    omega

/-- A count has reached a 16-bit field as if it did not saturate (40_commands.md R96). -/
theorem le_waitCount_iff (T w : BitVec 16) (k : Bool) :
    T.toNat ≤ (waitCount k w).toNat ↔ T.toNat ≤ if k then w.toNat + 1 else w.toNat := by
  have hT := T.isLt
  rcases Nat.lt_or_ge w.toNat T.toNat with h | h
  · rw [waitCount_toNat (by omega) h]
  · have grows : w.toNat ≤ (waitCount k w).toNat := by
      rw [waitCount_eq]
      split
      · rename_i hk
        have hne : w.toNat ≠ 0xFFFF := fun hw => hk.2 (BitVec.eq_of_toNat_eq hw)
        have hlt := w.isLt
        rw [BitVec.toNat_add, BitVec.toNat_ofNat]
        omega
      · exact le_rfl
    have : w.toNat ≤ if k then w.toNat + 1 else w.toNat := by split <;> omega
    exact ⟨fun _ => by omega, fun _ => by omega⟩

/-- A state `x` that counts the ticks in `c` up to `T`, from 0, lasts as long as the ticks take and ends as `E` says, when every
cycle whose choice meets `Q` does one or the other and keeps `P`. -/
theorem count_run {x : XState} {T : BitVec 16} {c : State → BitVec 16} {Q : CycleInput → Prop} {E P : State → Prop}
    (hstep : ∀ u : State, Q u.choice → u.xstate = x → u.presc.toNat ≤ u.tickDiv.toNat → P u →
      ∃ t, step u = .next t ∧ (T.toNat ≤ (waitCount u.tick (c u)).toNat → E t) ∧
        ((waitCount u.tick (c u)).toNat < T.toNat →
          t.xstate = x ∧ c t = waitCount u.tick (c u) ∧ P t ∧ t.tickDiv = u.tickDiv ∧ t.presc = u.tickPhase.presc))
    {s : State} (hx : s.xstate = x) (h0 : c s = 0#16) (hp : s.presc.toNat ≤ s.tickDiv.toNat) (hP : P s)
    (hq : ∀ j < ticksLength T.toNat s.tickDiv.toNat s.presc.toNat, Q (s.choiceAt j)) :
    (∀ j < ticksLength T.toNat s.tickDiv.toNat s.presc.toNat, ∃ t, runFor j s = .next t ∧ t.xstate = x) ∧
    ∃ t, runFor (ticksLength T.toNat s.tickDiv.toNat s.presc.toNat) s = .next t ∧ E t := by
  have start : (c s).toNat = 0 := by rw [h0]; rfl
  have cycle : ∀ u : State, Q u.choice → u.xstate = x → u.presc.toNat ≤ u.tickDiv.toNat → P u →
      ∃ t, step u = .next t ∧ (let w' := if u.presc = u.tickDiv then (c u).toNat + 1 else (c u).toNat
        if T.toNat ≤ w' then E t
        else t.xstate = x ∧ (c t).toNat = w' ∧ P t ∧ t.tickDiv = u.tickDiv ∧ t.presc = u.tickPhase.presc) := by
    intro u hqu hux hup hPu
    obtain ⟨t, hs, ends, goesOn⟩ := hstep u hqu hux hup hPu
    have reached := le_waitCount_iff T (c u) u.tick
    have exact_below := waitCount_toNat (k := u.tick) (w := c u) (Nat.le_of_lt_succ T.isLt)
    simp only [State.tick, beq_iff_eq] at reached exact_below
    refine ⟨t, hs, ?_⟩
    intro w'
    by_cases h : T.toNat ≤ w'
    · rw [if_pos h]
      exact ends (reached.mpr h)
    · rw [if_neg h]
      obtain ⟨tx, tc, tP, td, tp⟩ := goesOn (Nat.not_le.mp fun h' => h (reached.mp h'))
      have grows : (c u).toNat ≤ w' := by
        simp only [w']
        split <;> omega
      exact ⟨tx, tc ▸ exact_below (by omega), tP, td, tp⟩
  obtain ⟨during, after⟩ := wait_run (fun u => (c u).toNat) (fun u => Q u.choice) E P cycle
    (ticksLength T.toNat s.tickDiv.toNat s.presc.toNat) s hx hP hp
    ((Nat.eq_zero_or_pos T.toNat).elim (fun h => .inr ⟨h, start⟩) fun h => .inl (start.symm ▸ h))
    (by simp only [start, Nat.sub_zero, ticksLength]) (fun j hj t ht => choice_runFor ht ▸ hq j hj)
  refine ⟨fun j hj => ?_, after⟩
  obtain ⟨t, ht, htx, -⟩ := during j hj
  exact ⟨t, ht, htx⟩

/-- A wait lasts its ticks, and ends from a state `v` that has kept what its cycles keep. -/
theorem waits_run {x : XState} {Q : CycleInput → Prop} {P : State → Prop} (hw : x.waits = true)
    (hQ : ∀ c, Q c → hostQuiet c) (hfront : ∀ u : State, Q u.choice → P u → P u.waitFront) {s : State} (hx : s.xstate = x)
    (h0 : s.wcnt = 0#16) (hp : s.presc.toNat ≤ s.tickDiv.toNat) (hP : P s)
    (hq : ∀ j < ticksLength (s.waitField x).toNat s.tickDiv.toNat s.presc.toNat, Q (s.choiceAt j)) :
    (∀ j < ticksLength (s.waitField x).toNat s.tickDiv.toNat s.presc.toNat, ∃ t, runFor j s = .next t ∧ t.xstate = x) ∧
    ∃ v, runFor (ticksLength (s.waitField x).toNat s.tickDiv.toNat s.presc.toNat) s = .next (v.endWait x) ∧
      v.presc.toNat ≤ v.tickDiv.toNat ∧ P v := by
  have run := count_run (x := x) (T := s.waitField x) (c := State.wcnt) (Q := Q)
    (E := fun t => ∃ v : State, t = v.endWait x ∧ v.presc.toNat ≤ v.tickDiv.toNat ∧ P v)
    (P := fun u => u.waitField x = s.waitField x ∧ P u) (s := s) ?_ hx h0 hp ⟨rfl, hP⟩ hq
  · obtain ⟨during, _, ht, v, rfl, hv⟩ := run
    exact ⟨during, v, ht, hv⟩
  · rintro u hqu rfl hup ⟨field, hPu⟩
    obtain ⟨t, hs, ends, goesOn⟩ := step_of_waits hw (hQ _ hqu)
    rw [field] at ends goesOn
    have prescLe : u.waitFront.presc.toNat ≤ u.waitFront.tickDiv.toNat := by
      rw [waitFront_presc, waitFront_tickDiv]
      exact tickPhase_presc_le hup
    refine ⟨t, hs, fun h => ⟨_, ends h, prescLe, hfront u hqu hPu⟩, fun h => ?_⟩
    rw [goesOn h]
    exact ⟨waitFront_xstate u, waitFront_wcnt u, ⟨(waitFront_waitField u _).trans field, hfront u hqu hPu⟩, waitFront_tickDiv u,
      waitFront_presc u⟩

/-- Settles O46: the count of a wait, with any characters that arrive in it. -/
theorem waitsLastTheirTicks : Obligations.WaitsLastTheirTicks := by
  intro s x y T len hxyT hx h0 hp hlen hq
  have three : x.waits = true ∧ T = s.waitField x ∧ ∀ v : State, (v.endWait x).xstate = y := by
    simp only [List.mem_cons, List.not_mem_nil, or_false, Prod.mk.injEq] at hxyT
    rcases hxyT with ⟨rfl, rfl, rfl⟩ | ⟨rfl, rfl, rfl⟩ | ⟨rfl, rfl, rfl⟩ <;> exact ⟨rfl, rfl, fun _ => rfl⟩
  obtain ⟨hw, rfl, hy⟩ := three
  obtain rfl : len = ticksLength (s.waitField x).toNat s.tickDiv.toNat s.presc.toNat := hlen
  obtain ⟨during, v, hv, -⟩ := waits_run (P := fun _ => True) hw (fun _ h => h) (fun _ _ _ => trivial) hx h0 hp trivial hq
  exact ⟨during, _, hv, hy v⟩

/-! ### A silent ACCUM -/

/-- What a silent cycle of ACCUM with nothing received does before it decides (42_transceiver.md R114). -/
theorem accumCount_front (s : State) :
    Keeps s ((s.advance.answer none).tickPhase.accumCount false s.tick) ∧
    ((s.advance.answer none).tickPhase.accumCount false s.tick).xstate = s.xstate ∧
    ((s.advance.answer none).tickPhase.accumCount false s.tick).ccnt = waitCount s.tick s.ccnt ∧
    ((s.advance.answer none).tickPhase.accumCount false s.tick).presc = s.tickPhase.presc := by
  obtain ⟨quiet, hx, hp, -⟩ := quiet_front s
  refine ⟨quiet.trans ?_, by rw [State.accumCount_xstate, hx], by simp, by rw [State.accumCount_presc, hp]⟩
  constructor <;> simp

/-- An attempt that receives nothing lasts T_CEIL ticks of ACCUM, and then fails from a state `v` in which nothing has happened
but the counting (42_transceiver.md R114, R125). -/
theorem accum_run_silent {s : State} (hx : s.xstate = .accum) (hl : s.rxLen = 0#10) (h0 : s.ccnt = 0#16)
    (hp : s.presc.toNat ≤ s.tickDiv.toNat)
    (hq : ∀ j < ticksLength s.tCeil.toNat s.tickDiv.toNat s.presc.toNat, silent (s.choiceAt j)) :
    (∀ j < ticksLength s.tCeil.toNat s.tickDiv.toNat s.presc.toNat, ∃ t, runFor j s = .next t ∧ t.xstate = .accum) ∧
    ∃ v, runFor (ticksLength s.tCeil.toNat s.tickDiv.toNat s.presc.toNat) s = .next (v.attemptFailed .noResponse) ∧
      v.presc.toNat ≤ v.tickDiv.toNat ∧ Keeps s v := by
  have run := count_run (x := .accum) (T := s.tCeil) (c := State.ccnt) (Q := silent)
    (E := fun t => ∃ v : State, t = v.attemptFailed .noResponse ∧ v.presc.toNat ≤ v.tickDiv.toNat ∧ Keeps s v)
    (P := Keeps s) (s := s) ?_ hx h0 hp (.refl s) hq
  · obtain ⟨during, _, ht, v, rfl, hv⟩ := run
    exact ⟨during, v, ht, hv⟩
  · intro u hqu hux hup hk
    have hs := step_of_accum_silent hux (hk.rxLen.trans hl) hqu
    obtain ⟨quiet, fx, fc, fp⟩ := accumCount_front u
    generalize (u.advance.answer none).tickPhase.accumCount false u.tick = v at hs quiet fx fc fp
    rw [hk.tCeil, fc] at hs
    have prescLe : v.presc.toNat ≤ v.tickDiv.toNat := by
      rw [fp, quiet.tickDiv]
      exact tickPhase_presc_le hup
    refine ⟨_, hs, fun h => ⟨v, if_pos h, prescLe, hk.trans quiet⟩, fun h => ?_⟩
    rw [if_neg (Nat.not_le.mpr h)]
    exact ⟨fx.trans hux, fc, hk.trans quiet, quiet.tickDiv, fp⟩

theorem attemptFailed_lastErr (s : State) (e : ErrCode) : (s.attemptFailed e).lastErr = e := by
  simp only [State.attemptFailed]
  split <;> rfl

/-- Where a failed attempt leads (42_transceiver.md R116). -/
theorem attemptFailed_xstate_eq (s : State) (e : ErrCode) :
    (s.attemptFailed e).xstate = if s.attempt.toNat < s.maxAttempts.toNat then .retryWait else .idle := by
  simp only [State.attemptFailed]
  split <;> rfl

/-- Settles O48: the ceiling count of a silent ACCUM, and the failure it ends in. -/
theorem ceilingEndsASilentAttempt : Obligations.CeilingEndsASilentAttempt := by
  intro s len hx hl h0 hp hlen hq
  obtain rfl : len = ticksLength s.tCeil.toNat s.tickDiv.toNat s.presc.toNat := hlen
  obtain ⟨during, v, hv, -, hk⟩ := accum_run_silent hx hl h0 hp hq
  exact ⟨during, _, hv, attemptFailed_lastErr v _, by rw [attemptFailed_xstate_eq, hk.attempt, hk.maxAttempts]⟩

end Sys2Proof.Machine
end

section
/-! PROOF. An EXCHANGE on a silent line (42_transceiver.md R108 to R118): the phases of one attempt in their order, each within its
time, and the attempts by induction. -/

namespace Sys2Proof.Machine

/-! ### What a silent line leads to -/

/-- If the line is silent and the host quiet for the `n` coming cycles, then within them `s` reaches a state with `E`. -/
def LeadsTo (s : State) (n : Nat) (E : State → Prop) : Prop :=
  (∀ j < n, silent (s.choiceAt j)) → ∃ k ≤ n, ∃ t, runFor k s = .next t ∧ E t

/-- One stretch after the other; the second may start as early as the first allows. -/
theorem LeadsTo.trans {s : State} {m n : Nat} {E F : State → Prop} (h : LeadsTo s m E) (h' : ∀ t, E t → LeadsTo t n F) :
    LeadsTo s (m + n) F := by
  intro hq
  obtain ⟨k, hk, t, ht, hE⟩ := h fun j hj => hq j (by omega)
  obtain ⟨l, hl, u, hu, hF⟩ := h' t hE fun j hj => by
    rw [choiceAt_runFor ht]
    exact hq _ (by omega)
  exact ⟨k + l, by omega, u, by rw [runFor_add, ht, thenDo_next, hu], hF⟩

theorem LeadsTo.imp {s : State} {n : Nat} {E F : State → Prop} (h : LeadsTo s n E) (h' : ∀ t, E t → F t) : LeadsTo s n F := by
  intro hq
  obtain ⟨k, hk, t, ht, hE⟩ := h hq
  exact ⟨k, hk, t, ht, h' t hE⟩

theorem LeadsTo.mono {s : State} {m n : Nat} {E : State → Prop} (h : LeadsTo s m E) (hmn : m ≤ n) : LeadsTo s n E := by
  intro hq
  obtain ⟨k, hk, reached⟩ := h fun j hj => hq j (by omega)
  exact ⟨k, hk.trans hmn, reached⟩

/-! ### The phases of an attempt -/

/-- The counters with which a state of an attempt begins (42_transceiver.md R109, R110, R111, R113, R116). -/
def State.begins (t : State) : XState → Prop
  | .wakeTx | .frameTx                => t.txidx = 0#10 ∧ t.txbit = 0#4 ∧ t.txcyc = 0#16
  | .settle | .postWait | .retryWait  => t.wcnt = 0#16
  | .accum                            => t.ccnt = 0#16
  | _                                 => True

/-- `t` has just entered `x`, in the attempt of `s`, with nothing received in between. -/
structure Entered (s : State) (x : XState) (t : State) : Prop where
  xstate : t.xstate = x
  begins : t.begins x
  prescLe : t.presc.toNat ≤ t.tickDiv.toNat
  keeps : Keeps s t

/-- `u` is what `y` makes of a state of the attempt of `s` with nothing received. -/
def EndsBy (s : State) (y : State → State) (u : State) : Prop :=
  ∃ v : State, u = y v ∧ v.presc.toNat ≤ v.tickDiv.toNat ∧ Keeps s v

/-- A run of the transmitter over `N` characters, with `y` the state after it, leads there within its bits. -/
theorem Entered.transmits {s t : State} {x : XState} {y : State → State} {N : Nat} (h : Entered s x t)
    (hb : t.txidx = 0#10 ∧ t.txbit = 0#4 ∧ t.txcyc = 0#16) (hN1 : 1 ≤ N) (hN : N ≤ 1023) (hB : 1 ≤ s.baudDiv.toNat)
    (hstep : ∀ u : State, Keeps s u → u.xstate = x → u.txidx.toNat < N → hostQuiet u.choice →
      step u = .next ((u.advance.answer none).tickPhase.txAdvance (N - 1) y)) :
    LeadsTo t (11 * N * s.baudDiv.toNat) (EndsBy s y) := by
  intro hq
  obtain ⟨hidx, hbit, hcyc⟩ := hb
  obtain ⟨-, v, hv, hk, hp⟩ := transmit_run hN1 hN hB t (fun u hu => hstep u (h.keeps.trans hu)) h.xstate
    (.start hidx hbit hcyc) (by rw [h.keeps.baudDiv]) fun j hj => (hq j hj).1
  exact ⟨_, le_rfl, _, hv, v, rfl, by rw [hk.tickDiv]; exact hp h.prescLe, h.keeps.trans hk⟩

/-- The preamble leads to SETTLE (42_transceiver.md R110). -/
theorem Entered.leadsTo_settle {s t : State} (h : Entered s .wakeTx t) (hB : 1 ≤ s.baudDiv.toNat) :
    LeadsTo t (44 * s.baudDiv.toNat) (Entered s .settle) :=
  (h.transmits (N := 4) h.begins (by decide) (by decide) hB fun _ _ hx _ hq => step_of_wakeTx hx hq).imp
    fun _ ⟨_, hu, hp, hk⟩ => hu ▸ ⟨rfl, rfl, hp, { hk with }⟩

/-- The frame leads to POST_WAIT, its bytes being present (42_transceiver.md R112). -/
theorem Entered.leadsTo_postWait {s t : State} {f : List Byte} (h : Entered s .frameTx t) (hB : 1 ≤ s.baudDiv.toNat)
    (hl : f.length = s.frameLen.toNat) (hl1 : 1 ≤ f.length) (hl512 : f.length ≤ 512) (hf : s.holds .txbuf f) :
    LeadsTo t (11 * s.frameLen.toNat * s.baudDiv.toNat) (Entered s .postWait) := by
  have cycle : ∀ u : State, Keeps s u → u.xstate = .frameTx → u.txidx.toNat < f.length → hostQuiet u.choice →
      step u = .next ((u.advance.answer none).tickPhase.txAdvance (f.length - 1) fun t =>
        { t with wcnt := 0#16, xstate := .postWait }) := by
    intro u hk hux hi hqu
    rw [step_of_frameTx hux hqu (State.holds_bufByte hl512 (hk.holds hf) hi), hk.frameLen, hl]
  rw [← hl]
  exact (h.transmits h.begins hl1 (by omega) hB cycle).imp fun _ ⟨_, hu, hp, hk⟩ => hu ▸ ⟨rfl, rfl, hp, { hk with }⟩

/-- On a silent line a cycle of a wait only counts. -/
theorem keeps_waitFront {s : State} (hq : silent s.choice) : Keeps s s.waitFront := by
  rw [waitFront_frame, hq.2]
  constructor <;> rfl

theorem Keeps.waitField {s t : State} (h : Keeps s t) (x : XState) : t.waitField x = s.waitField x := by
  cases x with
  | settle => exact h.tSettle
  | postWait => exact h.tPostsend
  | retryWait => exact h.tRetry
  | _ => rfl

/-- A wait leads to its end within its ticks and one more period (42_transceiver.md R125). -/
theorem Entered.leadsTo_endWait {s t : State} {x : XState} (h : Entered s x t) (hw : x.waits = true) (h0 : t.wcnt = 0#16) :
    LeadsTo t (((s.waitField x).toNat + 1) * (s.tickDiv.toNat + 1)) (EndsBy s fun v => v.endWait x) := by
  intro hq
  rw [← h.keeps.waitField, ← h.keeps.tickDiv] at hq ⊢
  have within := ticksLength_le (t.waitField x).toNat t.tickDiv.toNat t.presc.toNat
  obtain ⟨-, v, hv, hp, hk⟩ := waits_run (Q := silent) (P := Keeps s) hw (fun _ hc => hc.1)
    (fun u hu hk => hk.trans (keeps_waitFront hu)) h.xstate h0 h.prescLe h.keeps fun j hj => hq j (by omega)
  exact ⟨_, within, _, hv, v, rfl, hp, hk⟩

/-- The settle wait leads to FRAME_TX (42_transceiver.md R111). -/
theorem Entered.leadsTo_frameTx {s t : State} (h : Entered s .settle t) :
    LeadsTo t ((s.tSettle.toNat + 1) * (s.tickDiv.toNat + 1)) (Entered s .frameTx) :=
  (h.leadsTo_endWait rfl h.begins).imp fun _ ⟨_, hu, hp, hk⟩ => hu ▸ ⟨rfl, ⟨rfl, rfl, rfl⟩, hp, { hk with }⟩

/-- The post-send wait leads to ACCUM (42_transceiver.md R113). -/
theorem Entered.leadsTo_accum {s t : State} (h : Entered s .postWait t) :
    LeadsTo t ((s.tPostsend.toNat + 1) * (s.tickDiv.toNat + 1)) (Entered s .accum) :=
  (h.leadsTo_endWait rfl h.begins).imp fun _ ⟨_, hu, hp, hk⟩ => hu ▸ ⟨rfl, rfl, hp, { hk with }⟩

/-- `u` is what the failure of the attempt of `s` leaves, nothing having been received (42_transceiver.md R116). -/
def FailedSilently (s u : State) : Prop := EndsBy s (fun v => v.attemptFailed .noResponse) u

/-- ACCUM leads to the failure of the attempt (42_transceiver.md R114). -/
theorem Entered.leadsTo_failure {s t : State} (h : Entered s .accum t) (hl : s.rxLen = 0#10) :
    LeadsTo t ((s.tCeil.toNat + 1) * (s.tickDiv.toNat + 1)) (FailedSilently s) := by
  intro hq
  rw [← h.keeps.tCeil, ← h.keeps.tickDiv] at hq ⊢
  have within := ticksLength_le t.tCeil.toNat t.tickDiv.toNat t.presc.toNat
  obtain ⟨-, v, hv, hp, hk⟩ := accum_run_silent h.xstate (h.keeps.rxLen.trans hl) h.begins h.prescLe fun j hj =>
    hq j (by omega)
  exact ⟨_, within, _, hv, v, rfl, hp, h.keeps.trans hk⟩

/-! ### One attempt -/

/-- `s` stands at the first bit of an attempt, with nothing received and the frame `f` in TXBUF (42_transceiver.md R108, R109). -/
structure StartsAttempt (f : List Byte) (s : State) : Prop where
  entered : Entered s .wakeTx s
  rxLen : s.rxLen = 0#10
  baudDiv : 1 ≤ s.baudDiv.toNat
  frameLen : f.length = s.frameLen.toNat
  frame_pos : 1 ≤ f.length
  frame_le : f.length ≤ 512
  frame : s.holds .txbuf f

/-- The cycles from the start of an attempt within which a silent line fails it. -/
def State.attemptBound (s : State) : Nat :=
  44 * s.baudDiv.toNat + 11 * s.frameLen.toNat * s.baudDiv.toNat +
    (s.tSettle.toNat + s.tPostsend.toNat + s.tCeil.toNat + 3) * (s.tickDiv.toNat + 1)

/-- The cycles within which a silent line leads to the start of the next attempt. -/
def State.retryBound (s : State) : Nat := (s.tRetry.toNat + 1) * (s.tickDiv.toNat + 1)

/-- An attempt on a silent line fails: preamble, settle wait, frame, post-send wait, silence. -/
theorem StartsAttempt.leadsTo_failure {f : List Byte} {s : State} (h : StartsAttempt f s) :
    LeadsTo s s.attemptBound (FailedSilently s) := by
  have phases := (((h.entered.leadsTo_settle h.baudDiv).trans fun _ ht => ht.leadsTo_frameTx).trans fun _ ht =>
    ht.leadsTo_postWait h.baudDiv h.frameLen h.frame_pos h.frame_le h.frame).trans fun _ ht =>
    ht.leadsTo_accum.trans fun _ hu => hu.leadsTo_failure h.rxLen
  convert phases using 1
  rw [State.attemptBound]
  ring

/-- `t` starts the attempt after the one of `s`, nothing having been received (42_transceiver.md R117). -/
def NextAttempt (s t : State) : Prop := Entered t .wakeTx t ∧ Keeps { s with attempt := s.attempt + 1#4 } t

/-- A failure with attempts left leads to the next attempt (42_transceiver.md R116, R117). -/
theorem FailedSilently.leadsTo_next {s u : State} (h : FailedSilently s u) (hl : s.rxLen = 0#10)
    (ha : s.attempt.toNat < s.maxAttempts.toNat) : LeadsTo u s.retryBound (NextAttempt s) := by
  obtain ⟨v, rfl, hp, hk⟩ := h
  beta_reduce
  rw [attemptFailed_retry _ (by rw [hk.attempt, hk.maxAttempts]; exact ha)]
  have waiting : Entered s .retryWait { v with lastErr := .noResponse, wcnt := 0#16, xstate := .retryWait } :=
    ⟨rfl, rfl, hp, { hk with }⟩
  refine (waiting.leadsTo_endWait rfl rfl).imp ?_
  rintro _ ⟨w, rfl, hpw, hkw⟩
  exact ⟨⟨rfl, ⟨rfl, rfl, rfl⟩, hpw, .refl _⟩, { hkw with
    rxLen := hl.symm
    attempt := congrArg (· + 1#4) hkw.attempt }⟩

/-- The next attempt starts as this one did. -/
theorem NextAttempt.startsAttempt {f : List Byte} {s t : State} (h : NextAttempt s t) (hs : StartsAttempt f s) :
    StartsAttempt f t where
  entered := h.1
  rxLen := h.2.rxLen.trans hs.rxLen
  baudDiv := h.2.baudDiv ▸ hs.baudDiv
  frameLen := h.2.frameLen ▸ hs.frameLen
  frame_pos := hs.frame_pos
  frame_le := hs.frame_le
  frame := h.2.holds hs.frame

theorem NextAttempt.bounds {s t : State} (h : NextAttempt s t) :
    t.attemptBound = s.attemptBound ∧ t.retryBound = s.retryBound := by
  simp [State.attemptBound, State.retryBound, h.2.baudDiv, h.2.frameLen, h.2.tSettle, h.2.tPostsend, h.2.tCeil, h.2.tRetry,
    h.2.tickDiv]

theorem NextAttempt.attempt_toNat {s t : State} (h : NextAttempt s t) (ha : s.attempt.toNat < s.maxAttempts.toNat) :
    t.attempt.toNat = s.attempt.toNat + 1 := by
  have next : t.attempt = s.attempt + 1#4 := h.2.attempt
  have hm := s.maxAttempts.isLt
  rw [next, BitVec.toNat_add, BitVec.toNat_ofNat]
  omega

/-! ### All attempts -/

/-- `t` is the end of the EXCHANGE of `s`, with nothing received in any attempt (42_transceiver.md R116). -/
structure EndedSilently (s t : State) : Prop where
  xstate : t.xstate = .idle
  done : t.done = true
  errcode : t.errcode = .noResponse
  lastErr : t.lastErr = .noResponse
  attempt : t.attempt = s.maxAttempts
  rxLen : t.rxLen = 0#10
  rxDi : t.rxDi = 0#32
  mem : t.mem = s.mem

/-- The failure of the last attempt ends the EXCHANGE. -/
theorem FailedSilently.ended {s u : State} (h : FailedSilently s u) (hl : s.rxLen = 0#10) (ha : s.attempt = s.maxAttempts) :
    EndedSilently s u := by
  obtain ⟨v, rfl, -, hk⟩ := h
  beta_reduce
  rw [attemptFailed_last _ (by rw [hk.attempt, hk.maxAttempts, ha])]
  exact ⟨rfl, rfl, rfl, rfl, hk.attempt.trans ha, hk.rxLen.trans hl, rfl, hk.mem⟩

theorem EndedSilently.of_next {s t u : State} (h : EndedSilently t u) (hn : NextAttempt s t) : EndedSilently s u :=
  { h with attempt := h.attempt.trans hn.2.maxAttempts, mem := h.mem.trans hn.2.mem }

/-- With `n` attempts left after this one a silent line ends the EXCHANGE within `n + 1` attempts and their retry waits. -/
theorem StartsAttempt.leadsTo_end {f : List Byte} {n : Nat} {s : State} (h : StartsAttempt f s)
    (hn : s.attempt.toNat + n = s.maxAttempts.toNat) :
    LeadsTo s ((n + 1) * (s.attemptBound + s.retryBound)) (EndedSilently s) := by
  induction n generalizing s with
  | zero =>
    refine (h.leadsTo_failure.imp fun _ hu => hu.ended h.rxLen (BitVec.eq_of_toNat_eq hn)).mono ?_
    omega
  | succ n ih =>
    have next : LeadsTo s (s.attemptBound + s.retryBound) (NextAttempt s) :=
      h.leadsTo_failure.trans fun _ hu => hu.leadsTo_next h.rxLen (by omega)
    have rest : ∀ t, NextAttempt s t → LeadsTo t ((n + 1) * (s.attemptBound + s.retryBound)) (EndedSilently s) := by
      intro t ht
      obtain ⟨sameAttempt, sameRetry⟩ := ht.bounds
      have left : t.attempt.toNat + n = t.maxAttempts.toNat := by
        rw [ht.attempt_toNat (by omega), ht.2.maxAttempts]
        exact (Nat.add_right_comm ..).trans hn
      rw [← sameAttempt, ← sameRetry]
      exact (ih (ht.startsAttempt h) left).imp fun _ hu => hu.of_next ht
    rw [Nat.succ_mul, Nat.add_comm]
    exact next.trans rest

/-- Settles O52: by induction on the attempts that remain; each takes its phases and a retry wait at most. -/
theorem silentExchangeEndsWithNoResponse : Obligations.SilentExchangeEndsWithNoResponse := by
  intro s f bound h hx hidx hbit hcyc ha hl hfl hf hbound hq
  have core := h.toExchange (by rw [hx]; rfl)
  obtain ⟨hN, hN', -, -, hmax⟩ := core.config
  have start : StartsAttempt f s :=
    ⟨⟨hx, ⟨hidx, hbit, hcyc⟩, h.prescLe, .refl s⟩, hl, core.baudDiv_pos, hfl, hfl ▸ hN, hfl ▸ hN', hf⟩
  have first : s.attempt.toNat = 1 := by rw [ha]; rfl
  have attempts : s.maxAttempts.toNat - 1 + 1 = s.maxAttempts.toNat := by omega
  have total : bound = (s.maxAttempts.toNat - 1 + 1) * (s.attemptBound + s.retryBound) := by
    rw [hbound, attempts, State.attemptBound, State.retryBound]
    ring
  rw [total] at hq ⊢
  obtain ⟨k, hk, t, ht, e⟩ := start.leadsTo_end (by omega) hq
  exact ⟨k, hk, t, ht, e.xstate, e.done, e.errcode, e.lastErr, e.attempt, e.rxLen, e.rxDi, e.mem⟩

end Sys2Proof.Machine
end

section
/-! PROOF. What a command that ends with an error leaves (60_exceptions.md R129): each codec command and EXCHANGE in turn. -/

namespace Sys2Proof.Machine

/-- A read whose continuation answers a next state has a value. -/
theorem readThen_eq_next {α : Type} {r : Except Fault α} {k : α → Result} {t : State} (h : readThen r k = .next t) :
    ∃ a, r = .ok a ∧ k a = .next t := by
  cases r with
  | ok a => exact ⟨a, rfl, h⟩
  | error f => cases h

/-- An ADDR_ENCODE that has read its characters fails only on one that is no hex digit (41_codec.md R97). -/
theorem encodeAddress_failed {s : State} {cs : List Byte} (he : (s.encodeAddress cs).errcode ≠ .ok) :
    s.encodeAddress cs = s.complete .invalidAddress := by
  refine encodeAddress_of_not_hex s (by_contra fun h => ?_)
  have allHex : (paddedAddress cs).all isHex = true := by simpa using h
  exact he (congrArg State.errcode (if_pos allHex))

/-- ADDR_ENCODE stores an address only when it completes with OK (41_codec.md R97). -/
theorem exec_addrEncode_failed {s t : State} (h : exec .addrEncode s = .next t) (he : t.errcode ≠ .ok) :
    t = s.complete t.errcode := by
  simp only [exec, execAddrEncode] at h
  split at h
  · cases h; rfl
  · obtain ⟨cs, -, hk⟩ := readThen_eq_next h
    cases hk
    rw [encodeAddress_failed he]
    rfl

/-- BUILD fails only by its length check, before it writes TXBUF (41_codec.md R98). -/
theorem exec_build_failed {s t : State} (h : exec .build s = .next t) (he : t.errcode ≠ .ok) : t = s.complete t.errcode := by
  simp only [exec, execBuild] at h
  split at h
  · cases h; rfl
  · obtain ⟨p, -, hk⟩ := readThen_eq_next h
    cases hk
    exact absurd rfl he

/-- An EXCHANGE that is over at its acceptance was rejected before it cleared anything (42_transceiver.md R108). -/
theorem exec_exchange_rejected {s t : State} (h : exec .exchange s = .next t) (hx : t.xstate = .idle) :
    t = s.complete t.errcode := by
  simp only [exec, execExchange] at h
  split at h
  · cases h; rfl
  · split at h
    · cases h; rfl
    · cases h
      cases hx

/-- No check of the parse answers BadFrameLength (41_codec.md R99). -/
theorem parse_fail_ne_badFrameLength {rd : Nat → Except Fault Byte} {n : Nat} {e : ErrCode}
    (h : parse rd n = .ok (.fail e)) : e ≠ .badFrameLength := by
  rintro rfl
  rcases parse_cases rd n with ⟨_, _, _, _, _, hp, -⟩ | ⟨e, hp, he⟩ | ⟨_, _, hp, -⟩ <;> rw [hp] at h <;> cases h
  exact absurd he (by decide)

/-- A PARSE fails by its length check, which changes nothing, or by its parse, which clears the parse results (41_codec.md R100,
R101). -/
theorem State.parses.exec_failed {s t : State} {i : Instr} {b : Buf} {n : Nat} (hc : s.parses i b n)
    (h : exec i s = .next t) (he : t.errcode ≠ .ok) :
    t = s.complete .badFrameLength ∨ (t.errcode ≠ .badFrameLength ∧ t = s.clearParse.complete t.errcode) := by
  rw [hc.exec_eq, State.parseBuf] at h
  split at h
  · cases h; exact .inl rfl
  · obtain ⟨r, hr, hk⟩ := readThen_eq_next h
    cases hk
    cases r with
    | ok => exact absurd rfl he
    | fail e => exact .inr ⟨parse_fail_ne_badFrameLength hr, rfl⟩

/-- A failed command other than PARSE is its completion and nothing else (60_exceptions.md R129). -/
theorem exec_failed_of_not_parse {i : Instr} {s t : State} (hi : ¬(i = .parseRx ∨ i = .parseTx)) (h : exec i s = .next t)
    (he : t.errcode ≠ .ok) (hx : t.xstate = .idle) : t = s.complete t.errcode := by
  cases i with
  | nop => cases h; rfl
  | addrEncode => exact exec_addrEncode_failed h he
  | build => exact exec_build_failed h he
  | parseRx => exact absurd (.inl rfl) hi
  | parseTx => exact absurd (.inr rfl) hi
  | exchange => exact exec_exchange_rejected h hx
  | illegal w => cases h; rfl

/-- Settles O19: the code of a failed PARSE says whether it passed its length check; every other failed command is its completion
and nothing else. -/
theorem failedCommandsChangeNothingElse : Obligations.FailedCommandsChangeNothingElse := by
  intro i s t h he hx
  by_cases hi : i = .parseRx ∨ i = .parseTx
  · have hc : ∃ b n, s.parses i b n := hi.elim (fun hr => ⟨_, _, .inl ⟨hr, rfl, rfl⟩⟩) fun ht => ⟨_, _, .inr ⟨ht, rfl, rfl⟩⟩
    obtain ⟨b, n, hc⟩ := hc
    rcases hc.exec_failed h he with rfl | ⟨hne, ht⟩
    · exact ⟨fun hp => absurd rfl hp.2, fun _ => rfl⟩
    · exact ⟨fun _ => ht, fun hn => absurd ⟨hi, hne⟩ hn⟩
  · exact ⟨fun hp => absurd hp.1 hi, fun _ => exec_failed_of_not_parse hi h he hx⟩

end Sys2Proof.Machine
end

section
/-! PROOF. The reset cycle (70_reset_and_hazards.md R143, R144). -/

namespace Sys2Proof.Machine

/-- A read in a reset cycle answers 0 whatever its address (70_reset_and_hazards.md R144). -/
@[simp] theorem resetPhase_read_rdata (s : State) (off : BitVec 11) (size : Size) :
    (s.resetPhase (some (.read off size))).rdata = some 0#32 := rfl

/-- A reset cycle leaves every output at its reset level (70_reset_and_hazards.md R143): the outputs are functions of the fields
that a reset cycle puts back. -/
theorem resetPhase_outputs (s : State) (access : Option Access) :
    (s.resetPhase access).uartTxd = .ok true ∧ (s.resetPhase access).uartDe = false ∧ (s.resetPhase access).irq = false := by
  rw [resetPhase_frame]
  exact ⟨rfl, rfl, rfl⟩

/-- Settles O54: a cycle with RST_N low is the reset phase, whose frame, read answer and outputs are known. -/
theorem resetCycleRestoresResetValues : Obligations.ResetCycleRestoresResetValues := by
  intro s hr
  refine ⟨_, step_of_rstN_low hr, resetPhase_frame _ _, fun off size hacc => ?_, resetPhase_outputs _ _⟩
  rw [hacc, resetPhase_read_rdata]

end Sys2Proof.Machine
end
